-- ==== Sys2Proof/Word.lean ====
section
/-! DEFINITION. The words of the block: bytes, 16-bit words, 32-bit addresses, the two access widths and
a datum of either width (spec/00_scope.md R12, spec/20_memory.md R52). -/

namespace Sys2Proof

/-- `u8` (00_scope.md R12). -/
abbrev Byte := BitVec 8

/-- `u16`, the word of a bus transaction (20_memory.md R52). -/
abbrev Word := BitVec 16

/-- `u32`: an address, a bound, a mask, a length, an offset (00_scope.md R12, 20_memory.md R51). -/
abbrev Addr := BitVec 32

/-- An offset into the register file, 0x00 .. 0x1F (00_scope.md R6). -/
abbrev RegOff := BitVec 5

/-- The width `n` of a transaction: 1 byte or 2 bytes (20_memory.md R52). -/
inductive Width where
  | byte
  | word
deriving DecidableEq, Repr

/-- A datum as issued or answered: it carries its own width (46_device_bridges.md R241). -/
inductive Datum where
  | byte (v : Byte)
  | word (v : Word)
deriving DecidableEq, Repr

end Sys2Proof
end

