-- ==== Sys2Proof/Config.lean ====
section
/-! DEFINITION. The parameters of the block, collected in the record `Config` (spec/00_scope.md R7), as plain data;
and the one free value of the model, the oracle answer nobody has supplied (spec/00_scope.md R9).
Their evaluation, their well-formedness and the reference configuration stand in Machine/Parameters.lean. -/

namespace Sys2Proof

/-- The board revision of a HardwareProfile. An open set of names (42_mapping_manager.md R164 uses A, B, unknown);
it acts only as a key of `SLOT_TABLE` (90_conflicts.md C6). -/
inductive BoardRev where
  | A
  | B
  | unknown
  | other (id : Nat)
deriving DecidableEq, Repr

/-- `PROFILE` (00_scope.md R7, 10_state.md R33, 90_conflicts.md C6). -/
structure Profile where
  boardRev   : BoardRev
  pcbVariant : Nat
  encrypted  : Bool
  altSound   : Bool
deriving DecidableEq, Repr

/-- The kind of an access: data read, data write, instruction fetch (20_memory.md R52). -/
inductive Kind where
  | R
  | W
  | F
deriving DecidableEq, Repr

/-- A subset of {R, W, F}: the kinds a flat mapping serves (20_memory.md R54). -/
structure Kinds where
  r : Bool
  w : Bool
  f : Bool
deriving DecidableEq, Repr

/-- BackingId: an open set of names (42_mapping_manager.md R163). The first seven are the names the spec's test
profiles use. -/
inductive Backing where
  | WORKRAM
  | ROM0
  | ROM1
  | ROM0DEC
  | TILERAM
  | TEXTRAM
  | PALRAM
  | other (id : Nat)
deriving DecidableEq, Repr

/-- The six NamedSoftRegions (10_state.md R25). -/
inductive SoftId where
  | io
  | tileRAM
  | bankLatch
  | soundBridge
  | math1
  | math2
deriving DecidableEq, Repr

/-- SlotAction (42_mapping_manager.md R154). -/
inductive SlotAction where
  | flat (backing : Backing) (kinds : Kinds) (length mirror offset : Addr)
  | soft (region : SoftId) (length mirror offset : Addr)
deriving DecidableEq, Repr

/-- The list of actions of each slot 0..7 (42_mapping_manager.md R154). -/
abbrev SlotTable := Vector (List SlotAction) 8

/-- `RegSel : u32 -> 0..31` (00_scope.md R7) as data. Every function from addresses to offsets is a value of this
type (nest windows down to single addresses), so no generality is lost. -/
inductive RegSel where
  /-- `(a >> shift) & 0x1F`. -/
  | bits (shift : Nat)
  /-- The same offset for every address. -/
  | fixed (o : RegOff)
  /-- One selection for the addresses `lo .. hi`, another for the rest. -/
  | window (lo hi : Addr) (inner outer : RegSel)
deriving DecidableEq, Repr

/-- What a recognised offset returns, `regs -> u8` (00_scope.md R7, row `RegReadView`), as data. Every function of
the 32 bytes is a value of this type (test bytes with mask 0xFF). -/
inductive ReadView where
  /-- The stored byte of a register. -/
  | stored (o : RegOff)
  /-- A constant. -/
  | const (v : Byte)
  /-- One view if `regs[o] & mask = value`, another otherwise. -/
  | ifField (o : RegOff) (mask value : Byte) (yes no : ReadView)
deriving DecidableEq, Repr

/-- The record `Config` of 00_scope.md R7. `slotTables` is `SLOT_TABLE`: the first entry listed for the profile is
its table, and a profile without an entry is unsupported (42_mapping_manager.md R153). -/
structure Config where
  profile          : Profile
  slotTables       : List (Profile × SlotTable)
  regMode          : RegOff
  regSndlatch      : RegOff
  regIrq           : RegOff
  regDma           : RegOff
  regSel           : RegSel
  regReadView      : Vector (Option ReadView) 32
  regWordHi        : Byte
  mresetImpliesRst : Bool
  resetClearsRegs  : Bool
deriving DecidableEq, Repr

/-- FREE VALUE (log 8). The oracle's answer to the n-th draw when the outside has supplied none: a value under no
law (00_scope.md R9, 93_implementation_defined.md U8). It has no body, so no proof can see what it is. -/
opaque Config.freeAnswer : Nat → BitVec 32

end Sys2Proof
end

