-- ==== Sys2Proof/Machine/Parameters.lean ====
section
/-! DEFINITION. Evaluation of the parameters, their well-formedness (spec/00_scope.md R7, spec/42_mapping_manager.md
R156), the test profiles (R164) and the reference configuration REFCFG. -/

namespace Sys2Proof

/-- `inside(a, s, e)`: `s <= a and a <= e`, unsigned (00_scope.md R13). -/
def inside (a s e : Addr) : Bool := decide (s ≤ a) && decide (a ≤ e)

/-- Membership of a kind in a set of kinds. -/
def kindIn : Kind → Kinds → Bool
  | .R, ks => ks.r
  | .W, ks => ks.w
  | .F, ks => ks.f

/-- `RegSel(a)` (00_scope.md R7). -/
def selectReg : RegSel → Addr → RegOff
  | .bits n, a => (a >>> n).setWidth 5
  | .fixed o, _ => o
  | .window lo hi i o, a => if inside a lo hi then selectReg i a else selectReg o a

/-- The byte a read view returns, from the register file (00_scope.md R7, row `RegReadView`). -/
def viewValue : ReadView → Vector Byte 32 → Byte
  | .stored o, regs => regs[o.toFin]
  | .const v, _ => v
  | .ifField o mask value yes no, regs =>
      if regs[o.toFin] &&& mask = value then viewValue yes regs else viewValue no regs

/-- `RegReadView(o)`: the view of a recognised offset, `none` otherwise. -/
def Config.readView (c : Config) (o : RegOff) : Option ReadView := c.regReadView[o.toFin]

/-- `SLOT_TABLE(PROFILE)`; `none` is an unsupported profile (42_mapping_manager.md R153). -/
def Config.table (c : Config) : Option SlotTable :=
  (c.slotTables.find? fun p => decide (p.1 = c.profile)).map (·.2)

/-- `REG_MODE`, `REG_IRQ`, `REG_SNDLATCH` are pairwise distinct; all four offsets lie in 0x00..0x0F; `REG_DMA_TRIG` may
equal any of the others (00_scope.md R7). -/
def Config.offsetsOk (c : Config) : Bool :=
  decide (c.regMode ≠ c.regSndlatch) && decide (c.regMode ≠ c.regIrq) && decide (c.regSndlatch ≠ c.regIrq) &&
  decide (c.regMode < 0x10#5) && decide (c.regSndlatch < 0x10#5) && decide (c.regIrq < 0x10#5) &&
  decide (c.regDma < 0x10#5)

/-- The set of kinds is not empty. -/
def kindsNonempty (k : Kinds) : Bool := k.r || k.w || k.f

/-- Every Flat action has a non-empty `kinds` (42_mapping_manager.md R156 point 2). -/
def flatActionOk : SlotAction → Bool
  | .flat _ kinds _ _ _ => kindsNonempty kinds
  | .soft _ _ _ _ => true

/-- The action is a Soft action on the region `r`. -/
def targets (r : SoftId) : SlotAction → Bool
  | .flat _ _ _ _ _ => false
  | .soft r' _ _ _ => decide (r' = r)

/-- The six NamedSoftRegions, in the order of 10_state.md R25. -/
def softIds : List SoftId := [.io, .tileRAM, .bankLatch, .soundBridge, .math1, .math2]

/-- Well-formedness of one slot table (42_mapping_manager.md R156). -/
def slotTableOk (t : SlotTable) : Bool :=
  let actions := t.toList.flatten
  actions.all flatActionOk && softIds.all fun r => decide (actions.countP (targets r) ≤ 1)

/-- A `Config` the model accepts (00_scope.md R7, 42_mapping_manager.md R156, 60_exceptions.md R296). -/
def Config.wf (c : Config) : Bool := c.offsetsOk && c.slotTables.all fun p => slotTableOk p.2

/-! ### The test profiles (42_mapping_manager.md R164): the spec's fixtures, no claim about any board (log 7) -/

def TP0 : Profile := { boardRev := .A, pcbVariant := 0, encrypted := false, altSound := false }
def TP1 : Profile := { TP0 with altSound := true }
def TP2 : Profile := { TP0 with encrypted := true }
def TP3 : Profile := { TP0 with boardRev := .B }
/-- DESIGN CHOICE (log 30): R164 gives TPX its board revision only ("boardRev: unknown, ..."); the three other fields are
TP0's. The profile has no table whatever they are. -/
def TPX : Profile := { TP0 with boardRev := .unknown }

def kindsR : Kinds := ⟨true, false, false⟩
def kindsF : Kinds := ⟨false, false, true⟩
def kindsRW : Kinds := ⟨true, true, false⟩
def kindsRF : Kinds := ⟨true, false, true⟩
def kindsRWF : Kinds := ⟨true, true, true⟩

/-- The table of TP0 and TP1, slots 0 to 7. -/
def tableTP0 : SlotTable := #v[
  [.flat .ROM0 kindsRF 0x40000 0 0],
  [.flat .ROM1 kindsRF 0x40000 0 0],
  [.soft .soundBridge 0x10 0 0, .soft .bankLatch 0x2000 0 0x2000],
  [.flat .WORKRAM kindsRWF 0x4000 0x00FFC000 0],
  [.soft .math1 0x800 0 0, .soft .math2 0x800 0 0x1000],
  [.flat .TILERAM kindsR 0x10000 0 0, .soft .tileRAM 0x10000 0 0, .flat .TEXTRAM kindsRW 0x1000 0 0x10000],
  [.flat .PALRAM kindsRW 0x1000 0 0],
  [.soft .io 0x4000 0x00FFC000 0]]

/-- The table of TP2: slot 0 has its own fetch buffer (42_mapping_manager.md R158). -/
def tableTP2 : SlotTable :=
  tableTP0.set 0 [.flat .ROM0 kindsR 0x40000 0 0, .flat .ROM0DEC kindsF 0x40000 0 0]

/-- The table of TP3, made to reach the mirror capacity. -/
def tableTP3 : SlotTable := #v[
  [.flat .ROM0 kindsRF 0x40000 0 0], [], [], [], [], [], [],
  [.soft .io 0x800 0x0001F800 0]]

/-- The reference `RegReadView`: 0x00 and 0x01 as stored, 0x02 a status (45_register_commands.md R232; PRESUMED by
the spec from general knowledge, log 5). -/
def referenceView : Vector (Option ReadView) 32 :=
  (((Vector.replicate 32 none).set 0 (some (.stored 0x00))).set 1 (some (.stored 0x01))).set 2
    (some (.ifField 0x02 0x03 0x03 (.const 0x00) (.const 0x0F)))

/-- REFCFG (00_scope.md R7) with profile TP0 (log 3, 4, 5, 6). -/
def REFCFG : Config where
  profile          := TP0
  slotTables       := [(TP0, tableTP0), (TP1, tableTP0), (TP2, tableTP2), (TP3, tableTP3)]
  regMode          := 0x02
  regSndlatch      := 0x03
  regIrq           := 0x04
  regDma           := 0x05
  regSel           := .bits 1
  regReadView      := referenceView
  regWordHi        := 0x00
  mresetImpliesRst := false
  resetClearsRegs  := true

end Sys2Proof
end

