-- ==== Sys2Proof/Syntax.lean ====
section
/-! DEFINITION. The operations of the block (what the checklist calls instructions, spec/00_scope.md R17): one
constructor per mnemonic of spec/opcode_table.json; their encoded forms (spec/30_encoding.md R80); and the stimulus that
carries an operation from outside (R90). -/

namespace Sys2Proof

/-- ComputedRegion: `{start, end, mirrorMask}` (40_region_calculator.md R120); `stop` is the spec's `end`,
inclusive. It is derived, never stored in the machine (10_state.md R34). -/
structure ComputedRegion where
  start      : Addr
  stop       : Addr
  mirrorMask : Addr
deriving DecidableEq, Repr

/-- The bulk-configure block, format B: 16 bytes (30_encoding.md R95). -/
abbrev Block := Vector Byte 16

/-- The snapshot, format S: 33 bytes (30_encoding.md R98); also the width of the payload port `P` (log 12). -/
abbrev Snapshot := Vector Byte 33

/-- The operations (00_scope.md R17, spec/opcode_table.json). -/
inductive Instr where
  -- format T: bus transactions (30_encoding.md R91)
  /-- RDB: read byte. -/
  | rdb (a : Addr)
  /-- RDW: read word. -/
  | rdw (a : Addr)
  /-- WRB: write byte. -/
  | wrb (a : Addr) (d : Byte)
  /-- WRW: write word. -/
  | wrw (a : Addr) (d : Word)
  /-- FTW: fetch word. -/
  | ftw (a : Addr)
  /-- Reserved op code 0x5 (30_encoding.md R94). -/
  | reserved5
  /-- Reserved op code 0x6. -/
  | reserved6
  /-- Reserved op code 0x7. -/
  | reserved7
  -- format T: host operations
  /-- INIT. -/
  | init
  /-- EXIT. -/
  | exit
  /-- RST: chip reset. -/
  | rst
  /-- CFG: bulk configure. -/
  | cfg (block : Block)
  /-- SETHOOK: `r` = D[0] new hookR, `w` = D[1] new hookW. -/
  | sethook (r w : Bool)
  /-- SAVE. -/
  | save
  /-- RESTORE. -/
  | restore (snap : Snapshot)
  /-- Reserved op code 0xF. -/
  | reservedF
  -- format K: register commands (30_encoding.md R85)
  /-- REGWR.DESC: register `0x10 + j`. -/
  | regwrDesc (j : BitVec 4) (v : Byte)
  /-- REGWR.MODE: register `REG_MODE`. -/
  | regwrMode (v : Byte)
  /-- REGWR.SNDLATCH: register `REG_SNDLATCH`. -/
  | regwrSndlatch (v : Byte)
  /-- REGWR.IRQ: register `REG_IRQ`. -/
  | regwrIrq (v : Byte)
  /-- REGWR.DMA: register `REG_DMA_TRIG`. -/
  | regwrDma (v : Byte)
  /-- REGWR.PLAIN: register `o` in 0x00..0x0F (three rows of the table, one operation, log 19). -/
  | regwrPlain (o : BitVec 4) (v : Byte)
  -- format O
  /-- REGRD: register read. -/
  | regrd (o : RegOff)
  -- internal procedures: no encoding (30_encoding.md R80)
  /-- COMPUTE. -/
  | compute (slot : Nat) (length mirror offset : Addr)
  /-- EXPAND.I: installing mode. -/
  | expandI (c : ComputedRegion) (backing : Backing) (kinds : Kinds)
  /-- EXPAND.R: recording mode. -/
  | expandR (c : ComputedRegion) (region : SoftId)
  /-- RECOMPUTE. -/
  | recompute
  /-- OPENBUS. -/
  | openbus
deriving DecidableEq, Repr

/-- An encoded operation, by its format (30_encoding.md R80): a 52-bit command bundle with its payload port (format T,
R90), a 13-bit register command key (format K, R85), a 5-bit register offset to read (format O). -/
inductive Encoded where
  | bundle (t : BitVec 52) (payload : Snapshot)
  | regKey (k : BitVec 13)
  | regOffset (o : RegOff)
deriving DecidableEq, Repr

/-- What the outside presents to the block: a command bundle with its payload port (30_encoding.md R90), and nothing
else. A register command or a register read is reached only from a bus transaction (10_state.md R24, 00_scope.md R17). -/
structure Stimulus where
  bundle  : BitVec 52
  payload : Snapshot
deriving DecidableEq, Repr

end Sys2Proof
end

