-- ==== Sys2Proof/WellFormed.lean ====
section
/-! DEFINITION. Which operations are well-formed under a configuration: what the encoding tables and the operand lists
of the spec admit (spec/30_encoding.md R85, spec/40_region_calculator.md R120, spec/41_mirror_expander.md R138). -/

namespace Sys2Proof

/-- A ComputedRegion that COMPUTE can give: ordered bounds, the largest end of 40_region_calculator.md R127, and a
mirror mask inside the largest size mask (R125). -/
def ComputedRegion.wellFormed (c : ComputedRegion) : Bool :=
  decide (c.start ≤ c.stop) && decide (c.start ≤ 0x00FFFFFF#32) && decide (c.stop ≤ 0x011FFFFE#32) &&
  decide (c.mirrorMask &&& ~~~0x001FFFFF#32 = 0)

/-- The offset of REGWR.DMA names that command only if no earlier row of 30_encoding.md R85 has the same offset. -/
def dmaReachable (c : Config) : Bool :=
  decide (c.regDma ≠ c.regMode) && decide (c.regDma ≠ c.regIrq) && decide (c.regDma ≠ c.regSndlatch)

/-- An offset of 0x00..0x0F that no named register command has (30_encoding.md R85, row 6). -/
def plainOffset (c : Config) (o : RegOff) : Bool :=
  decide (o ≠ c.regMode) && decide (o ≠ c.regIrq) && decide (o ≠ c.regSndlatch) && decide (o ≠ c.regDma)

/-- Well-formedness of an operation under a configuration. -/
def Instr.wellFormed (c : Config) : Instr → Bool
  | .rdb _ => true
  | .rdw _ => true
  | .wrb _ _ => true
  | .wrw _ _ => true
  | .ftw _ => true
  | .reserved5 => true
  | .reserved6 => true
  | .reserved7 => true
  | .init => true
  | .exit => true
  | .rst => true
  | .cfg _ => true
  | .sethook _ _ => true
  | .save => true
  | .restore _ => true
  | .reservedF => true
  | .regwrDesc _ _ => true
  | .regwrMode _ => true
  | .regwrSndlatch _ => true
  | .regwrIrq _ => true
  | .regwrDma _ => dmaReachable c
  | .regwrPlain o _ => plainOffset c (0#1 ++ o)
  | .regrd _ => true
  | .compute slot _ _ _ => decide (slot < 8)
  | .expandI r _ kinds => r.wellFormed && kindsNonempty kinds
  | .expandR r _ => r.wellFormed
  | .recompute => true
  | .openbus => true

/-- The kinds of operation (00_scope.md R17). -/
inductive OpClass where
  /-- A bus transaction, issued by the CPU. -/
  | bus
  /-- A host operation. -/
  | host
  /-- A reserved op code of the bundle (30_encoding.md R94). -/
  | reserved
  /-- A register command or register read. -/
  | register
  /-- An internal procedure: no format encodes it (30_encoding.md R80). -/
  | internal
deriving DecidableEq, Repr

/-- The kind of each operation (00_scope.md R17). -/
def Instr.opClass : Instr → OpClass
  | .rdb _ => .bus
  | .rdw _ => .bus
  | .wrb _ _ => .bus
  | .wrw _ _ => .bus
  | .ftw _ => .bus
  | .reserved5 => .reserved
  | .reserved6 => .reserved
  | .reserved7 => .reserved
  | .init => .host
  | .exit => .host
  | .rst => .host
  | .cfg _ => .host
  | .sethook _ _ => .host
  | .save => .host
  | .restore _ => .host
  | .reservedF => .reserved
  | .regwrDesc _ _ => .register
  | .regwrMode _ => .register
  | .regwrSndlatch _ => .register
  | .regwrIrq _ => .register
  | .regwrDma _ => .register
  | .regwrPlain _ _ => .register
  | .regrd _ => .register
  | .compute _ _ _ _ => .internal
  | .expandI _ _ _ => .internal
  | .expandR _ _ => .internal
  | .recompute => .internal
  | .openbus => .internal

end Sys2Proof
end

