-- ==== Sys2Proof/Decode.lean ====
section
/-! DEFINITION. From bits to an operation and back: the command bundle (spec/30_encoding.md R90 to R92, R94), the
register command key (R85), the register offset (R232 of spec/45_register_commands.md), the encoder, and the
numbering of spec/opcode_table.json. Decoding is total: the reserved op codes are operations of their own, which the
machine refuses by name (R94). -/

namespace Sys2Proof

/-! ### Fields -/

/-- `op[3:0]`, bits 51..48 of the bundle (30_encoding.md R90). -/
def bundleOp (t : BitVec 52) : BitVec 4 := t.extractLsb' 48 4

/-- `A[31:0]`, bits 47..16 of the bundle. -/
def bundleA (t : BitVec 52) : Addr := t.extractLsb' 16 32

/-- `D[15:0]`, bits 15..0 of the bundle. -/
def bundleD (t : BitVec 52) : Word := t.extractLsb' 0 16

/-- `op << 48 | A << 16 | D` (30_encoding.md R90). -/
def packBundle (op : BitVec 4) (a : Addr) (d : Word) : BitVec 52 := op ++ a ++ d

/-- The offset field of a register command key, bits 12..8 (30_encoding.md R85). -/
def keyOffset (k : BitVec 13) : RegOff := k.extractLsb' 8 5

/-- The data field of a register command key, bits 7..0. -/
def keyData (k : BitVec 13) : Byte := k.extractLsb' 0 8

/-- `K = off << 8 | v` (30_encoding.md R85). -/
def packKey (o : RegOff) (v : Byte) : BitVec 13 := o ++ v

/-- The register offset `0x10 + j` of a descriptor byte (10_state.md R22). -/
def descOffset (j : BitVec 4) : RegOff := 1#1 ++ j

/-- The register offset `o` of a control or status byte, 0x00..0x0F. -/
def lowOffset (o : BitVec 4) : RegOff := 0#1 ++ o

/-- The bulk-configure block: the first 16 bytes of the payload port (30_encoding.md R91, R95; log 12). -/
def payloadBlock (p : Snapshot) : Block := Vector.ofFn fun j : Fin 16 => p[j.val]

/-- A block on the payload port, the bytes it does not use 0 (30_encoding.md R94). -/
def blockPayload (b : Block) : Snapshot := b ++ Vector.replicate 17 (0 : Byte)

/-- The payload port of an operation that does not use it (30_encoding.md R94: unused fields are zero). -/
def noPayload : Snapshot := Vector.replicate 33 0

/-! ### Decoding -/

/-- The operation of a command bundle: the op field alone selects the row, fields an operation does not use are
ignored (30_encoding.md R91, R92, R94). The last arm is op 0xF, the one value the others leave. -/
def decodeBundle (t : BitVec 52) (p : Snapshot) : Instr :=
  match bundleOp t with
  | 0x0#4 => .rdb (bundleA t)
  | 0x1#4 => .rdw (bundleA t)
  | 0x2#4 => .wrb (bundleA t) ((bundleD t).extractLsb' 0 8)
  | 0x3#4 => .wrw (bundleA t) (bundleD t)
  | 0x4#4 => .ftw (bundleA t)
  | 0x5#4 => .reserved5
  | 0x6#4 => .reserved6
  | 0x7#4 => .reserved7
  | 0x8#4 => .init
  | 0x9#4 => .exit
  | 0xA#4 => .rst
  | 0xB#4 => .cfg (payloadBlock p)
  | 0xC#4 => .sethook ((bundleD t).getLsbD 0) ((bundleD t).getLsbD 1)
  | 0xD#4 => .save
  | 0xE#4 => .restore p
  | _ => .reservedF

/-- The register command of a key: the first matching row of 30_encoding.md R85. -/
def decodeKey (c : Config) (k : BitVec 13) : Instr :=
  if (keyOffset k).getLsbD 4 then .regwrDesc ((keyOffset k).extractLsb' 0 4) (keyData k)
  else if keyOffset k = c.regMode then .regwrMode (keyData k)
  else if keyOffset k = c.regIrq then .regwrIrq (keyData k)
  else if keyOffset k = c.regSndlatch then .regwrSndlatch (keyData k)
  else if keyOffset k = c.regDma then .regwrDma (keyData k)
  else .regwrPlain ((keyOffset k).extractLsb' 0 4) (keyData k)

/-- The operation of an encoded form. -/
def decode (c : Config) : Encoded → Instr
  | .bundle t p => decodeBundle t p
  | .regKey k => decodeKey c k
  | .regOffset o => .regrd o

/-! ### Encoding -/

/-- The canonical encoding of an operation: unused fields are zero (30_encoding.md R92, R94); `none` for the internal
procedures, which have none (R80). -/
def encode (c : Config) : Instr → Option Encoded
  | .rdb a => some (.bundle (packBundle 0x0 a 0) noPayload)
  | .rdw a => some (.bundle (packBundle 0x1 a 0) noPayload)
  | .wrb a d => some (.bundle (packBundle 0x2 a (d.setWidth 16)) noPayload)
  | .wrw a d => some (.bundle (packBundle 0x3 a d) noPayload)
  | .ftw a => some (.bundle (packBundle 0x4 a 0) noPayload)
  | .reserved5 => some (.bundle (packBundle 0x5 0 0) noPayload)
  | .reserved6 => some (.bundle (packBundle 0x6 0 0) noPayload)
  | .reserved7 => some (.bundle (packBundle 0x7 0 0) noPayload)
  | .init => some (.bundle (packBundle 0x8 0 0) noPayload)
  | .exit => some (.bundle (packBundle 0x9 0 0) noPayload)
  | .rst => some (.bundle (packBundle 0xA 0 0) noPayload)
  | .cfg b => some (.bundle (packBundle 0xB 0 0) (blockPayload b))
  | .sethook r w => some (.bundle (packBundle 0xC 0 (0#14 ++ BitVec.ofBool w ++ BitVec.ofBool r)) noPayload)
  | .save => some (.bundle (packBundle 0xD 0 0) noPayload)
  | .restore p => some (.bundle (packBundle 0xE 0 0) p)
  | .reservedF => some (.bundle (packBundle 0xF 0 0) noPayload)
  | .regwrDesc j v => some (.regKey (packKey (descOffset j) v))
  | .regwrMode v => some (.regKey (packKey c.regMode v))
  | .regwrSndlatch v => some (.regKey (packKey c.regSndlatch v))
  | .regwrIrq v => some (.regKey (packKey c.regIrq v))
  | .regwrDma v => some (.regKey (packKey c.regDma v))
  | .regwrPlain o v => some (.regKey (packKey (lowOffset o) v))
  | .regrd o => some (.regOffset o)
  | .compute _ _ _ _ => none
  | .expandI _ _ _ => none
  | .expandR _ _ => none
  | .recompute => none
  | .openbus => none

/-! ### The bundle that carries an encoded form into the block -/

/-- `rb + 2*o + 1`, the address at which the reference `RegSel` gives `o` (30_encoding.md R101). -/
def registerAddress (rb : Addr) (o : RegOff) : Addr := rb + 2 * o.setWidth 32 + 1

/-- A register base above every window and every alias: no mapping reaches past 0x13FFFFD (40_region_calculator.md R127,
41_mirror_expander.md R143; log 2). -/
def highRegisterBase : Addr := 0x80000000

/-- The stimulus that makes the block perform an encoded operation: the bundle itself; for a register command key the WRB,
and for a register offset the RDB, that falls through to it under the reference `RegSel` (30_encoding.md R101,
44_bus_router_write.md R206, 43_bus_router_read.md R184; log 2). -/
def Encoded.carrier : Encoded → Stimulus
  | .bundle t p => { bundle := t, payload := p }
  | .regKey k =>
      { bundle := packBundle 0x2 (registerAddress highRegisterBase (keyOffset k)) ((keyData k).setWidth 16),
        payload := noPayload }
  | .regOffset o => { bundle := packBundle 0x0 (registerAddress highRegisterBase o) 0, payload := noPayload }

/-! ### The numbering of spec/opcode_table.json -/

/-- The encoded form of a table row's word. A row's width names its format (30_encoding.md R80): at most 8 bits, a register
offset (format O, 5 bits); at most 16, a register command key (format K, 13 bits); at most 56, a command bundle
(format T, 52 bits) with its payload port zero. A word with a bit above its format's width is refused. -/
def tableEncoded (nbits w : Nat) : Option Encoded :=
  if nbits = 0 then none
  else if nbits ≤ 8 then if w < 2 ^ 5 then some (.regOffset (BitVec.ofNat 5 w)) else none
  else if nbits ≤ 16 then if w < 2 ^ 13 then some (.regKey (BitVec.ofNat 13 w)) else none
  else if nbits ≤ 56 then if w < 2 ^ 52 then some (.bundle (BitVec.ofNat 52 w) noPayload) else none
  else none

/-- The operation the decoder reads from a table row's word, under the reference offsets the table is written with
(30_encoding.md R85: "match / mask on K under REFCFG"). -/
def decodeTableWord (nbits w : Nat) : Option Instr := (tableEncoded nbits w).map (decode REFCFG)

end Sys2Proof
end

