-- ==== Sys2Proof/Machine/State.lean ====
section
/-! DEFINITION. The state of the block (spec/10_state.md R20), its events (spec/00_scope.md R9), the reasons a step can
stop, and the state in which the model starts (spec/47_lifecycle.md R263). Plain data throughout. -/

namespace Sys2Proof.Machine

/-- A pair (start, end) of bounds, `stop` the spec's `end`, inclusive (10_state.md R25). -/
structure Bounds where
  start : Addr
  stop  : Addr
deriving DecidableEq, Repr

/-- A NamedSoftRegion: the primary bounds and the mirror table of capacity 32 (10_state.md R25). -/
structure SoftRegion where
  start : Addr
  stop  : Addr
  mir   : Vector Bounds 32
deriving DecidableEq, Repr

/-- The six NamedSoftRegion tables (10_state.md R25). -/
structure SoftTables where
  io          : SoftRegion
  tileRAM     : SoftRegion
  bankLatch   : SoftRegion
  soundBridge : SoftRegion
  math1       : SoftRegion
  math2       : SoftRegion
deriving DecidableEq, Repr

/-- FlatEntry: the addresses `start..stop` are served, for the kinds in `kinds`, by the buffer `backing`
(10_state.md R31, 20_memory.md R54). -/
structure FlatEntry where
  start   : Addr
  stop    : Addr
  backing : Backing
  kinds   : Kinds
deriving DecidableEq, Repr

/-- The level of an interrupt line (00_scope.md R9). -/
inductive Level where
  | assert
  | deassert
deriving DecidableEq, Repr

/-- The math co-processor instance `i` in {1, 2} (46_device_bridges.md R248). -/
inductive MathUnit where
  | one
  | two
deriving DecidableEq, Repr

/-- The events of the decoder: everything it does to the outside (00_scope.md R9). A written datum carries its own
width `n`. -/
inductive Event where
  | flatAccess (kind : Kind) (backing : Backing) (off : Addr) (n : Width) (d : Option Datum)
  | ioRead (off : Addr) (n : Width) (alt : Bool)
  | ioWrite (off : Addr) (d : Datum) (alt : Bool)
  | ioHookRead (a off : Addr) (n : Width)
  | ioHookWrite (a off : Addr) (d : Datum)
  | tileWrite (off : Addr) (d : Datum)
  | bankWrite (off : Addr) (d : Datum)
  | soundWrite (off : Addr) (d : Datum)
  | mathRead (i : MathUnit) (off : Addr)
  | mathWrite (i : MathUnit) (off : Addr) (d : Datum)
  | soundLatch (v : Byte)
  | irq (line : BitVec 3) (level : Level)
  | decryptReinit
  | machineReset
  | pcQuery
deriving DecidableEq, Repr

/-- What stands on the result port `Q` after an operation (30_encoding.md R90): nothing, a byte or a word, the snapshot;
and, for the operations that return inside the block only, a ComputedRegion (COMPUTE) or the optional byte of a
register read (REGRD) (log 13). -/
inductive QPort where
  | none
  | data (d : Datum)
  | snapshot (s : Snapshot)
  | region (c : ComputedRegion)
  | view (v : Option Byte)
deriving DecidableEq, Repr

/-- The state (10_state.md R20), the ports and the model's own fields (INVENTORY.md, State). -/
structure State where
  /-- The parameters, fixed for the life of an instance (00_scope.md R7, R10; log 3). -/
  cfg     : Config
  /-- RegisterFile, index 0x00..0x1F (10_state.md R21). -/
  regs    : Vector Byte 32
  /-- The NamedSoftRegion tables (10_state.md R25). -/
  soft    : SoftTables
  /-- The mirror-table write index, 0..32 (10_state.md R27). -/
  mwi     : Nat
  /-- The open-bus reentrancy flag (10_state.md R29). -/
  guard   : Bool
  /-- An IO read hook is installed (10_state.md R30). -/
  hookR   : Bool
  /-- An IO write hook is installed (10_state.md R30). -/
  hookW   : Bool
  /-- The flat mappings of the last recompute, oldest first (10_state.md R31). -/
  flat    : List FlatEntry
  /-- INIT has run and EXIT has not (10_state.md R32). -/
  live    : Bool
  /-- A recompute has run since INIT (10_state.md R32). -/
  built   : Bool
  /-- The output trace, oldest event first (00_scope.md R9). -/
  out     : List Event
  /-- The result port (30_encoding.md R90). -/
  q       : QPort
  /-- MODEL'S OWN (log 1): the stimuli presented and not yet performed, next first. -/
  pending : List Stimulus
  /-- MODEL'S OWN (log 8): the oracle answers the outside will give, next first (00_scope.md R9). -/
  answers : List (BitVec 32)
  /-- MODEL'S OWN (log 8): how many draws have been made, the argument of the free value. -/
  draws   : Nat
deriving DecidableEq, Repr

/-- The faults of the machine: NONE. "The decoder raises no synchronous exception, has no cause codes and records no
faulting address" (60_exceptions.md R280; log 23). -/
inductive Fault where
deriving DecidableEq, Repr

/-- The refusals (60_exceptions.md R296): the model declines to define the step. Each is SAFE: a claim about a run that
holds a refused step cannot be proved. -/
inductive Refusal where
  /-- Raised by exec's arm of an operation without a meaning. No arm raises it. Safe. -/
  | notModelled (mnemonic : String)
  /-- Raised by every operation when the parameters break a constraint of 00_scope.md R7 or 42_mapping_manager.md R156.
  Safe. -/
  | illFormedConfig
  /-- Raised by every operation but INIT and the reserved ones while `live` is false (47_lifecycle.md R263). Safe. -/
  | notLive
  /-- Raised by RDB, RDW, WRB, WRW, FTW, and by REGWR.*, REGRD and OPENBUS, which only these reach, while `built` is
  false (47_lifecycle.md R261, R263). Safe. -/
  | notBuilt
  /-- Raised by the op codes 0x5, 0x6, 0x7, 0xF (30_encoding.md R94). Safe. -/
  | reservedOp (op : BitVec 4)
  /-- Raised by RESTORE when byte 32 of the snapshot is above 32 (47_lifecycle.md R272). Safe. -/
  | snapshotIndex (index : Byte)
  /-- Raised by COMPUTE handed a slot outside 0..7 (40_region_calculator.md R120). Safe. -/
  | slotOutOfRange (slot : Nat)
deriving DecidableEq, Repr

/-- What one operation answers. -/
abbrev StepResult := Host.Outcome State Fault Refusal

/-- All registers 0x00 (10_state.md R21, R37). -/
def zeroRegs : Vector Byte 32 := Vector.replicate 32 0

/-- An inactive region with an empty mirror table (10_state.md R26, R37). -/
def emptyRegion : SoftRegion := { start := 0, stop := 0, mir := Vector.replicate 32 ⟨0, 0⟩ }

/-- All six regions inactive. -/
def emptyTables : SoftTables :=
  { io := emptyRegion, tileRAM := emptyRegion, bankLatch := emptyRegion, soundBridge := emptyRegion,
    math1 := emptyRegion, math2 := emptyRegion }

/-- The state in which the model starts: DOWN, every field of the spec's record at its "after EXIT" value
(47_lifecycle.md R263, 10_state.md R37). The configuration is REFCFG with TP0 (log 3); nothing presented, no answers
supplied, an empty trace and an empty result port (log 1, 8, 9). -/
def State.reset : State where
  cfg     := REFCFG
  regs    := zeroRegs
  soft    := emptyTables
  mwi     := 0
  guard   := false
  hookR   := false
  hookW   := false
  flat    := []
  live    := false
  built   := false
  out     := []
  q       := .none
  pending := []
  answers := []
  draws   := 0

end Sys2Proof.Machine
end

