-- ==== Sys2Proof/Machine/Flags.lean ====
section
/-! DEFINITION. The flags of the block (spec/10_state.md section 6): it has no condition codes; its flags are the
lifecycle flags, the open-bus guard and the hooks. Here: what each operation requires of them (spec/10_state.md R32,
spec/60_exceptions.md R296) and the flag updates. -/

namespace Sys2Proof.Machine

/-- An operation under an ill-formed configuration is refused (60_exceptions.md R296, last row). -/
def requireConfig (s : State) (k : StepResult) : StepResult :=
  if s.cfg.wf = true then k else .refused .illFormedConfig

/-- `require S.live` (60_exceptions.md R296, first row). -/
def requireLive (s : State) (k : StepResult) : StepResult :=
  requireConfig s (if s.live = true then k else .refused .notLive)

/-- `require S.live and S.built` (60_exceptions.md R296, second row). -/
def requireBuilt (s : State) (k : StepResult) : StepResult :=
  requireLive s (if s.built = true then k else .refused .notBuilt)

/-- `S.guard <- b` (10_state.md R29). -/
def State.setGuard (s : State) (b : Bool) : State := { s with guard := b }

/-- `S.hookR <- r; S.hookW <- w` (10_state.md R30, 47_lifecycle.md R267). -/
def State.setHooks (s : State) (r w : Bool) : State := { s with hookR := r, hookW := w }

end Sys2Proof.Machine
end

