-- ==== Sys2Proof/Machine/Operands.lean ====
section
/-! DEFINITION. How operands are assembled: the size mask and base of a descriptor (spec/40_region_calculator.md R121,
R122, spec/30_encoding.md R81 to R84), the bridge offset (spec/46_device_bridges.md R240), data of either width (R241),
the bulk block and the snapshot (spec/30_encoding.md R95, R98). -/

namespace Sys2Proof.Machine

/-- The smaller of two unsigned values (00_scope.md R12). -/
def minU (a b : Addr) : Addr := if a ≤ b then a else b

/-- `sizeByte[1:0]` (30_encoding.md R81). -/
def sizeClass (sizeByte : Byte) : BitVec 2 := sizeByte.extractLsb' 0 2

/-- `SIZE_MASK` (40_region_calculator.md R121; rows 1 to 3 by list order, log 21). The last arm is class 3. -/
def sizeMask (sizeByte : Byte) : Addr :=
  match sizeClass sizeByte with
  | 0#2 => 0x0000FFFF
  | 1#2 => 0x0001FFFF
  | 2#2 => 0x0007FFFF
  | _ => 0x001FFFFF

/-- `(zext_32(baseByte) << 16) & ~sizeMask` (40_region_calculator.md R122). -/
def regionBase (baseByte : Byte) (mask : Addr) : Addr := (baseByte.setWidth 32 <<< 16) &&& ~~~mask

/-- `BridgeOffset(a, s) = (a - s) >> 1` (46_device_bridges.md R240). -/
def bridgeOffset (a s : Addr) : Addr := (a - s) >>> 1

/-- A datum of the width asked for, from a 32-bit answer: its low bits (00_scope.md R9, log 10). -/
def datumOf (n : Width) (x : BitVec 32) : Datum :=
  match n with
  | .byte => .byte (x.setWidth 8)
  | .word => .word (x.setWidth 16)

/-- The width `n` of a datum (46_device_bridges.md R241). -/
def datumWidth : Datum → Width
  | .byte _ => .byte
  | .word _ => .word

/-- `d[7:0]`: the byte a register write stores (44_bus_router_write.md R206, 45_register_commands.md R234). -/
def datumLow : Datum → Byte
  | .byte v => v
  | .word v => v.extractLsb' 0 8

/-- The register file after the block is stored in 0x10..0x1F, byte `j` in register `0x10 + j` (30_encoding.md R95). -/
def storeBlock (b : Block) (regs : Vector Byte 32) : Vector Byte 32 :=
  Vector.ofFn fun o : Fin 32 => if h : 16 ≤ o.val then b[o.val - 16] else regs[o]

/-- The snapshot: the registers, then the mirror-table write index (30_encoding.md R98). -/
def packSnapshot (regs : Vector Byte 32) (mwi : Nat) : Snapshot := regs.push (BitVec.ofNat 8 mwi)

/-- Bytes 0..31 of a snapshot (30_encoding.md R98). -/
def snapshotRegs (p : Snapshot) : Vector Byte 32 := p.pop

/-- Byte 32 of a snapshot (30_encoding.md R98). -/
def snapshotIndex (p : Snapshot) : Byte := p[32]

end Sys2Proof.Machine
end

