-- ==== Sys2Proof/Machine/Ops.lean ====
section
/-! DEFINITION. The shared operations over the state: the register file, the result port, events and oracle draws
(spec/00_scope.md R9, R13), the tables and the lookups (spec/20_memory.md R55, spec/43_bus_router_read.md R176), the
register read (spec/45_register_commands.md R232).
The block takes no exception and returns from none (spec/60_exceptions.md R280, R292, R293); its one control event is
the machine reset request, `requestMachineReset` (R288). -/

namespace Sys2Proof.Machine

/-! ### Registers and ports -/

/-- `regs[o]` (00_scope.md R13). -/
def State.reg (s : State) (o : RegOff) : Byte := s.regs[o.toFin]

/-- `regs[o] <- v` (00_scope.md R13). -/
def State.setReg (s : State) (o : RegOff) (v : Byte) : State := { s with regs := s.regs.set o.toFin v }

/-- The whole register file is loaded, without write side effects (45_register_commands.md R223). -/
def State.setRegs (s : State) (regs : Vector Byte 32) : State := { s with regs := regs }

/-- The result port after an operation (30_encoding.md R90). -/
def State.setQ (s : State) (q : QPort) : State := { s with q := q }

/-! ### Events and draws -/

/-- `emit E(...)` (00_scope.md R13). -/
def State.emit (s : State) (e : Event) : State := { s with out := s.out ++ [e] }

/-- Several events, in order. -/
def State.emits (s : State) (es : List Event) : State := { s with out := s.out ++ es }

/-- The oracle's next answer: the next one supplied from outside, else the free value of this draw (00_scope.md R9;
log 8). -/
def State.answer (s : State) : BitVec 32 :=
  match s.answers with
  | x :: _ => x
  | [] => Config.freeAnswer s.draws

/-- The state after `draw E(...)`: the event is emitted and one answer is used up (00_scope.md R13). -/
def State.drawn (s : State) (e : Event) : State :=
  { s with out := s.out ++ [e], answers := s.answers.tail, draws := s.draws + 1 }

/-- `draw E(...) : u(8n)` (00_scope.md R13). -/
def drawDatum (n : Width) (e : Event) (s : State) : Datum × State := (datumOf n s.answer, s.drawn e)

/-- The request for a machine reset: `DecryptReinit` first under an encrypted profile, then `MachineReset`
(45_register_commands.md R220, 60_exceptions.md R288). Nothing is saved and control goes nowhere (R292). -/
def requestMachineReset (s : State) : State :=
  s.emits (if s.cfg.profile.encrypted = true then [.decryptReinit, .machineReset] else [.machineReset])

/-! ### The tables -/

/-- The table of a NamedSoftRegion (10_state.md R25). -/
def SoftTables.get (t : SoftTables) : SoftId → SoftRegion
  | .io => t.io
  | .tileRAM => t.tileRAM
  | .bankLatch => t.bankLatch
  | .soundBridge => t.soundBridge
  | .math1 => t.math1
  | .math2 => t.math2

/-- The tables with one region replaced. -/
def SoftTables.put (t : SoftTables) (r : SoftId) (x : SoftRegion) : SoftTables :=
  match r with
  | .io => { t with io := x }
  | .tileRAM => { t with tileRAM := x }
  | .bankLatch => { t with bankLatch := x }
  | .soundBridge => { t with soundBridge := x }
  | .math1 => { t with math1 := x }
  | .math2 => { t with math2 := x }

/-- The region with new primary bounds. -/
def SoftRegion.setPrimary (x : SoftRegion) (start stop : Addr) : SoftRegion :=
  { x with start := start, stop := stop }

/-- The region with one mirror entry stored; an index past the table stores nothing (41_mirror_expander.md R141). -/
def SoftRegion.setMirror (x : SoftRegion) (i : Nat) (b : Bounds) : SoftRegion :=
  { x with mir := x.mir.setIfInBounds i b }

/-- One region's table replaced. -/
def State.setSoft (s : State) (r : SoftId) (x : SoftRegion) : State := { s with soft := s.soft.put r x }

/-- `S.mwi <- n` (10_state.md R27). -/
def State.setMwi (s : State) (n : Nat) : State := { s with mwi := n }

/-- Flat mappings appended to `S.flat` (10_state.md R31). -/
def State.addFlat (s : State) (es : List FlatEntry) : State := { s with flat := s.flat ++ es }

/-- Steps 1 and 2 of a recompute: no flat mapping, every region inactive, `mwi` 0; and `S.built` is set
(42_mapping_manager.md R150, R151). -/
def State.cleared (s : State) : State := { s with flat := [], soft := emptyTables, mwi := 0, built := true }

/-- The assignments INIT and EXIT share: everything but `live` (47_lifecycle.md R260, R262). -/
def State.zeroed (s : State) : State :=
  { s with regs := zeroRegs, soft := emptyTables, mwi := 0, guard := false, hookR := false, hookW := false,
           flat := [], built := false }

/-- `S.live <- b` (10_state.md R32). -/
def State.setLive (s : State) (b : Bool) : State := { s with live := b }

/-! ### Lookups -/

/-- A flat mapping serves this kind at this address (20_memory.md R54, R55). -/
def serves (k : Kind) (a : Addr) (e : FlatEntry) : Bool := kindIn k e.kinds && inside a e.start e.stop

/-- `FlatLookup(kind, a)`: the last, most recently installed, entry that serves the access (20_memory.md R55). -/
def flatLookup (k : Kind) (a : Addr) (flat : List FlatEntry) : Option FlatEntry := flat.findRev? (serves k a)

/-- `HitPrimary(R, a)` (43_bus_router_read.md R176). -/
def hitPrimary (x : SoftRegion) (a : Addr) : Option Addr :=
  if x.start = 0 then none else if inside a x.start x.stop then some x.start else none

/-- `HitMirror(R, a)`: in table order, first match wins; empty entries skipped (43_bus_router_read.md R176). -/
def hitMirror (x : SoftRegion) (a : Addr) : Option Addr :=
  if x.start = 0 then none
  else (x.mir.toList.find? fun b => decide (b.start ≠ 0) && inside a b.start b.stop).map (·.start)

/-- Which of the two lookups a router tries. -/
inductive Part where
  | primary
  | mirror
deriving DecidableEq, Repr

/-- One lookup of one region. -/
def hitPart (x : SoftRegion) (a : Addr) : Part → Option Addr
  | .primary => hitPrimary x a
  | .mirror => hitMirror x a

/-! ### Register reads -/

/-- REGRD(o): the byte of a recognised offset, `none` otherwise; no state changes (45_register_commands.md R232). -/
def regRead (s : State) (o : RegOff) : Option Byte := (s.cfg.readView o).map fun v => viewValue v s.regs

end Sys2Proof.Machine
end

