-- ==== Sys2Proof/Machine/DeviceBridges.lean ====
section
/-! DEFINITION. The DeviceBridges: which bridge a hit goes to, the offset it is handed and the hook test
(spec/46_device_bridges.md R240 to R248). -/

namespace Sys2Proof.Machine

/-- The three regions a read can be dispatched to (43_bus_router_read.md R178). -/
inductive ReadPort where
  | io
  | math1
  | math2
deriving DecidableEq, Repr

/-- The region behind a read port. -/
def readPortRegion : ReadPort → SoftId
  | .io => .io
  | .math1 => .math1
  | .math2 => .math2

/-- IoReadDispatch: the read hook if one is installed, else the built-in decoder, whose event carries the
alternate-sound-chip flag (46_device_bridges.md R242, R243, R244). -/
def ioRead (a start : Addr) (n : Width) (s : State) : Datum × State :=
  if s.hookR = true then drawDatum n (.ioHookRead a (bridgeOffset a start) n) s
  else drawDatum n (.ioRead (bridgeOffset a start) n s.cfg.profile.altSound) s

/-- IoWriteDispatch (46_device_bridges.md R242, R243, R244). -/
def ioWrite (a start : Addr) (d : Datum) (s : State) : State :=
  if s.hookW = true then s.emit (.ioHookWrite a (bridgeOffset a start) d)
  else s.emit (.ioWrite (bridgeOffset a start) d s.cfg.profile.altSound)

/-- The read of a hit: IoReadDispatch or MathReadDispatch, which answers a word (46_device_bridges.md R242, R248). -/
def readDispatch (p : ReadPort) (a start : Addr) (n : Width) (s : State) : Datum × State :=
  match p with
  | .io => ioRead a start n s
  | .math1 => drawDatum .word (.mathRead .one (bridgeOffset a start)) s
  | .math2 => drawDatum .word (.mathRead .two (bridgeOffset a start)) s

/-- WriteDispatch (44_bus_router_write.md R205). -/
def writeDispatch (r : SoftId) (a start : Addr) (d : Datum) (s : State) : State :=
  match r with
  | .io => ioWrite a start d s
  | .tileRAM => s.emit (.tileWrite (bridgeOffset a start) d)
  | .bankLatch => s.emit (.bankWrite (bridgeOffset a start) d)
  | .soundBridge => s.emit (.soundWrite (bridgeOffset a start) d)
  | .math1 => s.emit (.mathWrite .one (bridgeOffset a start) d)
  | .math2 => s.emit (.mathWrite .two (bridgeOffset a start) d)

end Sys2Proof.Machine
end

