-- ==== Sys2Proof/Machine/MirrorExpander.lean ====
section
/-! DEFINITION. The MirrorExpander, EXPAND.I and EXPAND.R (spec/41_mirror_expander.md R135 to R146). -/

namespace Sys2Proof.Machine

/-- The positions of the set bits of `mask` in `lo .. lo + n - 1`, ascending (41_mirror_expander.md R136). -/
def setBits (mask : Addr) (lo n : Nat) : List Nat := (List.range' lo n).filter fun i => mask.getLsbD i

/-- The low group: set bits below 18 (41_mirror_expander.md R136). -/
def lowGroup (mask : Addr) : List Nat := setBits mask 0 18

/-- The high group: set bits 18 to 31 (41_mirror_expander.md R136). -/
def highGroup (mask : Addr) : List Nat := setBits mask 18 14

/-- Bit `j` of the counter selects the `j`-th position of the group (41_mirror_expander.md R137). -/
def depositBits : List Nat → Nat → Addr
  | [], _ => 0
  | p :: ps, c => (if c % 2 = 1 then 1#32 <<< p else 0) ||| depositBits ps (c / 2)

/-- `AliasOffset(hc, lc)` for every pair of counters, the high group's counter in the outer loop, the low group's in
the inner loop (41_mirror_expander.md R137; log 15). -/
def aliasOffsets (mask : Addr) : List Addr :=
  (List.range (2 ^ (highGroup mask).length)).flatMap fun hc =>
    (List.range (2 ^ (lowGroup mask).length)).map fun lc =>
      depositBits (highGroup mask) hc ||| depositBits (lowGroup mask) lc

/-- `Aliases(start, end, mirrorMask)` (41_mirror_expander.md R137). -/
def aliases (c : ComputedRegion) : List Bounds :=
  (aliasOffsets c.mirrorMask).map fun o => { start := c.start + o, stop := c.stop + o }

/-- EXPAND.I: a flat mapping at every alias, all of the same buffer; nothing for a zero mask
(41_mirror_expander.md R138, R140). -/
def expandInstalling (c : ComputedRegion) (backing : Backing) (kinds : Kinds) (s : State) : State :=
  if c.mirrorMask = 0 then s
  else s.addFlat ((aliases c).map fun b => { start := b.start, stop := b.stop, backing := backing, kinds := kinds })

/-- One alias of EXPAND.R: stored while the table has room, dropped silently otherwise (41_mirror_expander.md R139,
R141). -/
def recordAlias (r : SoftId) (s : State) (b : Bounds) : State :=
  if s.mwi < 32 then (s.setSoft r ((s.soft.get r).setMirror s.mwi b)).setMwi (s.mwi + 1) else s

/-- EXPAND.R (41_mirror_expander.md R139, R140). -/
def expandRecording (c : ComputedRegion) (r : SoftId) (s : State) : State :=
  if c.mirrorMask = 0 then s.setMwi 0 else (aliases c).foldl (recordAlias r) (s.setMwi 0)

/-- EXPAND.I as an operation (log 13). -/
def execExpandI (c : ComputedRegion) (backing : Backing) (kinds : Kinds) (s : State) : StepResult :=
  requireLive s (.next ((expandInstalling c backing kinds s).setQ .none))

/-- EXPAND.R as an operation (log 13). -/
def execExpandR (c : ComputedRegion) (r : SoftId) (s : State) : StepResult :=
  requireLive s (.next ((expandRecording c r s).setQ .none))

end Sys2Proof.Machine
end

