-- ==== Sys2Proof/Machine/RegionCalculator.lean ====
section
/-! DEFINITION. The RegionCalculator, COMPUTE (spec/40_region_calculator.md R120 to R131). -/

namespace Sys2Proof.Machine

/-- COMPUTE.RAW (40_region_calculator.md R120, R123, R124, R125): 32-bit arithmetic, `length - 1` wraps (R129). -/
def computeRaw (sizeByte baseByte : Byte) (length mirror offset : Addr) : ComputedRegion :=
  let mask := sizeMask sizeByte
  let start := regionBase baseByte mask + (offset &&& mask)
  { start := start, stop := start + minU (length - 1) mask, mirrorMask := mirror &&& mask }

/-- `regs[0x10 + 2*slot]` (30_encoding.md R81). -/
def sizeByteOf (regs : Vector Byte 32) (slot : Fin 8) : Byte := regs[16 + 2 * slot.val]

/-- `regs[0x11 + 2*slot]` (30_encoding.md R83). -/
def baseByteOf (regs : Vector Byte 32) (slot : Fin 8) : Byte := regs[17 + 2 * slot.val]

/-- COMPUTE: it reads the two bytes of the slot and nothing else of the state (40_region_calculator.md R120). -/
def computeSlot (regs : Vector Byte 32) (slot : Fin 8) (length mirror offset : Addr) : ComputedRegion :=
  computeRaw (sizeByteOf regs slot) (baseByteOf regs slot) length mirror offset

/-- COMPUTE as an operation: the region on `q`, nothing else written; a slot outside 0..7 is refused
(40_region_calculator.md R120; log 13, 18). -/
def execCompute (slot : Nat) (length mirror offset : Addr) (s : State) : StepResult :=
  requireLive s (if h : slot < 8 then .next (s.setQ (.region (computeSlot s.regs ⟨slot, h⟩ length mirror offset)))
    else .refused (.slotOutOfRange slot))

end Sys2Proof.Machine
end

