-- ==== Sys2Proof/Machine/MappingManager.lean ====
section
/-! DEFINITION. The MappingManager: RECOMPUTE and CFG (spec/42_mapping_manager.md R150 to R161), and the body of the chip
reset (spec/47_lifecycle.md R264), which REGWR.MODE shares with RST (R265). -/

namespace Sys2Proof.Machine

/-- APPLY (42_mapping_manager.md R152): the primary first, then the mirrors in the matching mode. -/
def applyRegion (act : SlotAction) (c : ComputedRegion) (s : State) : State :=
  match act with
  | .flat backing kinds _ _ _ =>
      expandInstalling c backing kinds
        (s.addFlat [{ start := c.start, stop := c.stop, backing := backing, kinds := kinds }])
  | .soft r _ _ _ => expandRecording c r (s.setSoft r ((s.soft.get r).setPrimary c.start c.stop))

/-- The ComputedRegion of one action of one slot (42_mapping_manager.md R150, step 3). -/
def actionRegion (regs : Vector Byte 32) (slot : Fin 8) : SlotAction → ComputedRegion
  | .flat _ _ length mirror offset => computeSlot regs slot length mirror offset
  | .soft _ length mirror offset => computeSlot regs slot length mirror offset

/-- One action of one slot. -/
def applyAction (slot : Fin 8) (s : State) (act : SlotAction) : State :=
  applyRegion act (actionRegion s.regs slot act) s

/-- The actions of one slot, in list order (42_mapping_manager.md R157). -/
def applySlot (t : SlotTable) (s : State) (slot : Fin 8) : State := (t[slot]).foldl (applyAction slot) s

/-- Slot 7 down to slot 0 (42_mapping_manager.md R157). -/
def slotOrder : List (Fin 8) := [7, 6, 5, 4, 3, 2, 1, 0]

/-- RECOMPUTE (42_mapping_manager.md R150): clear everything, then evaluate the slots under the profile; an
unsupported profile stops after the clearing (R153). -/
def recompute (s : State) : State :=
  match s.cfg.table with
  | none => s.cleared
  | some t => slotOrder.foldl (applySlot t) s.cleared

/-- RST-body (47_lifecycle.md R264): hooks kept, no event. -/
def rstBody (s : State) : State :=
  recompute ((if s.cfg.resetClearsRegs = true then s.setRegs zeroRegs else s).setGuard false)

/-- RECOMPUTE as an operation (log 13). -/
def execRecompute (s : State) : StepResult := requireLive s (.next ((recompute s).setQ .none))

/-- CFG (42_mapping_manager.md R160): sixteen bytes stored with no change test, one recompute, no event. -/
def execCfg (block : Block) (s : State) : StepResult :=
  requireLive s (.next ((recompute (s.setRegs (storeBlock block s.regs))).setQ .none))

end Sys2Proof.Machine
end

