-- ==== Sys2Proof/Machine/RegisterCommands.lean ====
section
/-! DEFINITION. The register commands REGWR.* and REGRD (spec/45_register_commands.md R215 to R234). A command stores its
byte first and has its side effect after (R215), with the byte the register held before. As an operation each requires
what the bus transactions that reach it require, a live block with a mapping built (spec/10_state.md R24,
spec/47_lifecycle.md R261, R263; log 2). -/

namespace Sys2Proof.Machine

/-- REGWR.DESC's effect: a recompute if and only if the byte changed (45_register_commands.md R218). -/
def descEffect (old v : Byte) (s : State) : State := if v = old then s else recompute s

/-- REGWR.MODE's effect: a machine reset request on the transition of the low two bits into 3, and the chip reset
after it if the parameter says so (45_register_commands.md R220, R221, 47_lifecycle.md R265). -/
def modeEffect (old v : Byte) (s : State) : State :=
  if old.extractLsb' 0 2 ≠ 3#2 ∧ v.extractLsb' 0 2 = 3#2 then
    if s.cfg.mresetImpliesRst = true then rstBody (requestMachineReset s) else requestMachineReset s
  else s

/-- The eight lines, ascending (45_register_commands.md R222). -/
def irqLines : List (BitVec 3) := [0, 1, 2, 3, 4, 5, 6, 7]

/-- The asserted line, `~v & 7` (45_register_commands.md R222). -/
def assertedLine (v : Byte) : BitVec 3 := ~~~(v.extractLsb' 0 3)

/-- REGWR.IRQ's effect: eight events in ascending line order unless the low three bits are 7
(45_register_commands.md R222). -/
def irqEffect (v : Byte) (s : State) : State :=
  if v.extractLsb' 0 3 = 7#3 then s
  else s.emits (irqLines.map fun l => .irq l (if l = assertedLine v then .assert else .deassert))

/-- REGWR.SNDLATCH's effect: forwarded unless the alternate sound chip is fitted (45_register_commands.md R224). -/
def sndlatchEffect (v : Byte) (s : State) : State :=
  if s.cfg.profile.altSound = true then s else s.emit (.soundLatch v)

/-- REGWR.DMA's effect: none, the pseudo-DMA is a stub (45_register_commands.md R228). -/
def dmaEffect (_ : Byte) (s : State) : State := s

/-- REGWR(o, v): store, then the side effect of the first matching command (45_register_commands.md R215). -/
def regWrite (o : RegOff) (v : Byte) (s : State) : State :=
  if o.getLsbD 4 = true then descEffect (s.reg o) v (s.setReg o v)
  else if o = s.cfg.regMode then modeEffect (s.reg o) v (s.setReg o v)
  else if o = s.cfg.regIrq then irqEffect v (s.setReg o v)
  else if o = s.cfg.regSndlatch then sndlatchEffect v (s.setReg o v)
  else if o = s.cfg.regDma then dmaEffect v (s.setReg o v)
  else s.setReg o v

/-- REGWR.DESC (45_register_commands.md R218). -/
def execRegwrDesc (j : BitVec 4) (v : Byte) (s : State) : StepResult :=
  requireBuilt s (.next ((descEffect (s.reg (descOffset j)) v (s.setReg (descOffset j) v)).setQ .none))

/-- REGWR.MODE (45_register_commands.md R220). -/
def execRegwrMode (v : Byte) (s : State) : StepResult :=
  requireBuilt s (.next ((modeEffect (s.reg s.cfg.regMode) v (s.setReg s.cfg.regMode v)).setQ .none))

/-- REGWR.IRQ (45_register_commands.md R222). -/
def execRegwrIrq (v : Byte) (s : State) : StepResult :=
  requireBuilt s (.next ((irqEffect v (s.setReg s.cfg.regIrq v)).setQ .none))

/-- REGWR.SNDLATCH (45_register_commands.md R224). -/
def execRegwrSndlatch (v : Byte) (s : State) : StepResult :=
  requireBuilt s (.next ((sndlatchEffect v (s.setReg s.cfg.regSndlatch v)).setQ .none))

/-- REGWR.DMA (45_register_commands.md R228). -/
def execRegwrDma (v : Byte) (s : State) : StepResult :=
  requireBuilt s (.next ((dmaEffect v (s.setReg s.cfg.regDma v)).setQ .none))

/-- REGWR.PLAIN: the byte is stored and nothing else happens (45_register_commands.md R230). -/
def execRegwrPlain (o : BitVec 4) (v : Byte) (s : State) : StepResult :=
  requireBuilt s (.next ((s.setReg (lowOffset o) v).setQ .none))

/-- REGRD: the view of the offset on `q`, no state changed (45_register_commands.md R232; log 13). -/
def execRegrd (o : RegOff) (s : State) : StepResult := requireBuilt s (.next (s.setQ (.view (regRead s o))))

end Sys2Proof.Machine
end

