-- ==== Sys2Proof/Machine/BusRouter.lean ====
section
/-! DEFINITION. The top-level resolution of an access (spec/20_memory.md R58), the BusRouter's reads
(spec/43_bus_router_read.md R175 to R188) and writes (spec/44_bus_router_write.md R200 to R209). -/

namespace Sys2Proof.Machine

/-! ### Reads -/

/-- The lookups of a read, in order: IO only for a byte; for a word the primaries of IO, Math1, Math2, then their
mirrors (43_bus_router_read.md R175, R178, R179). -/
def readProbes : Width → List (ReadPort × Part)
  | .byte => [(.io, .primary), (.io, .mirror)]
  | .word => [(.io, .primary), (.math1, .primary), (.math2, .primary), (.io, .mirror), (.math1, .mirror), (.math2, .mirror)]

/-- The first lookup of a read that hits: the port and the start of the range that matched. -/
def readHit (t : SoftTables) (n : Width) (a : Addr) : Option (ReadPort × Addr) :=
  (readProbes n).findSome? fun p => (hitPart (t.get (readPortRegion p.1)) a p.2).map fun st => (p.1, st)

/-- ReadMiss (43_bus_router_read.md R184): a recognised register; else 0xFF for a byte and open bus for a word. The
argument `ob` is the open-bus read. -/
def readMiss (ob : State → Datum × State) (a : Addr) (n : Width) (s : State) : Datum × State :=
  match n, regRead s (selectReg s.cfg.regSel a) with
  | .byte, some v => (.byte v, s)
  | .word, some v => (.word (s.cfg.regWordHi ++ v), s)
  | .byte, none => (.byte 0xFF, s)
  | .word, none => ob s

/-- Read8 and Read16 (43_bus_router_read.md R175, R178). -/
def routeRead (ob : State → Datum × State) (a : Addr) (n : Width) (s : State) : Datum × State :=
  match readHit s.soft n a with
  | some (p, start) => readDispatch p a start n s
  | none => readMiss ob a n s

/-- `Access(kind, a, n)` for the kinds R and F: a flat mapping first, else the BusRouter (20_memory.md R58). -/
def accessRead (ob : State → Datum × State) (k : Kind) (a : Addr) (n : Width) (s : State) : Datum × State :=
  match flatLookup k a s.flat with
  | some e => drawDatum n (.flatAccess k e.backing (a - e.start) n none) s
  | none => routeRead ob a n s

/-- OPENBUS entered while the guard is set: the all-ones sentinel, no second `PcQuery` (43_bus_router_read.md R185,
R187). -/
def reenteredOpenBus (s : State) : Datum × State := (.word 0xFFFF, s)

/-- OPENBUS (43_bus_router_read.md R186): the word at the CPU's program counter, by a nested read of kind R. The guard
is set throughout the nested read, so an open-bus read inside it is `reenteredOpenBus`. -/
def openBus (s : State) : Datum × State :=
  if s.guard = true then reenteredOpenBus s
  else
    let r := accessRead reenteredOpenBus .R s.answer .word ((s.setGuard true).drawn .pcQuery)
    (r.1, r.2.setGuard false)

/-- The datum of a read on the result port. -/
def readResult (r : Datum × State) : StepResult := .next (r.2.setQ (.data r.1))

/-- RDB (43_bus_router_read.md R175). -/
def execRdb (a : Addr) (s : State) : StepResult := requireBuilt s (readResult (accessRead openBus .R a .byte s))

/-- RDW (43_bus_router_read.md R178). -/
def execRdw (a : Addr) (s : State) : StepResult := requireBuilt s (readResult (accessRead openBus .R a .word s))

/-- FTW: a word read whose flat lookup uses kind F (43_bus_router_read.md R182). -/
def execFtw (a : Addr) (s : State) : StepResult := requireBuilt s (readResult (accessRead openBus .F a .word s))

/-- OPENBUS as an operation, which requires what RDW and FTW require (43_bus_router_read.md R186; log 13, 28). -/
def execOpenbus (s : State) : StepResult := requireBuilt s (readResult (openBus s))

/-! ### Writes -/

/-- The lookups of a write, in order: region by region, each region's primary and then its mirrors
(44_bus_router_write.md R204). -/
def writeProbes : List (SoftId × Part) :=
  [(.tileRAM, .primary), (.tileRAM, .mirror), (.io, .primary), (.io, .mirror), (.bankLatch, .primary), (.bankLatch, .mirror),
   (.soundBridge, .primary), (.soundBridge, .mirror), (.math1, .primary), (.math1, .mirror), (.math2, .primary),
   (.math2, .mirror)]

/-- The first lookup of a write that hits. -/
def writeHit (t : SoftTables) (a : Addr) : Option (SoftId × Addr) :=
  writeProbes.findSome? fun p => (hitPart (t.get p.1) a p.2).map fun st => (p.1, st)

/-- WriteRoute: exactly one bridge on the first hit, else a register write of the low byte (44_bus_router_write.md
R204, R205, R206). -/
def routeWrite (a : Addr) (d : Datum) (s : State) : State :=
  match writeHit s.soft a with
  | some (r, start) => writeDispatch r a start d s
  | none => regWrite (selectReg s.cfg.regSel a) (datumLow d) s

/-- `Access(W, a, n, d)` (20_memory.md R58). -/
def accessWrite (a : Addr) (d : Datum) (s : State) : State :=
  match flatLookup .W a s.flat with
  | some e => s.emit (.flatAccess .W e.backing (a - e.start) (datumWidth d) (some d))
  | none => routeWrite a d s

/-- WRB (44_bus_router_write.md R200). -/
def execWrb (a : Addr) (d : Byte) (s : State) : StepResult :=
  requireBuilt s (.next ((accessWrite a (.byte d) s).setQ .none))

/-- WRW (44_bus_router_write.md R203). -/
def execWrw (a : Addr) (d : Word) (s : State) : StepResult :=
  requireBuilt s (.next ((accessWrite a (.word d) s).setQ .none))

end Sys2Proof.Machine
end

