-- ==== Sys2Proof/Machine/Lifecycle.lean ====
section
/-! DEFINITION. The lifecycle and host operations INIT, EXIT, RST, SETHOOK, SAVE, RESTORE (spec/47_lifecycle.md R260 to
R275), and the reserved op codes of the bundle (spec/30_encoding.md R94). -/

namespace Sys2Proof.Machine

/-- INIT: no precondition on the state, no recompute, no event (47_lifecycle.md R260). -/
def execInit (s : State) : StepResult := requireConfig s (.next ((s.zeroed.setLive true).setQ .none))

/-- EXIT (47_lifecycle.md R262). -/
def execExit (s : State) : StepResult := requireLive s (.next ((s.zeroed.setLive false).setQ .none))

/-- RST (47_lifecycle.md R264). -/
def execRst (s : State) : StepResult := requireLive s (.next ((rstBody s).setQ .none))

/-- SETHOOK (47_lifecycle.md R267). -/
def execSethook (r w : Bool) (s : State) : StepResult := requireLive s (.next ((s.setHooks r w).setQ .none))

/-- SAVE (47_lifecycle.md R270): the snapshot on `q`, no state changed, no event. -/
def execSave (s : State) : StepResult := requireLive s (.next (s.setQ (.snapshot (packSnapshot s.regs s.mwi))))

/-- RESTORE (47_lifecycle.md R272): registers loaded without side effects, guard cleared, recompute, then the saved
index; an index above 32 is refused. -/
def execRestore (snap : Snapshot) (s : State) : StepResult :=
  requireLive s
    (if (snapshotIndex snap).toNat ≤ 32 then
      .next (((recompute ((s.setRegs (snapshotRegs snap)).setGuard false)).setMwi (snapshotIndex snap).toNat).setQ .none)
    else .refused (.snapshotIndex (snapshotIndex snap)))

/-- Op code 0x5: reserved, refused (30_encoding.md R94). -/
def execReserved5 (_ : State) : StepResult := .refused (.reservedOp 0x5)

/-- Op code 0x6: reserved, refused (30_encoding.md R94). -/
def execReserved6 (_ : State) : StepResult := .refused (.reservedOp 0x6)

/-- Op code 0x7: reserved, refused (30_encoding.md R94). -/
def execReserved7 (_ : State) : StepResult := .refused (.reservedOp 0x7)

/-- Op code 0xF: reserved, refused (30_encoding.md R94). -/
def execReservedF (_ : State) : StepResult := .refused (.reservedOp 0xF)

end Sys2Proof.Machine
end

