-- ==== Sys2Proof/Machine/Dispatch.lean ====
section
/-! DEFINITION. One arm per operation, each a direct call of its meaning. -/

namespace Sys2Proof.Machine

def exec (i : Instr) (s : State) : Host.Outcome State Fault Refusal :=
  match i with
  -- format T: bus transactions
  | .rdb a => Sys2Proof.Machine.execRdb a s
  | .rdw a => Sys2Proof.Machine.execRdw a s
  | .wrb a d => Sys2Proof.Machine.execWrb a d s
  | .wrw a d => Sys2Proof.Machine.execWrw a d s
  | .ftw a => Sys2Proof.Machine.execFtw a s
  -- reserved op codes
  | .reserved5 => Sys2Proof.Machine.execReserved5 s
  | .reserved6 => Sys2Proof.Machine.execReserved6 s
  | .reserved7 => Sys2Proof.Machine.execReserved7 s
  -- format T: host operations
  | .init => Sys2Proof.Machine.execInit s
  | .exit => Sys2Proof.Machine.execExit s
  | .rst => Sys2Proof.Machine.execRst s
  | .cfg block => Sys2Proof.Machine.execCfg block s
  | .sethook r w => Sys2Proof.Machine.execSethook r w s
  | .save => Sys2Proof.Machine.execSave s
  | .restore snap => Sys2Proof.Machine.execRestore snap s
  | .reservedF => Sys2Proof.Machine.execReservedF s
  -- format K: register commands
  | .regwrDesc j v => Sys2Proof.Machine.execRegwrDesc j v s
  | .regwrMode v => Sys2Proof.Machine.execRegwrMode v s
  | .regwrSndlatch v => Sys2Proof.Machine.execRegwrSndlatch v s
  | .regwrIrq v => Sys2Proof.Machine.execRegwrIrq v s
  | .regwrDma v => Sys2Proof.Machine.execRegwrDma v s
  | .regwrPlain o v => Sys2Proof.Machine.execRegwrPlain o v s
  -- format O
  | .regrd o => Sys2Proof.Machine.execRegrd o s
  -- internal procedures
  | .compute slot length mirror offset => Sys2Proof.Machine.execCompute slot length mirror offset s
  | .expandI c backing kinds => Sys2Proof.Machine.execExpandI c backing kinds s
  | .expandR c region => Sys2Proof.Machine.execExpandR c region s
  | .recompute => Sys2Proof.Machine.execRecompute s
  | .openbus => Sys2Proof.Machine.execOpenbus s

end Sys2Proof.Machine
end

