-- ==== Sys2Proof/Machine/Fetch.lean ====
section
/-! DEFINITION. How a stimulus reaches the block: the outside presents it, the next step takes it (spec/00_scope.md R8,
spec/30_encoding.md R90; log 1). -/

namespace Sys2Proof.Machine

/-- The outside presents a stimulus as the very next one. -/
def State.present (s : State) (st : Stimulus) : State := { s with pending := st :: s.pending }

/-- The stimulus that carries a table row's word is presented; a word no format has presents nothing. -/
def State.presentTableWord (s : State) (nbits w : Nat) : State :=
  match tableEncoded nbits w with
  | some e => s.present e.carrier
  | none => s

/-- The next stimulus and the state with it taken; `none` when nothing is presented. -/
def State.take (s : State) : Option (Stimulus × State) :=
  match s.pending with
  | [] => none
  | st :: rest => some (st, { s with pending := rest })

/-- What a step is when nothing is presented: no operation is performed and nothing changes (00_scope.md R8; log 1). -/
def idle (s : State) : StepResult := .next s

end Sys2Proof.Machine
end

