-- ==== Sys2Proof/Machine/Step.lean ====
section
/-! DEFINITION. One step: the next stimulus is taken, decoded and performed whole (spec/00_scope.md R8); with nothing presented the block is idle (log 1). -/

namespace Sys2Proof.Machine

/-- One step of the machine. -/
def step (s : State) : Host.Outcome State Fault Refusal :=
  match s.take with
  | some (st, s') => exec (decodeBundle st.bundle st.payload) s'
  | none => idle s

/-- The state with a table row's word presented as the next stimulus, a bundle with its payload port zero, a register
command or read by the bus transaction that reaches it (log 1, 2, 12). -/
def State.withFetchWord (s : State) (nbits w : Nat) : State := s.presentTableWord nbits w

end Sys2Proof.Machine
end

