-- ==== Sys2Proof/Machine/PseudoOps.lean ====
section
/-! DEFINITION. The pseudo-operations of the script notation and their expansions (spec/30_encoding.md R101), with the
register base they need. They are no rows of the table: each is bus transactions. -/

namespace Sys2Proof.Machine

/-- `REGW rb, o, v`. -/
def regw (rb : Addr) (o : RegOff) (v : Byte) : Instr := .wrb (registerAddress rb o) v

/-- `REGR rb, o`. -/
def regr (rb : Addr) (o : RegOff) : Instr := .rdb (registerAddress rb o)

/-- `SETSLOT rb, i, size, base`: two writes. -/
def setslot (rb : Addr) (i : BitVec 3) (size base : Byte) : List Instr :=
  [regw rb (descOffset (i ++ 0#1)) size, regw rb (descOffset (i ++ 1#1)) base]

/-- `IRQLEVEL rb, n`, n in 1..7. -/
def irqlevel (c : Config) (rb : Addr) (n : BitVec 3) : Instr := regw rb c.regIrq (0#5 ++ ~~~n)

/-- `MRESET rb`. -/
def mreset (c : Config) (rb : Addr) : Instr := regw rb c.regMode 0x03

/-- `rb` is a register base for the kind `k` in this state: `rb & 0x3F = 0`, and no address of `rb .. rb + 0x3F` is
covered by a flat mapping for the kind or by an active soft region or one of its mirrors (30_encoding.md R101). -/
def isRegisterBase (k : Kind) (rb : Addr) (s : State) : Bool :=
  decide (rb &&& 0x3F#32 = 0) &&
  (List.range 64).all fun i =>
    (flatLookup k (rb + BitVec.ofNat 32 i) s.flat).isNone && (writeHit s.soft (rb + BitVec.ofNat 32 i)).isNone

end Sys2Proof.Machine
end

