-- ==== Sys2Proof/Safety.lean ====
section
/-! DEFINITION. The terms the statements use: the lifecycle states (spec/47_lifecycle.md R263), when an operation is
accepted, the invariant between operations (spec/10_state.md R29, R35, R37, R38), runs of several operations, and what
the outside reads off the trace (spec/60_exceptions.md R284). -/

namespace Sys2Proof.Machine

/-- An accepted configuration and a live block. -/
abbrev State.Ready (s : State) : Prop := s.cfg.wf = true ∧ s.live = true

/-- Ready, with a mapping built: the state RUN of 47_lifecycle.md R263. -/
abbrev State.Routed (s : State) : Prop := s.cfg.wf = true ∧ s.live = true ∧ s.built = true

/-- The lifecycle states (47_lifecycle.md R263). -/
inductive Phase where
  | down
  | idle
  | run
deriving DecidableEq, Repr

/-- The lifecycle state of a machine state. -/
def State.phase (s : State) : Phase := if s.live = true then if s.built = true then .run else .idle else .down

/-- The invariant that holds between operations (10_state.md section 9). -/
structure State.Inv (s : State) : Prop where
  /-- "between operations it is always false" (10_state.md R29). -/
  guard : s.guard = false
  /-- `S.mwi` is in 0..32 (10_state.md R27). -/
  mwi : s.mwi ≤ 32
  /-- `end >= start` for every flat mapping (10_state.md R35). -/
  flatOrdered : ∀ e ∈ s.flat, e.start ≤ e.stop
  /-- `end >= start` for every primary and every mirror entry (10_state.md R35). -/
  softOrdered : ∀ r, (s.soft.get r).start ≤ (s.soft.get r).stop ∧ ∀ b ∈ (s.soft.get r).mir.toList, b.start ≤ b.stop
  /-- Once built, the tables and the flat list are what RECOMPUTE produces (10_state.md R38). -/
  rebuilt : s.built = true → s.soft = (recompute s).soft ∧ s.flat = (recompute s).flat
  /-- Before the first recompute there is no mapping (47_lifecycle.md R260, R261). -/
  unbuilt : s.built = false → s.soft = emptyTables ∧ s.flat = [] ∧ s.mwi = 0
  /-- In DOWN every field is at its "after EXIT" value (47_lifecycle.md R263). -/
  down : s.live = false → s.regs = zeroRegs ∧ s.hookR = false ∧ s.hookW = false ∧ s.built = false

/-- The event of a read that hits a region at the range starting at `st` (43_bus_router_read.md R175, R178,
46_device_bridges.md R242, R248); only IO, Math1 and Math2 are read. -/
def readEvent (s : State) (p : ReadPort) (a st : Addr) (n : Width) : Event :=
  match p with
  | .io => if s.hookR = true then .ioHookRead a ((a - st) >>> 1) n else .ioRead ((a - st) >>> 1) n s.cfg.profile.altSound
  | .math1 => .mathRead .one ((a - st) >>> 1)
  | .math2 => .mathRead .two ((a - st) >>> 1)

/-- The event of a write that hits a region (the table of 44_bus_router_write.md R205). -/
def writeEvent (s : State) (r : SoftId) (a st : Addr) (d : Datum) : Event :=
  match r with
  | .tileRAM => .tileWrite ((a - st) >>> 1) d
  | .io => if s.hookW = true then .ioHookWrite a ((a - st) >>> 1) d else .ioWrite ((a - st) >>> 1) d s.cfg.profile.altSound
  | .bankLatch => .bankWrite ((a - st) >>> 1) d
  | .soundBridge => .soundWrite ((a - st) >>> 1) d
  | .math1 => .mathWrite .one ((a - st) >>> 1) d
  | .math2 => .mathWrite .two ((a - st) >>> 1) d

/-- A region's two lookups, the primary first (44_bus_router_write.md R204). -/
def hitRegion (x : SoftRegion) (a : Addr) : Option Addr := (hitPrimary x a).or (hitMirror x a)

/-- How many machine resets a list of register writes requests, from the mode register's low two bits: one for each
transition into 3 (45_register_commands.md R220). -/
def resetsRequested (c : Config) : BitVec 2 → List (RegOff × Byte) → Nat
  | _, [] => 0
  | m, w :: ws =>
    if w.1 = c.regMode then
      (if m ≠ 3#2 ∧ w.2.extractLsb' 0 2 = 3#2 then 1 else 0) + resetsRequested c (w.2.extractLsb' 0 2) ws
    else resetsRequested c m ws

/-- The window size of a size class: the size mask and one (40_region_calculator.md R121). -/
def windowSize (sizeByte : Byte) : Nat :=
  if sizeByte.toNat % 4 = 0 then 0x10000 else if sizeByte.toNat % 4 = 1 then 0x20000
  else if sizeByte.toNat % 4 = 2 then 0x80000 else 0x200000

/-- The OR of the five lowest set bits of a mask. -/
def fiveLowest (mask : Addr) : Addr := ((setBits mask 0 32).take 5).foldl (fun x p => x ||| (1#32 <<< p)) 0

/-- How many aliases one recording stores (41_mirror_expander.md R139 to R141). -/
def storedCount (c : ComputedRegion) : Nat := if c.mirrorMask = 0 then 0 else min 32 (aliases c).length

/-- Several operations one after the other, stopping at the first that gives no next state. -/
def execAll : List Instr → State → StepResult
  | [], s => .next s
  | i :: is, s =>
    match exec i s with
    | .next t => execAll is t
    | .fault f => .fault f
    | .refused r => .refused r

/-- The level of an interrupt line as the trace leaves it: the last `Irq` event for it (60_exceptions.md R284). -/
def lineLevel (line : BitVec 3) : List Event → Option Level
  | [] => none
  | e :: es =>
    match lineLevel line es, e with
    | some l, _ => some l
    | none, .irq l' level => if l' = line then some level else none
    | none, _ => none

end Sys2Proof.Machine
end

