-- ==== Sys2Proof/Certificates/Slice0/Obligations.lean ====
section
/-! DEFINITION. The statements for the provers: from the numbered rules of spec/, family by family. -/

open Sys2Proof Sys2Proof.Machine

/-! ### Reset and lifecycle -/

/-- The model starts with every field of the spec's record at its "after EXIT" value (10_state.md R37, 47_lifecycle.md
R263). -/
def Obligations.ResetHoldsAfterExitValues : Prop :=
  State.reset.phase = .down ∧ (∀ o, State.reset.reg o = 0x00) ∧
  (∀ r, (State.reset.soft.get r).start = 0 ∧ (State.reset.soft.get r).stop = 0 ∧
    ∀ b ∈ (State.reset.soft.get r).mir.toList, b = ⟨0, 0⟩) ∧
  State.reset.mwi = 0 ∧ State.reset.guard = false ∧ State.reset.hookR = false ∧ State.reset.hookW = false ∧
  State.reset.flat = [] ∧ State.reset.live = false ∧ State.reset.built = false

/-- The lifecycle state machine (47_lifecycle.md R263): the start, which operations each state accepts (bus transactions,
host operations, and the register commands and reads only a bus transaction reaches), and which state each leads to. The
one refusal an accepted operation keeps, RESTORE with an index above 32, is set aside. -/
def Obligations.LifecycleStateMachine : Prop :=
  (State.reset.phase = .down ∧
    ∀ s t, exec .exit s = .next t →
      t.regs = State.reset.regs ∧ t.soft = State.reset.soft ∧ t.mwi = State.reset.mwi ∧ t.guard = State.reset.guard ∧
      t.hookR = State.reset.hookR ∧ t.hookW = State.reset.hookW ∧ t.flat = State.reset.flat ∧
      t.live = State.reset.live ∧ t.built = State.reset.built) ∧
  ∀ s i, s.cfg.wf = true → (i.opClass = .bus ∨ i.opClass = .host ∨ i.opClass = .register) →
    (∀ p : Snapshot, i = .restore p → (p[32]).toNat ≤ 32) →
    ((∃ t, exec i s = .next t) ↔
      match s.phase with
      | .down => i = .init
      | .idle => i.opClass = .host
      | .run => True) ∧
    ∀ t, exec i s = .next t →
      t.phase = match i with
        | .init => .idle
        | .exit => .down
        | .rst => .run
        | .cfg _ => .run
        | .restore _ => .run
        | _ => s.phase

/-- INIT from any state (47_lifecycle.md R260). -/
def Obligations.InitFromAnyState : Prop :=
  ∀ s : State, s.cfg.wf = true →
    exec .init s = .next { s with
      regs := Vector.replicate 32 0x00, soft := emptyTables, mwi := 0, guard := false, hookR := false, hookW := false,
      flat := [], built := false, live := true, q := .none }

/-- EXIT zeroes everything, and after it every operation except INIT is refused (47_lifecycle.md R262). -/
def Obligations.ExitTearsDown : Prop :=
  (∀ s : State, s.Ready →
    exec .exit s = .next { s with
      regs := Vector.replicate 32 0x00, soft := emptyTables, mwi := 0, guard := false, hookR := false, hookW := false,
      flat := [], built := false, live := false, q := .none }) ∧
  (∀ s t i, exec .exit s = .next t → i ≠ .init → ∃ r, exec i t = .refused r) ∧
  (∀ s : State, s.cfg.wf = true → s.live = false → exec .exit s = .refused .notLive)

/-- RST (47_lifecycle.md R264): the registers cleared if the parameter says so, the guard cleared, then a recompute;
hooks and trace unchanged. -/
def Obligations.RstClearsAndRebuilds : Prop :=
  (∀ s : State, s.Ready →
    exec .rst s = exec .recompute { s with
      regs := if s.cfg.resetClearsRegs = true then Vector.replicate 32 0x00 else s.regs, guard := false } ∧
    ∃ t, exec .rst s = .next t ∧
      t = { s with
        regs := if s.cfg.resetClearsRegs = true then Vector.replicate 32 0x00 else s.regs, guard := false,
        soft := t.soft, mwi := t.mwi, flat := t.flat, built := true, q := .none }) ∧
  (∀ s : State, s.cfg.wf = true → s.live = false → exec .rst s = .refused .notLive)

/-- CFG (42_mapping_manager.md R160): byte `j` of the block in register `0x10 + j`, the low registers untouched, one
recompute whether or not a byte changed, no event. -/
def Obligations.CfgStoresBlockAndRebuilds : Prop :=
  (∀ (s : State) (block : Block), s.Ready → ∃ t, exec (.cfg block) s = .next t ∧
    (∀ j : Fin 16, t.reg (BitVec.ofNat 5 (16 + j.val)) = block[j]) ∧
    (∀ o : RegOff, o < 0x10#5 → t.reg o = s.reg o) ∧
    exec (.cfg block) s = exec .recompute { s with regs := t.regs } ∧
    t = { s with regs := t.regs, soft := t.soft, mwi := t.mwi, flat := t.flat, built := true, q := .none }) ∧
  (∀ (s : State) (block : Block), s.cfg.wf = true → s.live = false → exec (.cfg block) s = .refused .notLive)

/-- SETHOOK sets both slots and nothing else (47_lifecycle.md R267). -/
def Obligations.SethookSetsBothSlots : Prop :=
  (∀ (s : State) (r w : Bool), s.Ready →
    exec (.sethook r w) s = .next { s with hookR := r, hookW := w, q := .none }) ∧
  (∀ (s : State) (r w : Bool), s.cfg.wf = true → s.live = false → exec (.sethook r w) s = .refused .notLive)

/-- SAVE returns the registers and the write index, and changes nothing else (47_lifecycle.md R270). -/
def Obligations.SaveReturnsSnapshot : Prop :=
  (∀ s : State, s.Ready → ∃ p : Snapshot,
    exec .save s = .next { s with q := .snapshot p } ∧
    (∀ j : Fin 32, p[j.val] = s.reg (BitVec.ofNat 5 j.val)) ∧ p[32] = BitVec.ofNat 8 s.mwi) ∧
  (∀ s : State, s.cfg.wf = true → s.live = false → exec .save s = .refused .notLive)

/-- RESTORE (47_lifecycle.md R272): registers loaded without side effects, the guard cleared, a recompute, then the saved
index; an index above 32 is refused. -/
def Obligations.RestoreLoadsAndRebuilds : Prop :=
  (∀ (s : State) (p : Snapshot), s.Ready → (p[32]).toNat ≤ 32 → ∃ t u, exec (.restore p) s = .next t ∧
    (∀ j : Fin 32, t.reg (BitVec.ofNat 5 j.val) = p[j.val]) ∧ t.mwi = (p[32]).toNat ∧
    exec .recompute { s with regs := t.regs, guard := false } = .next u ∧ t = { u with mwi := t.mwi } ∧
    t = { s with regs := t.regs, guard := false, soft := t.soft, mwi := t.mwi, flat := t.flat, built := true, q := .none }) ∧
  (∀ (s : State) (p : Snapshot), s.Ready → 32 < (p[32]).toNat → exec (.restore p) s = .refused (.snapshotIndex p[32])) ∧
  (∀ (s : State) (p : Snapshot), s.cfg.wf = true → s.live = false → exec (.restore p) s = .refused .notLive)

/-- RESTORE of what SAVE returned leaves registers, tables, flat mappings and write index unchanged (47_lifecycle.md
R273), in every state that meets the invariant. -/
def Obligations.SaveRestoreRoundTrip : Prop :=
  ∀ s : State, s.Inv → s.Routed → ∃ u p t, exec .save s = .next u ∧ u.q = .snapshot p ∧ exec (.restore p) u = .next t ∧
    t.regs = s.regs ∧ t.soft = s.soft ∧ t.flat = s.flat ∧ t.mwi = s.mwi ∧ t.guard = false

/-- No host operation emits an event or draws an oracle (47_lifecycle.md R275). -/
def Obligations.HostOperationsAreSilent : Prop :=
  ∀ i s t, i.opClass = .host → exec i s = .next t → t.out = s.out ∧ t.answers = s.answers ∧ t.draws = s.draws

/-- The complete list of refused stimuli (60_exceptions.md R296): the operation of a command bundle is refused exactly in
these cases, and answers a next state in every other. -/
def Obligations.RefusedExactlyAsListed : Prop :=
  ∀ (s : State) (t : BitVec 52) (p : Snapshot),
    ((∃ r, exec (decodeBundle t p) s = .refused r) ↔
      (decodeBundle t p ≠ .init ∧ s.live = false) ∨
      ((decodeBundle t p).opClass = .bus ∧ s.built = false) ∨
      (decodeBundle t p).opClass = .reserved ∨
      (∃ snap : Snapshot, decodeBundle t p = .restore snap ∧ 32 < (snap[32]).toNat) ∨
      s.cfg.wf = false) ∧
    ((∃ r, exec (decodeBundle t p) s = .refused r) ∨ ∃ u, exec (decodeBundle t p) s = .next u)

/-! ### The RegionCalculator -/

/-- COMPUTE in exact arithmetic (40_region_calculator.md R120 to R125): it reads the two bytes of its slot, writes
nothing, and a slot outside 0..7 is refused. That COMPUTE is an operation of its own is the model's (log 13). -/
def Obligations.ComputeReadsSlotAndGivesRegion : Prop :=
  (∀ (s : State) (slot : Nat) (length mirror offset : Addr), s.Ready → slot < 8 → ∃ c : ComputedRegion,
    exec (.compute slot length mirror offset) s = .next { s with q := .region c } ∧
    c.start.toNat =
      (s.reg (BitVec.ofNat 5 (17 + 2 * slot))).toNat * 0x10000 / windowSize (s.reg (BitVec.ofNat 5 (16 + 2 * slot))) *
        windowSize (s.reg (BitVec.ofNat 5 (16 + 2 * slot))) +
      offset.toNat % windowSize (s.reg (BitVec.ofNat 5 (16 + 2 * slot))) ∧
    c.stop.toNat =
      c.start.toNat + min ((length.toNat + 0xFFFFFFFF) % 0x100000000)
        (windowSize (s.reg (BitVec.ofNat 5 (16 + 2 * slot))) - 1) ∧
    c.mirrorMask.toNat = mirror.toNat % windowSize (s.reg (BitVec.ofNat 5 (16 + 2 * slot)))) ∧
  (∀ (s : State) (slot : Nat) (length mirror offset : Addr), s.Ready → 8 ≤ slot →
    exec (.compute slot length mirror offset) s = .refused (.slotOutOfRange slot))

/-- The bounds of COMPUTE (40_region_calculator.md R127): no addition wraps, and the end is not below the start. -/
def Obligations.ComputeBoundsNeverWrap : Prop :=
  ∀ (sizeByte baseByte : Byte) (length mirror offset : Addr),
    (regionBase baseByte (sizeMask sizeByte)).toNat + (sizeMask sizeByte).toNat ≤ 0xFFFFFF ∧
    (computeRaw sizeByte baseByte length mirror offset).start.toNat ≤ 0xFFFFFF ∧
    (computeRaw sizeByte baseByte length mirror offset).start.toNat ≤
      (computeRaw sizeByte baseByte length mirror offset).stop.toNat ∧
    (computeRaw sizeByte baseByte length mirror offset).stop.toNat ≤
      (computeRaw sizeByte baseByte length mirror offset).start.toNat + (sizeMask sizeByte).toNat ∧
    (computeRaw sizeByte baseByte length mirror offset).start.toNat + (sizeMask sizeByte).toNat ≤ 0x11FFFFE ∧
    (computeRaw sizeByte baseByte length mirror offset).start.toNat =
      (regionBase baseByte (sizeMask sizeByte)).toNat + (offset &&& sizeMask sizeByte).toNat ∧
    (computeRaw sizeByte baseByte length mirror offset).stop.toNat =
      (computeRaw sizeByte baseByte length mirror offset).start.toNat + (minU (length - 1) (sizeMask sizeByte)).toNat

/-! ### The MirrorExpander -/

/-- The alias sequence is the parallel bit deposit of 0, 1, 2, ... into the set bits of the mask, added to both bounds;
the first is the primary (41_mirror_expander.md R137). -/
def Obligations.AliasesAreBitDeposits : Prop :=
  ∀ c : ComputedRegion,
    aliases c = (List.range (2 ^ (setBits c.mirrorMask 0 32).length)).map (fun n =>
      { start := c.start + depositBits (setBits c.mirrorMask 0 32) n,
        stop := c.stop + depositBits (setBits c.mirrorMask 0 32) n }) ∧
    (aliases c)[0]? = some { start := c.start, stop := c.stop }

/-- Exactly 2^(k+m) alias bounds, all distinct, and they are the primary bounds moved by the subsets of the mirror bits
(41_mirror_expander.md R142). -/
def Obligations.AliasesAreAllSubsets : Prop :=
  ∀ c : ComputedRegion,
    (aliases c).length = 2 ^ ((lowGroup c.mirrorMask).length + (highGroup c.mirrorMask).length) ∧
    (aliases c).Nodup ∧
    ∀ b, b ∈ aliases c ↔ ∃ o, o &&& ~~~c.mirrorMask = 0 ∧ b = { start := c.start + o, stop := c.stop + o }

/-- No alias of a computed region wraps (41_mirror_expander.md R143). -/
def Obligations.AliasesNeverWrap : Prop :=
  ∀ (sizeByte baseByte : Byte) (length mirror offset : Addr) (o : Addr),
    o ∈ aliasOffsets (computeRaw sizeByte baseByte length mirror offset).mirrorMask →
    o ≤ (computeRaw sizeByte baseByte length mirror offset).mirrorMask ∧
    (computeRaw sizeByte baseByte length mirror offset).mirrorMask ≤ sizeMask sizeByte ∧
    ((computeRaw sizeByte baseByte length mirror offset).start + o).toNat =
      (computeRaw sizeByte baseByte length mirror offset).start.toNat + o.toNat ∧
    ((computeRaw sizeByte baseByte length mirror offset).stop + o).toNat =
      (computeRaw sizeByte baseByte length mirror offset).stop.toNat + o.toNat ∧
    ((computeRaw sizeByte baseByte length mirror offset).stop + o).toNat ≤ 0x13FFFFD ∧
    (computeRaw sizeByte baseByte length mirror offset).start + o ≤
      (computeRaw sizeByte baseByte length mirror offset).stop + o ∧
    ((computeRaw sizeByte baseByte length mirror offset).start + o = 0 →
      (computeRaw sizeByte baseByte length mirror offset).start = 0 ∧ o = 0)

/-- EXPAND.I appends, in the order of the alias sequence, one flat mapping of the same buffer and kinds per alias, and
nothing for a zero mask (41_mirror_expander.md R138); so an address is covered for a kind of the set exactly when some
subset of the mirror bits carries the primary over it. That EXPAND.I is an operation of its own is the model's (log 13). -/
def Obligations.ExpandICoversEveryAlias : Prop :=
  ∀ (s : State) (c : ComputedRegion) (backing : Backing) (kinds : Kinds), s.Ready → ∃ l : List FlatEntry,
    exec (.expandI c backing kinds) s = .next { s with flat := s.flat ++ l, q := .none } ∧
    l = (if c.mirrorMask = 0 then [] else (aliases c).map fun b =>
      { start := b.start, stop := b.stop, backing := backing, kinds := kinds }) ∧
    ∀ k a, (∃ e ∈ l, serves k a e = true) ↔
      kindIn k kinds = true ∧ c.mirrorMask ≠ 0 ∧
        ∃ o, o &&& ~~~c.mirrorMask = 0 ∧ c.start + o ≤ a ∧ a ≤ c.stop + o

/-- EXPAND.R stores the first 32 aliases in order, counts them in `mwi`, drops the rest, and writes nothing else
(41_mirror_expander.md R139, R140, R141, R144). That EXPAND.R is an operation of its own is the model's (log 13). -/
def Obligations.ExpandRRecordsFirst32 : Prop :=
  ∀ (s : State) (c : ComputedRegion) (r : SoftId), s.Ready → ∃ t, exec (.expandR c r) s = .next t ∧
    t.mwi = (if c.mirrorMask = 0 then 0 else min 32 (aliases c).length) ∧
    (∀ i : Fin 32, (t.soft.get r).mir[i] = if i.val < t.mwi then (aliases c).getD i.val ⟨0, 0⟩ else (s.soft.get r).mir[i]) ∧
    (c.mirrorMask ≠ 0 → (t.soft.get r).mir[0] = ⟨c.start, c.stop⟩) ∧
    (t.soft.get r).start = (s.soft.get r).start ∧ (t.soft.get r).stop = (s.soft.get r).stop ∧
    (∀ r', r' ≠ r → t.soft.get r' = s.soft.get r') ∧
    t = { s with soft := t.soft, mwi := t.mwi, q := .none }

/-- Of an overfull expansion the entries stored are exactly the aliases whose offset is a subset of the five lowest set
bits (41_mirror_expander.md R145). That EXPAND.R is an operation of its own is the model's (log 13). -/
def Obligations.OverfullExpansionKeepsFiveLowestBits : Prop :=
  ∀ (s t : State) (c : ComputedRegion) (r : SoftId), 6 ≤ (setBits c.mirrorMask 0 32).length →
    exec (.expandR c r) s = .next t →
    ∀ o, (∃ i : Fin 32, (t.soft.get r).mir[i] = ⟨c.start + o, c.stop + o⟩) ↔ o &&& ~~~fiveLowest c.mirrorMask = 0

/-! ### The MappingManager -/

/-- RECOMPUTE completes, writes the mapping only, and a second one changes nothing (42_mapping_manager.md R150, R159).
That RECOMPUTE is an operation of its own, here and in the statements below, is the model's (log 13): nothing outside the
block can issue it (30_encoding.md R80). -/
def Obligations.RecomputeIsIdempotent : Prop :=
  ∀ s : State, s.Ready → ∃ t, exec .recompute s = .next t ∧ exec .recompute t = .next t ∧
    t = { s with soft := t.soft, mwi := t.mwi, flat := t.flat, built := true, q := .none }

/-- What RECOMPUTE produces depends on the descriptor bytes 0x10..0x1F and the slot table of the profile alone, whatever
else of the states and the parameters differs (42_mapping_manager.md R150, 10_state.md R38). -/
def Obligations.MapDependsOnDescriptorsAlone : Prop :=
  ∀ s s' t t', s.cfg.table = s'.cfg.table → (∀ o : RegOff, 0x10#5 ≤ o → s.reg o = s'.reg o) →
    exec .recompute s = .next t → exec .recompute s' = .next t' →
    t.soft = t'.soft ∧ t.flat = t'.flat ∧ t.mwi = t'.mwi ∧ t.built = t'.built

/-- An unsupported profile activates no slot, and then every access falls through to the register file or the open bus
(42_mapping_manager.md R153). -/
def Obligations.UnsupportedProfileMapsNothing : Prop :=
  ∀ s : State, s.Ready → s.cfg.table = none → ∃ t, exec .recompute s = .next t ∧
    t.flat = [] ∧ (∀ r, t.soft.get r = emptyRegion) ∧ t.mwi = 0 ∧ t.built = true ∧
    ∀ a d w,
      exec (.rdb a) t = .next { t with q := .data (.byte ((regRead t (selectReg t.cfg.regSel a)).getD 0xFF)) } ∧
      (∀ v, regRead t (selectReg t.cfg.regSel a) = some v →
        exec (.rdw a) t = .next { t with q := .data (.word (t.cfg.regWordHi ++ v)) } ∧
        exec (.ftw a) t = .next { t with q := .data (.word (t.cfg.regWordHi ++ v)) }) ∧
      (regRead t (selectReg t.cfg.regSel a) = none →
        exec (.rdw a) t = exec .openbus t ∧ exec (.ftw a) t = exec .openbus t) ∧
      exec (.wrb a d) t = exec (decodeKey t.cfg (packKey (selectReg t.cfg.regSel a) d)) t ∧
      exec (.wrw a w) t = exec (decodeKey t.cfg (packKey (selectReg t.cfg.regSel a) (w.extractLsb' 0 8))) t

/-- Every Soft action fills its region: the primary from COMPUTE, the mirror table from the aliases, 32 at most; a region
no action names is inactive and empty (42_mapping_manager.md R150, R151, R152). -/
def Obligations.RecomputeFillsSoftRegions : Prop :=
  ∀ (s : State) (tbl : SlotTable), s.Ready → s.cfg.table = some tbl → ∃ t, exec .recompute s = .next t ∧
    (∀ r (i : Fin 8) length mirror offset, SlotAction.soft r length mirror offset ∈ tbl[i] →
      t.soft.get r =
        { start := (computeSlot s.regs i length mirror offset).start,
          stop := (computeSlot s.regs i length mirror offset).stop,
          mir := Vector.ofFn fun n : Fin 32 =>
            if (computeSlot s.regs i length mirror offset).mirrorMask = 0 then ⟨0, 0⟩
            else (aliases (computeSlot s.regs i length mirror offset)).getD n.val ⟨0, 0⟩ }) ∧
    (∀ r, (∀ i : Fin 8, ∀ act ∈ tbl[i], targets r act = false) → t.soft.get r = emptyRegion)

/-- Every Flat action installs its primary and then its aliases, slot 7 down to slot 0 and in list order within a slot
(42_mapping_manager.md R150, R152, R157). -/
def Obligations.RecomputeInstallsFlatMappings : Prop :=
  ∀ (s : State) (tbl : SlotTable), s.Ready → s.cfg.table = some tbl → ∃ t, exec .recompute s = .next t ∧
    t.flat = [(7 : Fin 8), 6, 5, 4, 3, 2, 1, 0].flatMap fun i => (tbl[i]).flatMap fun act =>
      match act with
      | .flat backing kinds length mirror offset =>
        { start := (computeSlot s.regs i length mirror offset).start,
          stop := (computeSlot s.regs i length mirror offset).stop, backing := backing, kinds := kinds } ::
        (if (computeSlot s.regs i length mirror offset).mirrorMask = 0 then []
         else (aliases (computeSlot s.regs i length mirror offset)).map fun b =>
           { start := b.start, stop := b.stop, backing := backing, kinds := kinds })
      | .soft _ _ _ _ => []

/-- Where the window of a slot's Flat action covers an address, the mapping observable there comes from that slot or a
lower-indexed one (42_mapping_manager.md R157). -/
def Obligations.LowerSlotWinsOverlap : Prop :=
  ∀ (s : State) (tbl : SlotTable) (i : Fin 8) (backing : Backing) (kinds : Kinds) (length mirror offset a : Addr) (k : Kind),
    s.Ready → s.cfg.table = some tbl → SlotAction.flat backing kinds length mirror offset ∈ tbl[i] →
    kindIn k kinds = true →
    (computeSlot s.regs i length mirror offset).start ≤ a → a ≤ (computeSlot s.regs i length mirror offset).stop →
    ∃ t e, exec .recompute s = .next t ∧ flatLookup k a t.flat = some e ∧
      ∃ (j : Fin 8) (backing' : Backing) (kinds' : Kinds) (length' mirror' offset' : Addr), j ≤ i ∧
        SlotAction.flat backing' kinds' length' mirror' offset' ∈ tbl[j] ∧
        e.backing = backing' ∧ e.kinds = kinds' ∧
        ∃ o, o &&& ~~~(computeSlot s.regs j length' mirror' offset').mirrorMask = 0 ∧
          e.start = (computeSlot s.regs j length' mirror' offset').start + o ∧
          e.stop = (computeSlot s.regs j length' mirror' offset').stop + o

/-- After a recompute the write index is the number of entries the last recording stored (10_state.md R27). -/
def Obligations.WriteIndexCountsLastRecording : Prop :=
  ∀ (s : State) (tbl : SlotTable), s.Ready → s.cfg.table = some tbl → ∃ t, exec .recompute s = .next t ∧
    t.mwi = ((([(7 : Fin 8), 6, 5, 4, 3, 2, 1, 0].flatMap fun i => (tbl[i]).filterMap fun act =>
      match act with
      | .flat _ _ _ _ _ => none
      | .soft _ length mirror offset => some (storedCount (computeSlot s.regs i length mirror offset))).getLast?).getD 0)

/-! ### Routing -/

/-- FlatLookup answers the most recently installed entry that serves the access (20_memory.md R55). -/
def Obligations.FlatLookupIsLastInstalled : Prop :=
  ∀ (k : Kind) (a : Addr) (l : List FlatEntry),
    (∀ e, flatLookup k a l = some e ↔
      ∃ before after, l = before ++ e :: after ∧ serves k a e = true ∧ ∀ x ∈ after, serves k a x = false) ∧
    (flatLookup k a l = none ↔ ∀ x ∈ l, serves k a x = false)

/-- The lookups of a soft region (43_bus_router_read.md R176, 10_state.md R26): an inactive region matches nothing, its
mirrors included; both ends are inclusive and compared over all 32 bits; an empty mirror entry is skipped; of the mirror
entries the first that matches wins, and its own start is answered. -/
def Obligations.SoftLookupsSkipInactiveAndTakeFirst : Prop :=
  ∀ (x : SoftRegion) (a : Addr),
    (x.start = 0 → hitPrimary x a = none ∧ hitMirror x a = none) ∧
    (∀ st, hitPrimary x a = some st ↔
      x.start ≠ 0 ∧ st = x.start ∧ x.start.toNat ≤ a.toNat ∧ a.toNat ≤ x.stop.toNat) ∧
    (∀ st, hitMirror x a = some st ↔
      x.start ≠ 0 ∧ ∃ i : Fin 32, st = x.mir[i].start ∧
        (x.mir[i].start ≠ 0 ∧ x.mir[i].start.toNat ≤ a.toNat ∧ a.toNat ≤ x.mir[i].stop.toNat) ∧
        ∀ j : Fin 32, j < i →
          ¬(x.mir[j].start ≠ 0 ∧ x.mir[j].start.toNat ≤ a.toNat ∧ a.toNat ≤ x.mir[j].stop.toNat))

/-- An access a flat mapping serves never reaches the BusRouter: the event names the buffer and the byte offset, a
read's datum is the oracle's answer, a write's is handed over (20_memory.md R56, R58, R60). That the answer is the next
of a list, cut to the width asked for, is the model's form of a draw (log 8, 10). -/
def Obligations.FlatMappingServesAccess : Prop :=
  ∀ (s : State) (a : Addr) (e : FlatEntry), s.Routed →
    (flatLookup .R a s.flat = some e →
      exec (.rdb a) s = .next { s with
        out := s.out ++ [.flatAccess .R e.backing (a - e.start) .byte none], answers := s.answers.tail,
        draws := s.draws + 1, q := .data (.byte (s.answer.setWidth 8)) } ∧
      exec (.rdw a) s = .next { s with
        out := s.out ++ [.flatAccess .R e.backing (a - e.start) .word none], answers := s.answers.tail,
        draws := s.draws + 1, q := .data (.word (s.answer.setWidth 16)) }) ∧
    (flatLookup .F a s.flat = some e →
      exec (.ftw a) s = .next { s with
        out := s.out ++ [.flatAccess .F e.backing (a - e.start) .word none], answers := s.answers.tail,
        draws := s.draws + 1, q := .data (.word (s.answer.setWidth 16)) }) ∧
    (flatLookup .W a s.flat = some e → ∀ d w,
      exec (.wrb a d) s = .next { s with
        out := s.out ++ [.flatAccess .W e.backing (a - e.start) .byte (some (.byte d))], q := .none } ∧
      exec (.wrw a w) s = .next { s with
        out := s.out ++ [.flatAccess .W e.backing (a - e.start) .word (some (.word w))], q := .none })

/-- A byte read no flat mapping serves: the IO region, primary then mirrors; else a recognised register; else 0xFF
(43_bus_router_read.md R175, R184; the form of the draw is the model's, log 8, 10). -/
def Obligations.ByteReadRoutes : Prop :=
  ∀ (s : State) (a : Addr), s.Routed → flatLookup .R a s.flat = none →
    (∀ st, hitRegion s.soft.io a = some st →
      exec (.rdb a) s = .next { s with
        out := s.out ++ [readEvent s .io a st .byte], answers := s.answers.tail, draws := s.draws + 1,
        q := .data (.byte (s.answer.setWidth 8)) }) ∧
    (hitRegion s.soft.io a = none →
      exec (.rdb a) s = .next { s with
        q := .data (.byte (match regRead s (selectReg s.cfg.regSel a) with | some v => v | none => 0xFF)) })

/-- A word read or a fetch no flat mapping serves: the first of the primaries of IO, Math1, Math2 and then their mirrors
that hits takes it (43_bus_router_read.md R178, R179, R182; the form of the draw is the model's, log 8, 10). -/
def Obligations.WordReadRoutesInOrder : Prop :=
  ∀ (s : State) (a : Addr) (before after : List (ReadPort × Part)) (p : ReadPort) (part : Part) (st : Addr), s.Routed →
    [(.io, .primary), (.math1, .primary), (.math2, .primary), (.io, .mirror), (.math1, .mirror), (.math2, .mirror)] =
      before ++ (p, part) :: after →
    (∀ x ∈ before, hitPart (s.soft.get (readPortRegion x.1)) a x.2 = none) →
    hitPart (s.soft.get (readPortRegion p)) a part = some st →
    (flatLookup .R a s.flat = none →
      exec (.rdw a) s = .next { s with
        out := s.out ++ [readEvent s p a st .word], answers := s.answers.tail, draws := s.draws + 1,
        q := .data (.word (s.answer.setWidth 16)) }) ∧
    (flatLookup .F a s.flat = none →
      exec (.ftw a) s = .next { s with
        out := s.out ++ [readEvent s p a st .word], answers := s.answers.tail, draws := s.draws + 1,
        q := .data (.word (s.answer.setWidth 16)) })

/-- A word read or fetch that nothing takes: a recognised register gives REG_WORD_HI and its byte; an unrecognised
offset gives the open-bus read (43_bus_router_read.md R184, 45_register_commands.md R234). -/
def Obligations.WordReadMissFallsThrough : Prop :=
  ∀ (s : State) (a : Addr), s.Routed →
    (∀ p, hitRegion (s.soft.get (readPortRegion p)) a = none) →
    ∀ i, (i = .rdw a ∧ flatLookup .R a s.flat = none ∨ i = .ftw a ∧ flatLookup .F a s.flat = none) →
    (∀ v, regRead s (selectReg s.cfg.regSel a) = some v →
      exec i s = .next { s with q := .data (.word ((s.cfg.regWordHi.setWidth 16 <<< 8) ||| v.setWidth 16)) }) ∧
    (regRead s (selectReg s.cfg.regSel a) = none → exec i s = exec .openbus s ∧ ∃ t, exec i s = .next t)

/-- OPENBUS is one `PcQuery` and one nested word read of kind R at its answer, under the guard, which is clear again
afterwards (43_bus_router_read.md R186; the form of the draw is the model's, log 8, and so is OPENBUS as an operation of its
own, log 13, 28). -/
def Obligations.OpenBusIsNestedWordRead : Prop :=
  ∀ s : State, s.Routed → s.guard = false → ∃ u,
    exec (.rdw s.answer) { s with
      guard := true, out := s.out ++ [.pcQuery], answers := s.answers.tail, draws := s.draws + 1 } = .next u ∧
    exec .openbus s = .next { u with guard := false }

/-- Open bus inside open bus is 0xFFFF with no second `PcQuery`, so at most one `PcQuery` is emitted
(43_bus_router_read.md R185, R187; the form of the draw is the model's, log 8, and so is OPENBUS as an operation of its own,
log 13, 28). -/
def Obligations.ReenteredOpenBusIsAllOnes : Prop :=
  (∀ s : State, s.Routed → s.guard = true → exec .openbus s = .next { s with q := .data (.word 0xFFFF) }) ∧
  (∀ s : State, s.Routed → s.guard = false → flatLookup .R s.answer s.flat = none →
    (∀ p, hitRegion (s.soft.get (readPortRegion p)) s.answer = none) →
    regRead s (selectReg s.cfg.regSel s.answer) = none →
    exec .openbus s = .next { s with
      out := s.out ++ [.pcQuery], answers := s.answers.tail, draws := s.draws + 1, q := .data (.word 0xFFFF) }) ∧
  (∀ s t, exec .openbus s = .next t → ∃ es, t.out = s.out ++ es ∧ es.length ≤ 2 ∧ es.count .pcQuery ≤ 1)

/-- No read changes a field of the spec's record; its datum has the width asked for (20_memory.md R66). -/
def Obligations.ReadsChangeNoDecoderState : Prop :=
  (∀ i s t, (i.opClass = .bus ∨ i = .openbus) → (∀ a d, i ≠ .wrb a d) → (∀ a d, i ≠ .wrw a d) →
    exec i s = .next t →
    t = { s with out := t.out, answers := t.answers, draws := t.draws, q := t.q } ∧ t.draws ≤ s.draws + 2 ∧
    ∃ d, t.q = .data d ∧ datumWidth d = match i with | .rdb _ => .byte | _ => .word) ∧
  (∀ s t o, exec (.regrd o) s = .next t → t = { s with q := t.q })

/-- A write no flat mapping serves goes to the first region, in the fixed order, whose primary or mirrors hold the
address, and to no other (44_bus_router_write.md R204, R205). -/
def Obligations.WriteRoutesInPriorityOrder : Prop :=
  ∀ (s : State) (a : Addr) (before after : List SoftId) (r : SoftId) (st : Addr), s.Routed →
    flatLookup .W a s.flat = none →
    [.tileRAM, .io, .bankLatch, .soundBridge, .math1, .math2] = before ++ r :: after →
    (∀ r' ∈ before, hitRegion (s.soft.get r') a = none) → hitRegion (s.soft.get r) a = some st →
    ∀ d w,
      exec (.wrb a d) s = .next { s with out := s.out ++ [writeEvent s r a st (.byte d)], q := .none } ∧
      exec (.wrw a w) s = .next { s with out := s.out ++ [writeEvent s r a st (.word w)], q := .none }

/-- A write nothing takes is the register command of the selected offset and the low byte, for a byte and for a word
alike (44_bus_router_write.md R206). -/
def Obligations.UnroutedWriteIsRegisterCommand : Prop :=
  ∀ (s : State) (a : Addr), s.Routed → flatLookup .W a s.flat = none → (∀ r, hitRegion (s.soft.get r) a = none) →
    ∀ d w,
      exec (.wrb a d) s = exec (decodeKey s.cfg (packKey (selectReg s.cfg.regSel a) d)) s ∧
      exec (.wrw a w) s = exec (decodeKey s.cfg (packKey (selectReg s.cfg.regSel a) (w.extractLsb' 0 8))) s ∧
      (∃ t, exec (.wrb a d) s = .next t) ∧ ∃ t, exec (.wrw a w) s = .next t

/-- A mirror behaves as its primary: the same offset, so the same event and the same next state, for a byte read, a word
read, a fetch and both writes (46_device_bridges.md R240); an IO hook, which is handed the address itself, is set aside. -/
def Obligations.AliasBehavesAsPrimary : Prop :=
  (∀ (s : State) (a o st : Addr), s.Routed → s.hookR = false →
    flatLookup .R a s.flat = none → flatLookup .R (a + o) s.flat = none →
    hitPrimary s.soft.io a = some st → hitPrimary s.soft.io (a + o) = none → hitMirror s.soft.io (a + o) = some (st + o) →
    exec (.rdb a) s = exec (.rdb (a + o)) s ∧ ∃ t, exec (.rdb a) s = .next t) ∧
  (∀ (s : State) (a o st : Addr) (before after : List ReadPort) (p : ReadPort), s.Routed → (p = .io → s.hookR = false) →
    [.io, .math1, .math2] = before ++ p :: after →
    (∀ p' ∈ before, hitPrimary (s.soft.get (readPortRegion p')) a = none ∧
      hitMirror (s.soft.get (readPortRegion p')) (a + o) = none) →
    (∀ p', hitPrimary (s.soft.get (readPortRegion p')) (a + o) = none) →
    hitPrimary (s.soft.get (readPortRegion p)) a = some st →
    hitMirror (s.soft.get (readPortRegion p)) (a + o) = some (st + o) →
    (flatLookup .R a s.flat = none → flatLookup .R (a + o) s.flat = none →
      exec (.rdw a) s = exec (.rdw (a + o)) s ∧ ∃ t, exec (.rdw a) s = .next t) ∧
    (flatLookup .F a s.flat = none → flatLookup .F (a + o) s.flat = none →
      exec (.ftw a) s = exec (.ftw (a + o)) s ∧ ∃ t, exec (.ftw a) s = .next t)) ∧
  (∀ (s : State) (a o st : Addr) (before after : List SoftId) (r : SoftId), s.Routed → (r = .io → s.hookW = false) →
    flatLookup .W a s.flat = none → flatLookup .W (a + o) s.flat = none →
    [.tileRAM, .io, .bankLatch, .soundBridge, .math1, .math2] = before ++ r :: after →
    (∀ r' ∈ before, hitRegion (s.soft.get r') a = none ∧ hitRegion (s.soft.get r') (a + o) = none) →
    hitPrimary (s.soft.get r) a = some st → hitPrimary (s.soft.get r) (a + o) = none →
    hitMirror (s.soft.get r) (a + o) = some (st + o) →
    ∀ d w, exec (.wrb a d) s = exec (.wrb (a + o) d) s ∧ exec (.wrw a w) s = exec (.wrw (a + o) w) s ∧
      (∃ t, exec (.wrb a d) s = .next t) ∧ ∃ t, exec (.wrw a w) s = .next t)

/-! ### Register commands -/

/-- REGWR.DESC stores the byte, and recomputes if and only if it changed (45_register_commands.md R218). -/
def Obligations.DescriptorWriteRecomputesIffChanged : Prop :=
  ∀ (s : State) (j : BitVec 4) (v : Byte), s.Routed →
    (v = s.reg (descOffset j) → exec (.regwrDesc j v) s = .next { s with q := .none }) ∧
    (v ≠ s.reg (descOffset j) →
      exec (.regwrDesc j v) s = exec .recompute (s.setReg (descOffset j) v) ∧
      ∃ t, exec (.regwrDesc j v) s = .next t ∧ t.reg (descOffset j) = v ∧
        (∀ o, o ≠ descOffset j → t.reg o = s.reg o) ∧ t.built = true ∧
        t = { s with regs := t.regs, soft := t.soft, mwi := t.mwi, flat := t.flat, built := true, q := .none })

/-- REGWR.MODE requests a machine reset on the transition of the low two bits into 3, after `DecryptReinit` under an
encrypted profile, and otherwise only stores (45_register_commands.md R220, R221). -/
def Obligations.ModeWriteRequestsResetOnTransition : Prop :=
  ∀ (s : State) (v : Byte), s.Routed →
    (¬((s.reg s.cfg.regMode).extractLsb' 0 2 ≠ 3#2 ∧ v.extractLsb' 0 2 = 3#2) →
      exec (.regwrMode v) s = .next { s.setReg s.cfg.regMode v with q := .none }) ∧
    ((s.reg s.cfg.regMode).extractLsb' 0 2 ≠ 3#2 → v.extractLsb' 0 2 = 3#2 →
      (s.cfg.mresetImpliesRst = false →
        exec (.regwrMode v) s = .next { s.setReg s.cfg.regMode v with
          out := s.out ++ (if s.cfg.profile.encrypted = true then [.decryptReinit, .machineReset] else [.machineReset]),
          q := .none }) ∧
      (s.cfg.mresetImpliesRst = true →
        exec (.regwrMode v) s = exec .rst { s.setReg s.cfg.regMode v with
          out := s.out ++ (if s.cfg.profile.encrypted = true then [.decryptReinit, .machineReset] else [.machineReset]) } ∧
        ∃ t, exec (.regwrMode v) s = .next t))

/-- REGWR.IRQ stores the byte; unless its low three bits are 7 it drives all eight lines, ascending, asserting the
complement of those bits (45_register_commands.md R222), so that replaying the trace gives these levels. -/
def Obligations.IrqWriteDrivesEightLines : Prop :=
  ∀ (s : State) (v : Byte), s.Routed →
    (v.extractLsb' 0 3 = 7#3 → exec (.regwrIrq v) s = .next { s.setReg s.cfg.regIrq v with q := .none }) ∧
    (v.extractLsb' 0 3 ≠ 7#3 → ∃ t,
      exec (.regwrIrq v) s = .next t ∧
      t = { s.setReg s.cfg.regIrq v with
        out := s.out ++ [(0 : BitVec 3), 1, 2, 3, 4, 5, 6, 7].map fun l =>
          .irq l (if l.toNat = 7 - v.toNat % 8 then .assert else .deassert),
        q := .none } ∧
      ∀ l, lineLevel l t.out = some (if l.toNat = 7 - v.toNat % 8 then .assert else .deassert))

/-- REGWR.SNDLATCH stores the byte and forwards it on every write, except under the alternate-sound-chip profile
(45_register_commands.md R224). -/
def Obligations.SoundLatchForwardsEveryWrite : Prop :=
  ∀ (s : State) (v : Byte), s.Routed →
    (s.cfg.profile.altSound = false →
      exec (.regwrSndlatch v) s = .next { s.setReg s.cfg.regSndlatch v with out := s.out ++ [.soundLatch v], q := .none }) ∧
    (s.cfg.profile.altSound = true →
      exec (.regwrSndlatch v) s = .next { s.setReg s.cfg.regSndlatch v with q := .none })

/-- REGWR.DMA stores the byte and nothing else happens, whatever its value (45_register_commands.md R228). -/
def Obligations.DmaTriggerOnlyStores : Prop :=
  ∀ (s : State) (v : Byte), s.Routed → ∃ t, exec (.regwrDma v) s = .next t ∧ t.reg s.cfg.regDma = v ∧
    (∀ o, o ≠ s.cfg.regDma → t.reg o = s.reg o) ∧ t = { s with regs := t.regs, q := .none }

/-- REGWR.PLAIN stores the byte and nothing else happens (45_register_commands.md R230). -/
def Obligations.PlainWriteOnlyStores : Prop :=
  ∀ (s : State) (o : BitVec 4) (v : Byte), s.Routed → ∃ t, exec (.regwrPlain o v) s = .next t ∧ t.reg (lowOffset o) = v ∧
    (∀ o', o' ≠ lowOffset o → t.reg o' = s.reg o') ∧ t = { s with regs := t.regs, q := .none }

/-- REGRD answers the view of a recognised offset and none otherwise, and changes no state; under the reference view
0x00 and 0x01 are the stored bytes, 0x02 the status, every other offset unrecognised (45_register_commands.md R232; the
reference view is PRESUMED by the spec, "from general knowledge, not in source", log 5; REGRD as an operation of its own is the model's, log 13). -/
def Obligations.RegisterReadFollowsView : Prop :=
  (∀ (s : State) (o : RegOff), s.Routed →
    exec (.regrd o) s = .next { s with q := .view ((s.cfg.readView o).map fun f => viewValue f s.regs) }) ∧
  (∀ (s : State) (o : RegOff), s.Routed → s.cfg.regReadView = REFCFG.regReadView →
    exec (.regrd o) s = .next { s with q := .view (
      if o = 0x00 then some (s.reg 0x00) else if o = 0x01 then some (s.reg 0x01)
      else if o = 0x02 then some (if (s.reg 0x02).extractLsb' 0 2 = 3#2 then 0x00 else 0x0F) else none) })

/-- Over any list of register writes, the number of machine resets requested is the number of transitions of the mode
register's low two bits into 3 (45_register_commands.md R220, R221), where a machine reset does not imply RST. -/
def Obligations.MachineResetOncePerTransition : Prop :=
  ∀ (ws : List (RegOff × Byte)) (s : State), s.Routed → s.cfg.mresetImpliesRst = false → ∃ t,
    execAll (ws.map fun w => decodeKey s.cfg (packKey w.1 w.2)) s = .next t ∧
    t.out.count .machineReset =
      s.out.count .machineReset + resetsRequested s.cfg ((s.reg s.cfg.regMode).extractLsb' 0 2) ws

/-- The register file is written by the bus writes, the register commands and INIT, EXIT, RST, CFG, RESTORE only
(10_state.md R24). -/
def Obligations.OnlyListedOperationsWriteRegisters : Prop :=
  ∀ i s t, exec i s = .next t → t.regs ≠ s.regs →
    (∃ a d, i = .wrb a d) ∨ (∃ a d, i = .wrw a d) ∨ (∃ b, i = .cfg b) ∨ i = .rst ∨ i = .init ∨ i = .exit ∨
    (∃ p, i = .restore p) ∨ (∃ j v, i = .regwrDesc j v) ∨ (∃ v, i = .regwrMode v) ∨ (∃ v, i = .regwrSndlatch v) ∨
    (∃ v, i = .regwrIrq v) ∨ (∃ v, i = .regwrDma v) ∨ ∃ o v, i = .regwrPlain o v

/-- Only a write of the interrupt register drives a line (60_exceptions.md R283): every other operation leaves every level
as it was, and so does a bus write that a flat mapping or a region takes or that selects another register. -/
def Obligations.OnlyIrqWritesDriveLines : Prop :=
  ∀ i s t l, exec i s = .next t → (∀ v, i ≠ .regwrIrq v) →
    (∀ a, ((∃ d, i = .wrb a d) ∨ ∃ w, i = .wrw a w) →
      flatLookup .W a s.flat ≠ none ∨ (∃ r, hitRegion (s.soft.get r) a ≠ none) ∨ selectReg s.cfg.regSel a ≠ s.cfg.regIrq) →
    lineLevel l t.out = lineLevel l s.out

/-- Line 0 is never asserted, and once exactly one of the lines 1 to 7 is asserted it stays so: no operation lowers all
lines (60_exceptions.md R285). -/
def Obligations.ExactlyOneLineStaysAsserted : Prop :=
  ∀ i s t, exec i s = .next t →
    (lineLevel 0 s.out ≠ some .assert → lineLevel 0 t.out ≠ some .assert) ∧
    ((∃ l, l ≠ 0 ∧ ∀ l', lineLevel l' s.out = some .assert ↔ l' = l) →
      ∃ l, l ≠ 0 ∧ ∀ l', lineLevel l' t.out = some .assert ↔ l' = l)

/-! ### Encoding, the step, the whole machine -/

/-- The op codes of the command bundle (30_encoding.md R91): the op field alone selects the row; unused fields are
ignored. -/
def Obligations.BundleRowsDecode : Prop :=
  ∀ (a : Addr) (d : Word) (p : Snapshot),
    decodeBundle (packBundle 0x0 a d) p = .rdb a ∧ decodeBundle (packBundle 0x1 a d) p = .rdw a ∧
    decodeBundle (packBundle 0x2 a d) p = .wrb a (BitVec.ofNat 8 d.toNat) ∧
    decodeBundle (packBundle 0x3 a d) p = .wrw a d ∧ decodeBundle (packBundle 0x4 a d) p = .ftw a ∧
    decodeBundle (packBundle 0x5 a d) p = .reserved5 ∧ decodeBundle (packBundle 0x6 a d) p = .reserved6 ∧
    decodeBundle (packBundle 0x7 a d) p = .reserved7 ∧ decodeBundle (packBundle 0x8 a d) p = .init ∧
    decodeBundle (packBundle 0x9 a d) p = .exit ∧ decodeBundle (packBundle 0xA a d) p = .rst ∧
    (∃ b : Block, decodeBundle (packBundle 0xB a d) p = .cfg b ∧ ∀ j : Fin 16, b[j] = p[j.val]) ∧
    decodeBundle (packBundle 0xC a d) p = .sethook (d.getLsbD 0) (d.getLsbD 1) ∧
    decodeBundle (packBundle 0xD a d) p = .save ∧ decodeBundle (packBundle 0xE a d) p = .restore p ∧
    decodeBundle (packBundle 0xF a d) p = .reservedF

/-- The rows of the register command key, the first that matches deciding (30_encoding.md R85). -/
def Obligations.KeySelectsFirstMatchingRow : Prop :=
  ∀ (c : Config) (o : RegOff) (v : Byte), c.wf = true →
    (0x10#5 ≤ o → ∃ j, descOffset j = o ∧ decodeKey c (packKey o v) = .regwrDesc j v) ∧
    (o = c.regMode → decodeKey c (packKey o v) = .regwrMode v) ∧
    (o = c.regIrq → decodeKey c (packKey o v) = .regwrIrq v) ∧
    (o = c.regSndlatch → decodeKey c (packKey o v) = .regwrSndlatch v) ∧
    (o = c.regDma → o ≠ c.regMode → o ≠ c.regIrq → o ≠ c.regSndlatch → decodeKey c (packKey o v) = .regwrDma v) ∧
    (o < 0x10#5 → o ≠ c.regMode → o ≠ c.regIrq → o ≠ c.regSndlatch → o ≠ c.regDma →
      ∃ j, lowOffset j = o ∧ decodeKey c (packKey o v) = .regwrPlain j v)

/-- The reserved op codes are refused in every state, whatever the other fields of the bundle hold (30_encoding.md R94).
That the refusal bears this name also where another reason to refuse holds is the model's choice (log 14). -/
def Obligations.ReservedOpsAreRefused : Prop :=
  (∀ s : State,
    exec .reserved5 s = .refused (.reservedOp 0x5) ∧ exec .reserved6 s = .refused (.reservedOp 0x6) ∧
    exec .reserved7 s = .refused (.reservedOp 0x7) ∧ exec .reservedF s = .refused (.reservedOp 0xF)) ∧
  ∀ (s : State) (t : BitVec 52) (p : Snapshot) (rest : List Stimulus), s.pending = ⟨t, p⟩ :: rest →
    (bundleOp t = 0x5 ∨ bundleOp t = 0x6 ∨ bundleOp t = 0x7 ∨ bundleOp t = 0xF) →
    step s = .refused (.reservedOp (bundleOp t))

/-- A few words written out from the encoding tables (30_encoding.md R85, R92) decode to the operations they stand for. The
key 0x0403 is REGWR.IRQ under the reference offset of the interrupt register, which is PRESUMED (log 6). -/
def Obligations.SampleWordsDecode : Prop :=
  decodeTableWord 56 0x000C000020000 = some (.rdb 0x00C00002) ∧
  decodeTableWord 56 0x3004000101234 = some (.wrw 0x00400010 0x1234) ∧
  decodeTableWord 56 0xC000000000001 = some (.sethook true false) ∧
  decodeTableWord 56 0xA000000000000 = some .rst ∧
  decodeTableWord 56 0x5000000000000 = some .reserved5 ∧
  decodeTableWord 16 0x1FC0 = some (.regwrDesc 0xF 0xC0) ∧
  decodeTableWord 16 0x0403 = some (.regwrIrq 0x03) ∧
  decodeTableWord 8 0x02 = some (.regrd 0x02)

/-- Decoding the canonical encoding of a well-formed operation gives the operation, for every operation that has an
encoding and every configuration (30_encoding.md R85, R91, R92). -/
def Obligations.DecodeEncodeRoundTrip : Prop :=
  ∀ (c : Config) (i : Instr), c.wf = true → i.wellFormed c = true → i.opClass ≠ .internal →
    ∃ st, encode c i = some st ∧ decode c st = i

/-- A step takes the first bundle presented and is exec of the operation it decodes to; with nothing presented it changes
nothing; a table row's bundle is presented so that the next step runs it (00_scope.md R8; the queue and the idle step are
the model's, log 1). -/
def Obligations.StepRunsDecodedStimulus : Prop :=
  (∀ s st rest, s.pending = st :: rest → step s = exec (decodeBundle st.bundle st.payload) { s with pending := rest }) ∧
  (∀ s : State, s.pending = [] → step s = .next s) ∧
  (∀ (s : State) (nbits w : Nat) (t : BitVec 52) (p : Snapshot), tableEncoded nbits w = some (.bundle t p) →
    step (s.withFetchWord nbits w) = exec (decodeBundle t p) s)

/-- No operation changes the parameters or the stimuli not yet taken; the trace only grows; each draw uses up one answer
(00_scope.md R9, R10, 10_state.md R33; `pending`, `answers` and `draws` are the model's, log 1, 8). -/
def Obligations.ParametersFixedAndTraceGrows : Prop :=
  ∀ i s t, exec i s = .next t → t.cfg = s.cfg ∧ t.pending = s.pending ∧ s.out <+: t.out ∧ s.draws ≤ t.draws ∧
    t.answers = s.answers.drop (t.draws - s.draws)

/-- Through a register base, REGW is the register command and REGR the register read (30_encoding.md R101); and in every
state that meets the invariant the next step on a table row's register command key, or register offset, runs exactly that
command, or read, through the base the model uses (log 2). -/
def Obligations.RegisterBaseReachesRegisterFile : Prop :=
  (∀ (s : State) (rb : Addr) (o : RegOff), s.Routed → s.cfg.regSel = .bits 1 →
    (isRegisterBase .W rb s = true → ∀ v,
      exec (regw rb o v) s = exec (decodeKey s.cfg (packKey o v)) s ∧ ∃ t, exec (regw rb o v) s = .next t) ∧
    (isRegisterBase .R rb s = true →
      exec (regr rb o) s = .next { s with q := .data (.byte ((regRead s o).getD 0xFF)) })) ∧
  (∀ s : State, s.Inv → s.cfg.regSel = .bits 1 →
    (∀ k : Kind, isRegisterBase k highRegisterBase s = true) ∧
    (∀ nbits w k, tableEncoded nbits w = some (.regKey k) → step (s.withFetchWord nbits w) = exec (decodeKey s.cfg k) s) ∧
    (∀ nbits w o, tableEncoded nbits w = some (.regOffset o) → s.Routed →
      step (s.withFetchWord nbits w) = .next { s with q := .data (.byte ((regRead s o).getD 0xFF)) }))

/-- The state in which the model starts meets the invariant. -/
def Obligations.ResetMeetsInvariant : Prop := State.reset.Inv

/-- Every step keeps the invariant of 10_state.md section 9: the guard clear, the write index in range, every region
ordered, and, once built, the tables and the flat mappings exactly what RECOMPUTE makes of the descriptor bytes (10_state.md
R29, R35, R38). -/
def Obligations.StepKeepsInvariant : Prop :=
  ∀ s t, s.Inv → step s = .next t → t.Inv
end

