-- ==== Sys2Proof/Laws/State.lean ====
section
/-! SUPPORT. One lemma per field per state update, true by rfl: no proof unfolds a record update. -/

namespace Sys2Proof.Machine

variable (s : State)

/-! `setGuard` -/

@[simp] theorem setGuard_cfg (b : Bool) : (s.setGuard b).cfg = s.cfg := rfl
@[simp] theorem setGuard_regs (b : Bool) : (s.setGuard b).regs = s.regs := rfl
@[simp] theorem setGuard_soft (b : Bool) : (s.setGuard b).soft = s.soft := rfl
@[simp] theorem setGuard_mwi (b : Bool) : (s.setGuard b).mwi = s.mwi := rfl
@[simp] theorem setGuard_guard (b : Bool) : (s.setGuard b).guard = b := rfl
@[simp] theorem setGuard_hookR (b : Bool) : (s.setGuard b).hookR = s.hookR := rfl
@[simp] theorem setGuard_hookW (b : Bool) : (s.setGuard b).hookW = s.hookW := rfl
@[simp] theorem setGuard_flat (b : Bool) : (s.setGuard b).flat = s.flat := rfl
@[simp] theorem setGuard_live (b : Bool) : (s.setGuard b).live = s.live := rfl
@[simp] theorem setGuard_built (b : Bool) : (s.setGuard b).built = s.built := rfl
@[simp] theorem setGuard_out (b : Bool) : (s.setGuard b).out = s.out := rfl
@[simp] theorem setGuard_q (b : Bool) : (s.setGuard b).q = s.q := rfl
@[simp] theorem setGuard_pending (b : Bool) : (s.setGuard b).pending = s.pending := rfl
@[simp] theorem setGuard_answers (b : Bool) : (s.setGuard b).answers = s.answers := rfl
@[simp] theorem setGuard_draws (b : Bool) : (s.setGuard b).draws = s.draws := rfl

/-! `setHooks` -/

@[simp] theorem setHooks_cfg (r w : Bool) : (s.setHooks r w).cfg = s.cfg := rfl
@[simp] theorem setHooks_regs (r w : Bool) : (s.setHooks r w).regs = s.regs := rfl
@[simp] theorem setHooks_soft (r w : Bool) : (s.setHooks r w).soft = s.soft := rfl
@[simp] theorem setHooks_mwi (r w : Bool) : (s.setHooks r w).mwi = s.mwi := rfl
@[simp] theorem setHooks_guard (r w : Bool) : (s.setHooks r w).guard = s.guard := rfl
@[simp] theorem setHooks_hookR (r w : Bool) : (s.setHooks r w).hookR = r := rfl
@[simp] theorem setHooks_hookW (r w : Bool) : (s.setHooks r w).hookW = w := rfl
@[simp] theorem setHooks_flat (r w : Bool) : (s.setHooks r w).flat = s.flat := rfl
@[simp] theorem setHooks_live (r w : Bool) : (s.setHooks r w).live = s.live := rfl
@[simp] theorem setHooks_built (r w : Bool) : (s.setHooks r w).built = s.built := rfl
@[simp] theorem setHooks_out (r w : Bool) : (s.setHooks r w).out = s.out := rfl
@[simp] theorem setHooks_q (r w : Bool) : (s.setHooks r w).q = s.q := rfl
@[simp] theorem setHooks_pending (r w : Bool) : (s.setHooks r w).pending = s.pending := rfl
@[simp] theorem setHooks_answers (r w : Bool) : (s.setHooks r w).answers = s.answers := rfl
@[simp] theorem setHooks_draws (r w : Bool) : (s.setHooks r w).draws = s.draws := rfl

/-! `setReg` -/

@[simp] theorem setReg_cfg (o : RegOff) (v : Byte) : (s.setReg o v).cfg = s.cfg := rfl
@[simp] theorem setReg_regs (o : RegOff) (v : Byte) : (s.setReg o v).regs = s.regs.set o.toFin v := rfl
@[simp] theorem setReg_soft (o : RegOff) (v : Byte) : (s.setReg o v).soft = s.soft := rfl
@[simp] theorem setReg_mwi (o : RegOff) (v : Byte) : (s.setReg o v).mwi = s.mwi := rfl
@[simp] theorem setReg_guard (o : RegOff) (v : Byte) : (s.setReg o v).guard = s.guard := rfl
@[simp] theorem setReg_hookR (o : RegOff) (v : Byte) : (s.setReg o v).hookR = s.hookR := rfl
@[simp] theorem setReg_hookW (o : RegOff) (v : Byte) : (s.setReg o v).hookW = s.hookW := rfl
@[simp] theorem setReg_flat (o : RegOff) (v : Byte) : (s.setReg o v).flat = s.flat := rfl
@[simp] theorem setReg_live (o : RegOff) (v : Byte) : (s.setReg o v).live = s.live := rfl
@[simp] theorem setReg_built (o : RegOff) (v : Byte) : (s.setReg o v).built = s.built := rfl
@[simp] theorem setReg_out (o : RegOff) (v : Byte) : (s.setReg o v).out = s.out := rfl
@[simp] theorem setReg_q (o : RegOff) (v : Byte) : (s.setReg o v).q = s.q := rfl
@[simp] theorem setReg_pending (o : RegOff) (v : Byte) : (s.setReg o v).pending = s.pending := rfl
@[simp] theorem setReg_answers (o : RegOff) (v : Byte) : (s.setReg o v).answers = s.answers := rfl
@[simp] theorem setReg_draws (o : RegOff) (v : Byte) : (s.setReg o v).draws = s.draws := rfl

/-! `setRegs` -/

@[simp] theorem setRegs_cfg (x : Vector Byte 32) : (s.setRegs x).cfg = s.cfg := rfl
@[simp] theorem setRegs_regs (x : Vector Byte 32) : (s.setRegs x).regs = x := rfl
@[simp] theorem setRegs_soft (x : Vector Byte 32) : (s.setRegs x).soft = s.soft := rfl
@[simp] theorem setRegs_mwi (x : Vector Byte 32) : (s.setRegs x).mwi = s.mwi := rfl
@[simp] theorem setRegs_guard (x : Vector Byte 32) : (s.setRegs x).guard = s.guard := rfl
@[simp] theorem setRegs_hookR (x : Vector Byte 32) : (s.setRegs x).hookR = s.hookR := rfl
@[simp] theorem setRegs_hookW (x : Vector Byte 32) : (s.setRegs x).hookW = s.hookW := rfl
@[simp] theorem setRegs_flat (x : Vector Byte 32) : (s.setRegs x).flat = s.flat := rfl
@[simp] theorem setRegs_live (x : Vector Byte 32) : (s.setRegs x).live = s.live := rfl
@[simp] theorem setRegs_built (x : Vector Byte 32) : (s.setRegs x).built = s.built := rfl
@[simp] theorem setRegs_out (x : Vector Byte 32) : (s.setRegs x).out = s.out := rfl
@[simp] theorem setRegs_q (x : Vector Byte 32) : (s.setRegs x).q = s.q := rfl
@[simp] theorem setRegs_pending (x : Vector Byte 32) : (s.setRegs x).pending = s.pending := rfl
@[simp] theorem setRegs_answers (x : Vector Byte 32) : (s.setRegs x).answers = s.answers := rfl
@[simp] theorem setRegs_draws (x : Vector Byte 32) : (s.setRegs x).draws = s.draws := rfl

/-! `setQ` -/

@[simp] theorem setQ_cfg (x : QPort) : (s.setQ x).cfg = s.cfg := rfl
@[simp] theorem setQ_regs (x : QPort) : (s.setQ x).regs = s.regs := rfl
@[simp] theorem setQ_soft (x : QPort) : (s.setQ x).soft = s.soft := rfl
@[simp] theorem setQ_mwi (x : QPort) : (s.setQ x).mwi = s.mwi := rfl
@[simp] theorem setQ_guard (x : QPort) : (s.setQ x).guard = s.guard := rfl
@[simp] theorem setQ_hookR (x : QPort) : (s.setQ x).hookR = s.hookR := rfl
@[simp] theorem setQ_hookW (x : QPort) : (s.setQ x).hookW = s.hookW := rfl
@[simp] theorem setQ_flat (x : QPort) : (s.setQ x).flat = s.flat := rfl
@[simp] theorem setQ_live (x : QPort) : (s.setQ x).live = s.live := rfl
@[simp] theorem setQ_built (x : QPort) : (s.setQ x).built = s.built := rfl
@[simp] theorem setQ_out (x : QPort) : (s.setQ x).out = s.out := rfl
@[simp] theorem setQ_q (x : QPort) : (s.setQ x).q = x := rfl
@[simp] theorem setQ_pending (x : QPort) : (s.setQ x).pending = s.pending := rfl
@[simp] theorem setQ_answers (x : QPort) : (s.setQ x).answers = s.answers := rfl
@[simp] theorem setQ_draws (x : QPort) : (s.setQ x).draws = s.draws := rfl

/-! `emit` -/

@[simp] theorem emit_cfg (e : Event) : (s.emit e).cfg = s.cfg := rfl
@[simp] theorem emit_regs (e : Event) : (s.emit e).regs = s.regs := rfl
@[simp] theorem emit_soft (e : Event) : (s.emit e).soft = s.soft := rfl
@[simp] theorem emit_mwi (e : Event) : (s.emit e).mwi = s.mwi := rfl
@[simp] theorem emit_guard (e : Event) : (s.emit e).guard = s.guard := rfl
@[simp] theorem emit_hookR (e : Event) : (s.emit e).hookR = s.hookR := rfl
@[simp] theorem emit_hookW (e : Event) : (s.emit e).hookW = s.hookW := rfl
@[simp] theorem emit_flat (e : Event) : (s.emit e).flat = s.flat := rfl
@[simp] theorem emit_live (e : Event) : (s.emit e).live = s.live := rfl
@[simp] theorem emit_built (e : Event) : (s.emit e).built = s.built := rfl
@[simp] theorem emit_out (e : Event) : (s.emit e).out = s.out ++ [e] := rfl
@[simp] theorem emit_q (e : Event) : (s.emit e).q = s.q := rfl
@[simp] theorem emit_pending (e : Event) : (s.emit e).pending = s.pending := rfl
@[simp] theorem emit_answers (e : Event) : (s.emit e).answers = s.answers := rfl
@[simp] theorem emit_draws (e : Event) : (s.emit e).draws = s.draws := rfl

/-! `emits` -/

@[simp] theorem emits_cfg (es : List Event) : (s.emits es).cfg = s.cfg := rfl
@[simp] theorem emits_regs (es : List Event) : (s.emits es).regs = s.regs := rfl
@[simp] theorem emits_soft (es : List Event) : (s.emits es).soft = s.soft := rfl
@[simp] theorem emits_mwi (es : List Event) : (s.emits es).mwi = s.mwi := rfl
@[simp] theorem emits_guard (es : List Event) : (s.emits es).guard = s.guard := rfl
@[simp] theorem emits_hookR (es : List Event) : (s.emits es).hookR = s.hookR := rfl
@[simp] theorem emits_hookW (es : List Event) : (s.emits es).hookW = s.hookW := rfl
@[simp] theorem emits_flat (es : List Event) : (s.emits es).flat = s.flat := rfl
@[simp] theorem emits_live (es : List Event) : (s.emits es).live = s.live := rfl
@[simp] theorem emits_built (es : List Event) : (s.emits es).built = s.built := rfl
@[simp] theorem emits_out (es : List Event) : (s.emits es).out = s.out ++ es := rfl
@[simp] theorem emits_q (es : List Event) : (s.emits es).q = s.q := rfl
@[simp] theorem emits_pending (es : List Event) : (s.emits es).pending = s.pending := rfl
@[simp] theorem emits_answers (es : List Event) : (s.emits es).answers = s.answers := rfl
@[simp] theorem emits_draws (es : List Event) : (s.emits es).draws = s.draws := rfl

/-! `drawn` -/

@[simp] theorem drawn_cfg (e : Event) : (s.drawn e).cfg = s.cfg := rfl
@[simp] theorem drawn_regs (e : Event) : (s.drawn e).regs = s.regs := rfl
@[simp] theorem drawn_soft (e : Event) : (s.drawn e).soft = s.soft := rfl
@[simp] theorem drawn_mwi (e : Event) : (s.drawn e).mwi = s.mwi := rfl
@[simp] theorem drawn_guard (e : Event) : (s.drawn e).guard = s.guard := rfl
@[simp] theorem drawn_hookR (e : Event) : (s.drawn e).hookR = s.hookR := rfl
@[simp] theorem drawn_hookW (e : Event) : (s.drawn e).hookW = s.hookW := rfl
@[simp] theorem drawn_flat (e : Event) : (s.drawn e).flat = s.flat := rfl
@[simp] theorem drawn_live (e : Event) : (s.drawn e).live = s.live := rfl
@[simp] theorem drawn_built (e : Event) : (s.drawn e).built = s.built := rfl
@[simp] theorem drawn_out (e : Event) : (s.drawn e).out = s.out ++ [e] := rfl
@[simp] theorem drawn_q (e : Event) : (s.drawn e).q = s.q := rfl
@[simp] theorem drawn_pending (e : Event) : (s.drawn e).pending = s.pending := rfl
@[simp] theorem drawn_answers (e : Event) : (s.drawn e).answers = s.answers.tail := rfl
@[simp] theorem drawn_draws (e : Event) : (s.drawn e).draws = s.draws + 1 := rfl

/-! `setSoft` -/

@[simp] theorem setSoft_cfg (r : SoftId) (x : SoftRegion) : (s.setSoft r x).cfg = s.cfg := rfl
@[simp] theorem setSoft_regs (r : SoftId) (x : SoftRegion) : (s.setSoft r x).regs = s.regs := rfl
@[simp] theorem setSoft_soft (r : SoftId) (x : SoftRegion) : (s.setSoft r x).soft = s.soft.put r x := rfl
@[simp] theorem setSoft_mwi (r : SoftId) (x : SoftRegion) : (s.setSoft r x).mwi = s.mwi := rfl
@[simp] theorem setSoft_guard (r : SoftId) (x : SoftRegion) : (s.setSoft r x).guard = s.guard := rfl
@[simp] theorem setSoft_hookR (r : SoftId) (x : SoftRegion) : (s.setSoft r x).hookR = s.hookR := rfl
@[simp] theorem setSoft_hookW (r : SoftId) (x : SoftRegion) : (s.setSoft r x).hookW = s.hookW := rfl
@[simp] theorem setSoft_flat (r : SoftId) (x : SoftRegion) : (s.setSoft r x).flat = s.flat := rfl
@[simp] theorem setSoft_live (r : SoftId) (x : SoftRegion) : (s.setSoft r x).live = s.live := rfl
@[simp] theorem setSoft_built (r : SoftId) (x : SoftRegion) : (s.setSoft r x).built = s.built := rfl
@[simp] theorem setSoft_out (r : SoftId) (x : SoftRegion) : (s.setSoft r x).out = s.out := rfl
@[simp] theorem setSoft_q (r : SoftId) (x : SoftRegion) : (s.setSoft r x).q = s.q := rfl
@[simp] theorem setSoft_pending (r : SoftId) (x : SoftRegion) : (s.setSoft r x).pending = s.pending := rfl
@[simp] theorem setSoft_answers (r : SoftId) (x : SoftRegion) : (s.setSoft r x).answers = s.answers := rfl
@[simp] theorem setSoft_draws (r : SoftId) (x : SoftRegion) : (s.setSoft r x).draws = s.draws := rfl

/-! `setMwi` -/

@[simp] theorem setMwi_cfg (n : Nat) : (s.setMwi n).cfg = s.cfg := rfl
@[simp] theorem setMwi_regs (n : Nat) : (s.setMwi n).regs = s.regs := rfl
@[simp] theorem setMwi_soft (n : Nat) : (s.setMwi n).soft = s.soft := rfl
@[simp] theorem setMwi_mwi (n : Nat) : (s.setMwi n).mwi = n := rfl
@[simp] theorem setMwi_guard (n : Nat) : (s.setMwi n).guard = s.guard := rfl
@[simp] theorem setMwi_hookR (n : Nat) : (s.setMwi n).hookR = s.hookR := rfl
@[simp] theorem setMwi_hookW (n : Nat) : (s.setMwi n).hookW = s.hookW := rfl
@[simp] theorem setMwi_flat (n : Nat) : (s.setMwi n).flat = s.flat := rfl
@[simp] theorem setMwi_live (n : Nat) : (s.setMwi n).live = s.live := rfl
@[simp] theorem setMwi_built (n : Nat) : (s.setMwi n).built = s.built := rfl
@[simp] theorem setMwi_out (n : Nat) : (s.setMwi n).out = s.out := rfl
@[simp] theorem setMwi_q (n : Nat) : (s.setMwi n).q = s.q := rfl
@[simp] theorem setMwi_pending (n : Nat) : (s.setMwi n).pending = s.pending := rfl
@[simp] theorem setMwi_answers (n : Nat) : (s.setMwi n).answers = s.answers := rfl
@[simp] theorem setMwi_draws (n : Nat) : (s.setMwi n).draws = s.draws := rfl

/-! `addFlat` -/

@[simp] theorem addFlat_cfg (es : List FlatEntry) : (s.addFlat es).cfg = s.cfg := rfl
@[simp] theorem addFlat_regs (es : List FlatEntry) : (s.addFlat es).regs = s.regs := rfl
@[simp] theorem addFlat_soft (es : List FlatEntry) : (s.addFlat es).soft = s.soft := rfl
@[simp] theorem addFlat_mwi (es : List FlatEntry) : (s.addFlat es).mwi = s.mwi := rfl
@[simp] theorem addFlat_guard (es : List FlatEntry) : (s.addFlat es).guard = s.guard := rfl
@[simp] theorem addFlat_hookR (es : List FlatEntry) : (s.addFlat es).hookR = s.hookR := rfl
@[simp] theorem addFlat_hookW (es : List FlatEntry) : (s.addFlat es).hookW = s.hookW := rfl
@[simp] theorem addFlat_flat (es : List FlatEntry) : (s.addFlat es).flat = s.flat ++ es := rfl
@[simp] theorem addFlat_live (es : List FlatEntry) : (s.addFlat es).live = s.live := rfl
@[simp] theorem addFlat_built (es : List FlatEntry) : (s.addFlat es).built = s.built := rfl
@[simp] theorem addFlat_out (es : List FlatEntry) : (s.addFlat es).out = s.out := rfl
@[simp] theorem addFlat_q (es : List FlatEntry) : (s.addFlat es).q = s.q := rfl
@[simp] theorem addFlat_pending (es : List FlatEntry) : (s.addFlat es).pending = s.pending := rfl
@[simp] theorem addFlat_answers (es : List FlatEntry) : (s.addFlat es).answers = s.answers := rfl
@[simp] theorem addFlat_draws (es : List FlatEntry) : (s.addFlat es).draws = s.draws := rfl

/-! `setLive` -/

@[simp] theorem setLive_cfg (b : Bool) : (s.setLive b).cfg = s.cfg := rfl
@[simp] theorem setLive_regs (b : Bool) : (s.setLive b).regs = s.regs := rfl
@[simp] theorem setLive_soft (b : Bool) : (s.setLive b).soft = s.soft := rfl
@[simp] theorem setLive_mwi (b : Bool) : (s.setLive b).mwi = s.mwi := rfl
@[simp] theorem setLive_guard (b : Bool) : (s.setLive b).guard = s.guard := rfl
@[simp] theorem setLive_hookR (b : Bool) : (s.setLive b).hookR = s.hookR := rfl
@[simp] theorem setLive_hookW (b : Bool) : (s.setLive b).hookW = s.hookW := rfl
@[simp] theorem setLive_flat (b : Bool) : (s.setLive b).flat = s.flat := rfl
@[simp] theorem setLive_live (b : Bool) : (s.setLive b).live = b := rfl
@[simp] theorem setLive_built (b : Bool) : (s.setLive b).built = s.built := rfl
@[simp] theorem setLive_out (b : Bool) : (s.setLive b).out = s.out := rfl
@[simp] theorem setLive_q (b : Bool) : (s.setLive b).q = s.q := rfl
@[simp] theorem setLive_pending (b : Bool) : (s.setLive b).pending = s.pending := rfl
@[simp] theorem setLive_answers (b : Bool) : (s.setLive b).answers = s.answers := rfl
@[simp] theorem setLive_draws (b : Bool) : (s.setLive b).draws = s.draws := rfl

/-! `present` -/

@[simp] theorem present_cfg (st : Stimulus) : (s.present st).cfg = s.cfg := rfl
@[simp] theorem present_regs (st : Stimulus) : (s.present st).regs = s.regs := rfl
@[simp] theorem present_soft (st : Stimulus) : (s.present st).soft = s.soft := rfl
@[simp] theorem present_mwi (st : Stimulus) : (s.present st).mwi = s.mwi := rfl
@[simp] theorem present_guard (st : Stimulus) : (s.present st).guard = s.guard := rfl
@[simp] theorem present_hookR (st : Stimulus) : (s.present st).hookR = s.hookR := rfl
@[simp] theorem present_hookW (st : Stimulus) : (s.present st).hookW = s.hookW := rfl
@[simp] theorem present_flat (st : Stimulus) : (s.present st).flat = s.flat := rfl
@[simp] theorem present_live (st : Stimulus) : (s.present st).live = s.live := rfl
@[simp] theorem present_built (st : Stimulus) : (s.present st).built = s.built := rfl
@[simp] theorem present_out (st : Stimulus) : (s.present st).out = s.out := rfl
@[simp] theorem present_q (st : Stimulus) : (s.present st).q = s.q := rfl
@[simp] theorem present_pending (st : Stimulus) : (s.present st).pending = st :: s.pending := rfl
@[simp] theorem present_answers (st : Stimulus) : (s.present st).answers = s.answers := rfl
@[simp] theorem present_draws (st : Stimulus) : (s.present st).draws = s.draws := rfl

/-! `cleared` -/

@[simp] theorem cleared_cfg : (s.cleared).cfg = s.cfg := rfl
@[simp] theorem cleared_regs : (s.cleared).regs = s.regs := rfl
@[simp] theorem cleared_soft : (s.cleared).soft = emptyTables := rfl
@[simp] theorem cleared_mwi : (s.cleared).mwi = 0 := rfl
@[simp] theorem cleared_guard : (s.cleared).guard = s.guard := rfl
@[simp] theorem cleared_hookR : (s.cleared).hookR = s.hookR := rfl
@[simp] theorem cleared_hookW : (s.cleared).hookW = s.hookW := rfl
@[simp] theorem cleared_flat : (s.cleared).flat = [] := rfl
@[simp] theorem cleared_live : (s.cleared).live = s.live := rfl
@[simp] theorem cleared_built : (s.cleared).built = true := rfl
@[simp] theorem cleared_out : (s.cleared).out = s.out := rfl
@[simp] theorem cleared_q : (s.cleared).q = s.q := rfl
@[simp] theorem cleared_pending : (s.cleared).pending = s.pending := rfl
@[simp] theorem cleared_answers : (s.cleared).answers = s.answers := rfl
@[simp] theorem cleared_draws : (s.cleared).draws = s.draws := rfl

/-! `zeroed` -/

@[simp] theorem zeroed_cfg : (s.zeroed).cfg = s.cfg := rfl
@[simp] theorem zeroed_regs : (s.zeroed).regs = zeroRegs := rfl
@[simp] theorem zeroed_soft : (s.zeroed).soft = emptyTables := rfl
@[simp] theorem zeroed_mwi : (s.zeroed).mwi = 0 := rfl
@[simp] theorem zeroed_guard : (s.zeroed).guard = false := rfl
@[simp] theorem zeroed_hookR : (s.zeroed).hookR = false := rfl
@[simp] theorem zeroed_hookW : (s.zeroed).hookW = false := rfl
@[simp] theorem zeroed_flat : (s.zeroed).flat = [] := rfl
@[simp] theorem zeroed_live : (s.zeroed).live = s.live := rfl
@[simp] theorem zeroed_built : (s.zeroed).built = false := rfl
@[simp] theorem zeroed_out : (s.zeroed).out = s.out := rfl
@[simp] theorem zeroed_q : (s.zeroed).q = s.q := rfl
@[simp] theorem zeroed_pending : (s.zeroed).pending = s.pending := rfl
@[simp] theorem zeroed_answers : (s.zeroed).answers = s.answers := rfl
@[simp] theorem zeroed_draws : (s.zeroed).draws = s.draws := rfl

end Sys2Proof.Machine
end

