-- ==== Sys2Proof/Laws/Basic.lean ====
section
/-! SUPPORT. The small lemmas of the shared operations: requirements, registers, tables, lookups, the trace. -/

namespace Sys2Proof.Machine

/-! ### Requirements -/

theorem requireConfig_eq {s : State} {k : StepResult} (h : s.cfg.wf = true) : requireConfig s k = k := by
  simp [requireConfig, h]

theorem requireLive_eq {s : State} {k : StepResult} (h : s.Ready) : requireLive s k = k := by
  simp [requireLive, requireConfig, h.1, h.2]

theorem requireBuilt_eq {s : State} {k : StepResult} (h : s.Routed) : requireBuilt s k = k := by
  simp [requireBuilt, requireLive, requireConfig, h.1, h.2.1, h.2.2]

theorem State.Routed.ready {s : State} (h : s.Routed) : s.Ready := ⟨h.1, h.2.1⟩

/-- A next state of an operation that requires a configuration. -/
theorem requireConfig_next {s t : State} {k : StepResult} (h : requireConfig s k = .next t) :
    s.cfg.wf = true ∧ k = .next t := by
  unfold requireConfig at h
  split at h
  · exact ⟨‹_›, h⟩
  · cases h

/-- A next state of an operation that requires a live block. -/
theorem requireLive_next {s t : State} {k : StepResult} (h : requireLive s k = .next t) :
    s.Ready ∧ k = .next t := by
  obtain ⟨hc, h⟩ := requireConfig_next h
  split at h
  · exact ⟨⟨hc, ‹_›⟩, h⟩
  · cases h

/-- A next state of a bus transaction. -/
theorem requireBuilt_next {s t : State} {k : StepResult} (h : requireBuilt s k = .next t) :
    s.Routed ∧ k = .next t := by
  obtain ⟨hr, h⟩ := requireLive_next h
  split at h
  · exact ⟨⟨hr.1, hr.2, ‹_›⟩, h⟩
  · cases h

/-! ### Registers -/

@[simp] theorem reg_setReg_self (s : State) (o : RegOff) (v : Byte) : (s.setReg o v).reg o = v := by
  simp [State.reg, State.setReg]

theorem reg_setReg_of_ne (s : State) {o o' : RegOff} (v : Byte) (h : o' ≠ o) : (s.setReg o v).reg o' = s.reg o' := by
  have : o.toNat ≠ o'.toNat := fun e => h (BitVec.eq_of_toNat_eq e.symm)
  simp [State.reg, State.setReg, this]

/-- Storing the byte a register already holds changes nothing. -/
@[simp] theorem setReg_self (s : State) (o : RegOff) : s.setReg o (s.reg o) = s := by
  simp [State.reg, State.setReg]

theorem regRead_congr {s t : State} (hc : t.cfg = s.cfg) (hr : t.regs = s.regs) (o : RegOff) : regRead t o = regRead s o := by
  simp [regRead, hc, hr]

/-! ### The tables -/

@[simp] theorem get_put_self (t : SoftTables) (r : SoftId) (x : SoftRegion) : (t.put r x).get r = x := by cases r <;> rfl

theorem get_put_of_ne (t : SoftTables) {r r' : SoftId} (x : SoftRegion) (h : r' ≠ r) : (t.put r x).get r' = t.get r' := by
  cases r <;> cases r' <;> first | rfl | exact absurd rfl h

@[simp] theorem put_get_self (t : SoftTables) (r : SoftId) : t.put r (t.get r) = t := by cases r <;> rfl

@[simp] theorem put_put (t : SoftTables) (r : SoftId) (x y : SoftRegion) : (t.put r x).put r y = t.put r y := by
  cases r <;> rfl

@[simp] theorem emptyTables_get (r : SoftId) : emptyTables.get r = emptyRegion := by cases r <;> rfl

/-- Two tables with the same six regions are equal. -/
theorem SoftTables.ext_get {t u : SoftTables} (h : ∀ r, t.get r = u.get r) : t = u := by
  have h1 := h .io; have h2 := h .tileRAM; have h3 := h .bankLatch
  have h4 := h .soundBridge; have h5 := h .math1; have h6 := h .math2
  cases t; cases u; simp_all [SoftTables.get]

@[simp] theorem setPrimary_start (x : SoftRegion) (a b : Addr) : (x.setPrimary a b).start = a := rfl
@[simp] theorem setPrimary_stop (x : SoftRegion) (a b : Addr) : (x.setPrimary a b).stop = b := rfl
@[simp] theorem setPrimary_mir (x : SoftRegion) (a b : Addr) : (x.setPrimary a b).mir = x.mir := rfl
@[simp] theorem setMirror_start (x : SoftRegion) (i : Nat) (b : Bounds) : (x.setMirror i b).start = x.start := rfl
@[simp] theorem setMirror_stop (x : SoftRegion) (i : Nat) (b : Bounds) : (x.setMirror i b).stop = x.stop := rfl
@[simp] theorem setMirror_mir (x : SoftRegion) (i : Nat) (b : Bounds) :
    (x.setMirror i b).mir = x.mir.setIfInBounds i b := rfl

/-! ### Lookups -/

theorem inside_iff {a s e : Addr} : inside a s e = true ↔ s ≤ a ∧ a ≤ e := by simp [inside]

/-- A primary hit: the region is active, the address inside, the answer its start. -/
theorem hitPrimary_eq_some {x : SoftRegion} {a st : Addr} :
    hitPrimary x a = some st ↔ x.start ≠ 0 ∧ inside a x.start x.stop = true ∧ st = x.start := by
  by_cases h0 : x.start = 0
  · simp [hitPrimary, h0]
  · by_cases h1 : inside a x.start x.stop = true
    · simp only [hitPrimary, h0, h1, if_false, if_true, Option.some.injEq, ne_eq, not_false_eq_true, true_and]
      exact eq_comm
    · simp [hitPrimary, h1]

/-- A mirror hit: the region is active and the answer is the start of a non-empty entry that holds the address. -/
theorem hitMirror_some {x : SoftRegion} {a st : Addr} (h : hitMirror x a = some st) :
    x.start ≠ 0 ∧ ∃ b ∈ x.mir.toList, b.start ≠ 0 ∧ inside a b.start b.stop = true ∧ st = b.start := by
  unfold hitMirror at h
  split at h
  · cases h
  · obtain ⟨b, hb, rfl⟩ := Option.map_eq_some_iff.mp h
    have := List.find?_some hb
    simp only [Bool.and_eq_true, decide_eq_true_eq] at this
    exact ⟨‹_›, b, List.mem_of_find?_eq_some hb, this.1, this.2, rfl⟩

/-- Every lookup of an inactive region misses (10_state.md R26). -/
theorem hitPart_inactive {x : SoftRegion} (h : x.start = 0) (a : Addr) (p : Part) : hitPart x a p = none := by
  cases p <;> simp [hitPart, hitPrimary, hitMirror, h]

@[simp] theorem flatLookup_nil (k : Kind) (a : Addr) : flatLookup k a [] = none := rfl

/-- The entry a flat lookup answers is in the list and serves the access. -/
theorem flatLookup_some {k : Kind} {a : Addr} {l : List FlatEntry} {e : FlatEntry} (h : flatLookup k a l = some e) :
    e ∈ l ∧ serves k a e = true := by
  rw [flatLookup, List.findRev?_eq_find?_reverse] at h
  exact ⟨by simpa using List.mem_of_find?_eq_some h, List.find?_some h⟩

/-- A lookup over two lists: the later one first. -/
theorem flatLookup_append (k : Kind) (a : Addr) (l m : List FlatEntry) :
    flatLookup k a (l ++ m) = (flatLookup k a m).or (flatLookup k a l) := by
  simp [flatLookup, List.findRev?_eq_find?_reverse, List.find?_append]

/-! ### Draws -/

@[simp] theorem drawDatum_snd (n : Width) (e : Event) (s : State) : (drawDatum n e s).2 = s.drawn e := rfl
@[simp] theorem drawDatum_fst (n : Width) (e : Event) (s : State) : (drawDatum n e s).1 = datumOf n s.answer := rfl
@[simp] theorem datumWidth_datumOf (n : Width) (x : BitVec 32) : datumWidth (datumOf n x) = n := by cases n <;> rfl

theorem answer_congr {s t : State} (ha : t.answers = s.answers) (hd : t.draws = s.draws) : t.answer = s.answer := by
  simp [State.answer, ha, hd]

end Sys2Proof.Machine
end

