-- ==== Sys2Proof/Laws/Encoding.lean ====
section
/-! SUPPORT. The fields of a packed bundle and a packed key (spec/30_encoding.md R85, R90). -/

namespace Sys2Proof

/-- Every bit of a packed bundle. -/
theorem packBundle_bit (op : BitVec 4) (a : Addr) (d : Word) (i : Nat) :
    (packBundle op a d).getLsbD i =
      if i < 16 then d.getLsbD i else if i - 16 < 32 then a.getLsbD (i - 16) else op.getLsbD (i - 16 - 32) := by
  show (op ++ a ++ d : BitVec (4 + 32 + 16)).getLsbD i = _
  rw [BitVec.getLsbD_append, BitVec.getLsbD_append]

/-- Every bit of a packed key. -/
theorem packKey_bit (o : RegOff) (v : Byte) (i : Nat) :
    (packKey o v).getLsbD i = if i < 8 then v.getLsbD i else o.getLsbD (i - 8) := by
  show (o ++ v : BitVec (5 + 8)).getLsbD i = _
  rw [BitVec.getLsbD_append]

@[simp] theorem bundleOp_pack (op : BitVec 4) (a : Addr) (d : Word) : bundleOp (packBundle op a d) = op := by
  apply BitVec.eq_of_getLsbD_eq
  intro i hi
  rw [bundleOp, BitVec.getLsbD_extractLsb', packBundle_bit, if_neg (by omega), if_neg (by omega),
    show 48 + i - 16 - 32 = i by omega]
  simp [hi]

@[simp] theorem bundleA_pack (op : BitVec 4) (a : Addr) (d : Word) : bundleA (packBundle op a d) = a := by
  apply BitVec.eq_of_getLsbD_eq
  intro i hi
  rw [bundleA, BitVec.getLsbD_extractLsb', packBundle_bit, if_neg (by omega), if_pos (by omega),
    show 16 + i - 16 = i by omega]
  simp [hi]

@[simp] theorem bundleD_pack (op : BitVec 4) (a : Addr) (d : Word) : bundleD (packBundle op a d) = d := by
  apply BitVec.eq_of_getLsbD_eq
  intro i hi
  rw [bundleD, BitVec.getLsbD_extractLsb', packBundle_bit, if_pos (by omega), Nat.zero_add]
  simp [hi]

@[simp] theorem keyOffset_pack (o : RegOff) (v : Byte) : keyOffset (packKey o v) = o := by
  apply BitVec.eq_of_getLsbD_eq
  intro i hi
  rw [keyOffset, BitVec.getLsbD_extractLsb', packKey_bit, if_neg (by omega), show 8 + i - 8 = i by omega]
  simp [hi]

@[simp] theorem keyData_pack (o : RegOff) (v : Byte) : keyData (packKey o v) = v := by
  apply BitVec.eq_of_getLsbD_eq
  intro i hi
  rw [keyData, BitVec.getLsbD_extractLsb', packKey_bit, if_pos (by omega), Nat.zero_add]
  simp [hi]

/-- The low byte of a byte widened to a word. -/
theorem low_of_widened (v : Byte) : (v.setWidth 16).extractLsb' 0 8 = v := by
  apply BitVec.eq_of_getLsbD_eq
  intro i hi
  simp [hi]
  omega

/-- A key is its two fields, packed. -/
theorem packKey_fields (k : BitVec 13) : packKey (keyOffset k) (keyData k) = k := by
  apply BitVec.eq_of_getLsbD_eq
  intro i hi
  rw [packKey_bit, keyOffset, keyData, BitVec.getLsbD_extractLsb', BitVec.getLsbD_extractLsb']
  by_cases h : i < 8
  · simp [h]
  · simp [h, show i - 8 < 5 by omega, show 8 + (i - 8) = i by omega]

end Sys2Proof
end

