-- ==== Sys2Proof/Laws/Mapping.lean ====
section
/-! SUPPORT. What the mapping operations can do: EXPAND.I, EXPAND.R, the actions, RECOMPUTE (spec/41_mirror_expander.md,
spec/42_mapping_manager.md). -/

namespace Sys2Proof.Machine

/-- `t` differs from `s` at most in what a recompute writes (42_mapping_manager.md R150). -/
def MapFrame (s t : State) : Prop :=
  t = { s with soft := t.soft, mwi := t.mwi, flat := t.flat, built := t.built }

theorem MapFrame.refl (s : State) : MapFrame s s := rfl

theorem MapFrame.trans {s t u : State} (h : MapFrame s t) (k : MapFrame t u) : MapFrame s u := by
  unfold MapFrame at *
  rw [k, h]

/-- The fields a recompute does not write. -/
theorem MapFrame.fields {s t : State} (h : MapFrame s t) :
    t.cfg = s.cfg ∧ t.regs = s.regs ∧ t.guard = s.guard ∧ t.hookR = s.hookR ∧ t.hookW = s.hookW ∧ t.live = s.live ∧
    t.out = s.out ∧ t.q = s.q ∧ t.pending = s.pending ∧ t.answers = s.answers ∧ t.draws = s.draws := by
  rw [h]; simp

theorem mapFrame_setSoft (s : State) (r : SoftId) (x : SoftRegion) : MapFrame s (s.setSoft r x) := rfl
theorem mapFrame_setMwi (s : State) (n : Nat) : MapFrame s (s.setMwi n) := rfl
theorem mapFrame_addFlat (s : State) (es : List FlatEntry) : MapFrame s (s.addFlat es) := rfl
theorem mapFrame_cleared (s : State) : MapFrame s s.cleared := rfl

/-- A fold of operations that keep the frame keeps it. -/
theorem mapFrame_foldl {α : Type} {f : State → α → State} (hf : ∀ s a, MapFrame s (f s a)) (l : List α) (s : State) :
    MapFrame s (l.foldl f s) := by
  induction l generalizing s with
  | nil => exact .refl s
  | cons a l ih => exact (hf s a).trans (ih _)

/-! ### EXPAND.I -/

/-- The entries EXPAND.I appends. -/
def installedEntries (c : ComputedRegion) (backing : Backing) (kinds : Kinds) : List FlatEntry :=
  if c.mirrorMask = 0 then []
  else (aliases c).map fun b => { start := b.start, stop := b.stop, backing := backing, kinds := kinds }

/-- All that EXPAND.I does. -/
theorem expandInstalling_eq (c : ComputedRegion) (b : Backing) (k : Kinds) (s : State) :
    expandInstalling c b k s = s.addFlat (installedEntries c b k) := by
  unfold expandInstalling installedEntries
  split
  · simp [State.addFlat]
  · rfl

/-! ### EXPAND.R -/

/-- The mirror table after the aliases `l` are recorded from index `m` on. -/
def recordedTable (mir : Vector Bounds 32) (m : Nat) (l : List Bounds) : Vector Bounds 32 :=
  Vector.ofFn fun i : Fin 32 => if h : m ≤ i.val ∧ i.val - m < l.length then l[i.val - m] else mir[i]

theorem recordedTable_nil (mir : Vector Bounds 32) (m : Nat) : recordedTable mir m [] = mir := by
  apply Vector.ext; intro i hi; simp [recordedTable]

theorem recordedTable_full (mir : Vector Bounds 32) {m : Nat} (h : ¬ m < 32) (l : List Bounds) :
    recordedTable mir m l = mir := by
  apply Vector.ext; intro i hi
  have : ¬ m ≤ i := by omega
  simp [recordedTable, this]

theorem recordedTable_cons (mir : Vector Bounds 32) {m : Nat} (h : m < 32) (b : Bounds) (l : List Bounds) :
    recordedTable (mir.setIfInBounds m b) (m + 1) l = recordedTable mir m (b :: l) := by
  apply Vector.ext; intro i hi
  simp only [recordedTable, Vector.getElem_ofFn, Fin.getElem_fin, Vector.getElem_setIfInBounds, List.length_cons]
  rcases Nat.lt_trichotomy i m with hlt | heq | hgt
  · rw [dif_neg (by omega), dif_neg (by omega), if_neg (by omega)]
  · subst heq
    rw [dif_neg (by omega), dif_pos (by omega), if_pos rfl]
    simp
  · by_cases hl : i - (m + 1) < l.length
    · rw [dif_pos (by omega), dif_pos (by omega), List.getElem_cons, dif_neg (by omega)]
      congr 1
    · rw [dif_neg (by omega), dif_neg (by omega), if_neg (by omega)]

/-- All that recording a list of aliases does (41_mirror_expander.md R139, R141). -/
theorem record_foldl (r : SoftId) (l : List Bounds) (s : State) :
    l.foldl (recordAlias r) s =
      (s.setSoft r { s.soft.get r with mir := recordedTable (s.soft.get r).mir s.mwi l }).setMwi
        (if s.mwi < 32 then min 32 (s.mwi + l.length) else s.mwi) := by
  induction l generalizing s with
  | nil =>
    have hm : (if s.mwi < 32 then min 32 (s.mwi + 0) else s.mwi) = s.mwi := by split <;> omega
    have hp : s.soft.put r (s.soft.get r) = s.soft := put_get_self _ _
    rw [recordedTable_nil, List.length_nil, hm]
    simp only [List.foldl_nil, State.setSoft, State.setMwi, hp]
  | cons b l ih =>
    rw [List.foldl_cons, ih]
    unfold recordAlias
    by_cases h : s.mwi < 32
    · simp only [h, if_true, setMwi_mwi, setMwi_soft, setSoft_soft, get_put_self, setMirror_mir, setMirror_start,
        setMirror_stop, recordedTable_cons _ h]
      simp only [State.setSoft, State.setMwi, put_put, SoftRegion.setMirror, List.length_cons]
      congr 1
      split <;> omega
    · simp [h, recordedTable_full]

/-- All that EXPAND.R does (41_mirror_expander.md R139 to R141). -/
theorem expandRecording_eq (c : ComputedRegion) (r : SoftId) (s : State) :
    expandRecording c r s =
      if c.mirrorMask = 0 then s.setMwi 0
      else (s.setSoft r { s.soft.get r with mir := recordedTable (s.soft.get r).mir 0 (aliases c) }).setMwi
        (min 32 (aliases c).length) := by
  unfold expandRecording
  split
  · rfl
  · rw [record_foldl]; simp [State.setSoft, State.setMwi]

theorem expandRecording_frame (c : ComputedRegion) (r : SoftId) (s : State) : MapFrame s (expandRecording c r s) := by
  rw [expandRecording_eq]; split <;> rfl

theorem expandRecording_mwi_le (c : ComputedRegion) (r : SoftId) (s : State) : (expandRecording c r s).mwi ≤ 32 := by
  rw [expandRecording_eq]; split <;> simp

/-! ### Actions and RECOMPUTE -/

/-- All that a Flat action does: the primary, then the aliases (42_mapping_manager.md R152). -/
theorem applyAction_flat (slot : Fin 8) (s : State) (b : Backing) (k : Kinds) (l m o : Addr) :
    applyAction slot s (.flat b k l m o) =
      s.addFlat ({ start := (computeSlot s.regs slot l m o).start, stop := (computeSlot s.regs slot l m o).stop,
                   backing := b, kinds := k } :: installedEntries (computeSlot s.regs slot l m o) b k) := by
  simp [applyAction, applyRegion, actionRegion, expandInstalling_eq, State.addFlat]

/-- A Soft action: the primary, then the recording (42_mapping_manager.md R152). -/
theorem applyAction_soft (slot : Fin 8) (s : State) (r : SoftId) (l m o : Addr) :
    applyAction slot s (.soft r l m o) =
      expandRecording (computeSlot s.regs slot l m o) r (s.setSoft r ((s.soft.get r).setPrimary
        (computeSlot s.regs slot l m o).start (computeSlot s.regs slot l m o).stop)) := rfl

theorem applyAction_frame (slot : Fin 8) (s : State) (act : SlotAction) : MapFrame s (applyAction slot s act) := by
  cases act with
  | flat => rw [applyAction_flat]; rfl
  | soft => exact (mapFrame_setSoft _ _ _).trans (expandRecording_frame _ _ _)

theorem applySlot_frame (t : SlotTable) (s : State) (slot : Fin 8) : MapFrame s (applySlot t s slot) :=
  mapFrame_foldl (applyAction_frame slot) _ s

/-- RECOMPUTE writes the mapping and nothing else (42_mapping_manager.md R150). -/
theorem recompute_frame (s : State) : MapFrame s (recompute s) := by
  unfold recompute
  split
  · exact mapFrame_cleared s
  · exact (mapFrame_cleared s).trans (mapFrame_foldl (applySlot_frame _) _ _)

theorem applyAction_built (slot : Fin 8) (s : State) (act : SlotAction) : (applyAction slot s act).built = s.built := by
  cases act with
  | flat => rw [applyAction_flat]; rfl
  | soft => rw [applyAction_soft, expandRecording_eq]; split <;> rfl

theorem foldl_built {α : Type} {f : State → α → State} (hf : ∀ s a, (f s a).built = s.built) (l : List α) (s : State) :
    (l.foldl f s).built = s.built := by
  induction l generalizing s with
  | nil => rfl
  | cons a l ih => rw [List.foldl_cons, ih, hf]

/-- RECOMPUTE sets `built` (42_mapping_manager.md R150). -/
@[simp] theorem recompute_built (s : State) : (recompute s).built = true := by
  unfold recompute
  split
  · rfl
  · exact foldl_built (fun s i => foldl_built (applyAction_built i) _ s) _ _

theorem applyAction_mwi_le (slot : Fin 8) {s : State} (h : s.mwi ≤ 32) (act : SlotAction) :
    (applyAction slot s act).mwi ≤ 32 := by
  cases act with
  | flat => rw [applyAction_flat]; exact h
  | soft => exact expandRecording_mwi_le _ _ _

theorem foldl_mwi_le {α : Type} {f : State → α → State} (hf : ∀ {s}, s.mwi ≤ 32 → ∀ a, (f s a).mwi ≤ 32) (l : List α)
    {s : State} (h : s.mwi ≤ 32) : (l.foldl f s).mwi ≤ 32 := by
  induction l generalizing s with
  | nil => exact h
  | cons a l ih => exact ih (hf h a)

/-- The write index stays in 0..32 (10_state.md R27). -/
theorem recompute_mwi_le (s : State) : (recompute s).mwi ≤ 32 := by
  unfold recompute
  split
  · exact Nat.zero_le _
  · exact foldl_mwi_le (fun h i => foldl_mwi_le (fun h => applyAction_mwi_le i h) _ h) _ (Nat.zero_le _)

@[simp] theorem recompute_cfg (s : State) : (recompute s).cfg = s.cfg := (recompute_frame s).fields.1
@[simp] theorem recompute_regs (s : State) : (recompute s).regs = s.regs := (recompute_frame s).fields.2.1
@[simp] theorem recompute_guard (s : State) : (recompute s).guard = s.guard := (recompute_frame s).fields.2.2.1
@[simp] theorem recompute_hookR (s : State) : (recompute s).hookR = s.hookR := (recompute_frame s).fields.2.2.2.1
@[simp] theorem recompute_hookW (s : State) : (recompute s).hookW = s.hookW := (recompute_frame s).fields.2.2.2.2.1
@[simp] theorem recompute_live (s : State) : (recompute s).live = s.live := (recompute_frame s).fields.2.2.2.2.2.1
@[simp] theorem recompute_out (s : State) : (recompute s).out = s.out := (recompute_frame s).fields.2.2.2.2.2.2.1
@[simp] theorem recompute_q (s : State) : (recompute s).q = s.q := (recompute_frame s).fields.2.2.2.2.2.2.2.1
@[simp] theorem recompute_pending (s : State) : (recompute s).pending = s.pending :=
  (recompute_frame s).fields.2.2.2.2.2.2.2.2.1
@[simp] theorem recompute_answers (s : State) : (recompute s).answers = s.answers :=
  (recompute_frame s).fields.2.2.2.2.2.2.2.2.2.1
@[simp] theorem recompute_draws (s : State) : (recompute s).draws = s.draws :=
  (recompute_frame s).fields.2.2.2.2.2.2.2.2.2.2

/-! ### Bit deposits -/

/-- Every bit of a single set bit. -/
theorem oneBit (p i : Nat) (h : i < 32) : (1#32 <<< p).getLsbD i = decide (i = p) := by
  rw [BitVec.getLsbD_shiftLeft]
  simp [h]
  by_cases h1 : i < p
  · simp [h1]; omega
  · simp [h1]; omega

theorem mem_setBits {m : Addr} {lo n i : Nat} : i ∈ setBits m lo n ↔ lo ≤ i ∧ i < lo + n ∧ m.getLsbD i = true := by
  simp [setBits, and_assoc]

theorem setBits_nodup (m : Addr) (lo n : Nat) : (setBits m lo n).Nodup := List.Nodup.filter _ List.nodup_range'

/-- The two groups together are all the set bits, ascending (41_mirror_expander.md R136). -/
theorem setBits_groups (m : Addr) : setBits m 0 32 = lowGroup m ++ highGroup m := by
  unfold lowGroup highGroup setBits
  rw [← List.filter_append]
  rfl

/-- Every bit of a deposit (41_mirror_expander.md R137). -/
theorem depositBits_bit (l : List Nat) (hn : l.Nodup) : ∀ c i, i < 32 →
    ((depositBits l c).getLsbD i = true ↔ ∃ j, ∃ h : j < l.length, l[j] = i ∧ c.testBit j = true) := by
  induction l with
  | nil => intro c i hi; simp [depositBits]
  | cons p ps ih =>
    intro c i hi
    simp only [depositBits, BitVec.getLsbD_or, Bool.or_eq_true, ih (List.nodup_cons.mp hn).2 _ _ hi]
    have h1 : (if c % 2 = 1 then 1#32 <<< p else 0).getLsbD i = true ↔ c.testBit 0 = true ∧ p = i := by
      split
      · rename_i h
        rw [oneBit _ _ hi]; simp [Nat.testBit_zero, h]; exact eq_comm
      · rename_i h; simp [h]
    rw [h1]
    constructor
    · rintro (⟨a, b⟩ | ⟨j, hj, hl, hc⟩)
      · exact ⟨0, by simp, b, a⟩
      · exact ⟨j + 1, by simpa using hj, hl, by rw [Nat.testBit_succ]; exact hc⟩
    · rintro ⟨j, hj, hl, hc⟩
      cases j with
      | zero => exact .inl ⟨hc, hl⟩
      | succ j =>
        rw [Nat.testBit_succ] at hc
        exact .inr ⟨j, by simpa using hj, hl, hc⟩

/-! ### A recompute as one fold -/

/-- The (slot, action) pairs of a table, in the order a recompute applies them (42_mapping_manager.md R157). -/
def actionsInOrder (t : SlotTable) : List (Fin 8 × SlotAction) := slotOrder.flatMap fun i => (t[i]).map fun a => (i, a)

theorem mem_actionsInOrder {t : SlotTable} {i : Fin 8} {a : SlotAction} : (i, a) ∈ actionsInOrder t ↔ a ∈ t[i] := by
  have h : ∀ i : Fin 8, i ∈ slotOrder := by decide
  simp [actionsInOrder, h]

/-- A recompute under a supported profile: the clearing, then the actions one after the other. -/
theorem recompute_of_table {s : State} {t : SlotTable} (h : s.cfg.table = some t) :
    recompute s = (actionsInOrder t).foldl (fun s p => applyAction p.1 s p.2) s.cleared := by
  unfold recompute actionsInOrder
  rw [h, List.foldl_flatMap]
  simp only []
  congr 1
  funext s i
  unfold applySlot
  rw [List.foldl_map]

theorem applyAction_regs (i : Fin 8) (s : State) (a : SlotAction) : (applyAction i s a).regs = s.regs :=
  (applyAction_frame i s a).fields.2.1

end Sys2Proof.Machine
end

