-- ==== Sys2Proof/Laws/PerInstr.lean ====
section
/-! SUPPORT. Statements made per operation. The family `MatchesRow`: the canonical encoding of a well-formed operation
under the reference offsets has the match bits of its row of spec/opcode_table.json. -/

namespace Sys2Proof.Laws

/-- The op field of the row of a bundle operation (spec/opcode_table.json, `match` under the mask 0xF000000000000). -/
def rowOp : Instr → Option (BitVec 4)
  | .rdb _ => some 0x0
  | .rdw _ => some 0x1
  | .wrb _ _ => some 0x2
  | .wrw _ _ => some 0x3
  | .ftw _ => some 0x4
  | .reserved5 => some 0x5
  | .reserved6 => some 0x6
  | .reserved7 => some 0x7
  | .init => some 0x8
  | .exit => some 0x9
  | .rst => some 0xA
  | .cfg _ => some 0xB
  | .sethook _ _ => some 0xC
  | .save => some 0xD
  | .restore _ => some 0xE
  | .reservedF => some 0xF
  | .regwrDesc _ _ => none
  | .regwrMode _ => none
  | .regwrSndlatch _ => none
  | .regwrIrq _ => none
  | .regwrDma _ => none
  | .regwrPlain _ _ => none
  | .regrd _ => none
  | .compute _ _ _ _ => none
  | .expandI _ _ _ => none
  | .expandR _ _ => none
  | .recompute => none
  | .openbus => none

/-- The (match, mask) pairs of the rows of a register command (spec/opcode_table.json). -/
def rowKeys : Instr → List (BitVec 13 × BitVec 13)
  | .regwrDesc _ _ => [(0x1000, 0x1000)]
  | .regwrMode _ => [(0x0200, 0x1F00)]
  | .regwrSndlatch _ => [(0x0300, 0x1F00)]
  | .regwrIrq _ => [(0x0400, 0x1F00)]
  | .regwrDma _ => [(0x0500, 0x1F00)]
  | .regwrPlain _ _ => [(0x0000, 0x1E00), (0x0600, 0x1E00), (0x0800, 0x1800)]
  | _ => []

/-- The encoded form lies in the operation's row. -/
def inRow (i : Instr) : Encoded → Prop
  | .bundle t _ => rowOp i = some (bundleOp t)
  | .regKey k => ∃ r ∈ rowKeys i, k &&& r.2 = r.1
  | .regOffset o => i = .regrd o

end Sys2Proof.Laws

namespace Sys2Proof.Laws.MatchesRow

/-- The canonical encoding of a well-formed operation lies in its row. -/
def Statement (i : Instr) : Prop :=
  ∀ st, i.wellFormed REFCFG = true → encode REFCFG i = some st → inRow i st

theorem rdb (a) : Statement (.rdb a) := by rintro _ _ ⟨⟩; simp [inRow, rowOp]
theorem rdw (a) : Statement (.rdw a) := by rintro _ _ ⟨⟩; simp [inRow, rowOp]
theorem wrb (a d) : Statement (.wrb a d) := by rintro _ _ ⟨⟩; simp [inRow, rowOp]
theorem wrw (a d) : Statement (.wrw a d) := by rintro _ _ ⟨⟩; simp [inRow, rowOp]
theorem ftw (a) : Statement (.ftw a) := by rintro _ _ ⟨⟩; simp [inRow, rowOp]
theorem reserved5 : Statement .reserved5 := by rintro _ _ ⟨⟩; simp [inRow, rowOp]
theorem reserved6 : Statement .reserved6 := by rintro _ _ ⟨⟩; simp [inRow, rowOp]
theorem reserved7 : Statement .reserved7 := by rintro _ _ ⟨⟩; simp [inRow, rowOp]
theorem init : Statement .init := by rintro _ _ ⟨⟩; simp [inRow, rowOp]
theorem exit : Statement .exit := by rintro _ _ ⟨⟩; simp [inRow, rowOp]
theorem rst : Statement .rst := by rintro _ _ ⟨⟩; simp [inRow, rowOp]
theorem cfg (b) : Statement (.cfg b) := by rintro _ _ ⟨⟩; simp [inRow, rowOp]
theorem sethook (r w) : Statement (.sethook r w) := by rintro _ _ ⟨⟩; simp [inRow, rowOp]
theorem save : Statement .save := by rintro _ _ ⟨⟩; simp [inRow, rowOp]
theorem restore (p) : Statement (.restore p) := by rintro _ _ ⟨⟩; simp [inRow, rowOp]
theorem reservedF : Statement .reservedF := by rintro _ _ ⟨⟩; simp [inRow, rowOp]

/-- The offset field of a key under a mask of offset bits. -/
theorem key_and (o : RegOff) (v : Byte) (m : RegOff) : packKey o v &&& packKey m 0 = packKey (o &&& m) 0 := by
  apply BitVec.eq_of_getLsbD_eq
  intro i hi
  rw [BitVec.getLsbD_and, packKey_bit, packKey_bit, packKey_bit]
  by_cases h : i < 8 <;> simp [h]

theorem regwrDesc (j v) : Statement (.regwrDesc j v) := by
  rintro _ - ⟨⟩
  refine ⟨_, List.mem_singleton_self _, (key_and (descOffset j) v 0x10).trans ?_⟩
  show packKey (descOffset j &&& 0x10) 0 = 0x1000#13
  clear v; revert j; decide
theorem regwrMode (v) : Statement (.regwrMode v) := by
  rintro _ _ ⟨⟩
  exact ⟨_, List.mem_singleton_self _, key_and 0x02 v 0x1F⟩
theorem regwrSndlatch (v) : Statement (.regwrSndlatch v) := by
  rintro _ _ ⟨⟩
  exact ⟨_, List.mem_singleton_self _, key_and 0x03 v 0x1F⟩
theorem regwrIrq (v) : Statement (.regwrIrq v) := by
  rintro _ _ ⟨⟩
  exact ⟨_, List.mem_singleton_self _, key_and 0x04 v 0x1F⟩
theorem regwrDma (v) : Statement (.regwrDma v) := by
  rintro _ _ ⟨⟩
  exact ⟨_, List.mem_singleton_self _, key_and 0x05 v 0x1F⟩
theorem regwrPlain (o v) : Statement (.regwrPlain o v) := by
  rintro _ hw ⟨⟩
  have h : packKey (lowOffset o &&& 0x1E) 0 = 0x0000#13 ∨ packKey (lowOffset o &&& 0x1E) 0 = 0x0600#13 ∨
      packKey (lowOffset o &&& 0x18) 0 = 0x0800#13 := by
    replace hw : plainOffset REFCFG (lowOffset o) = true := hw
    clear v; revert hw; revert o; decide
  rcases h with h | h | h
  · exact ⟨(0x0000, 0x1E00), by simp [rowKeys], (key_and (lowOffset o) v 0x1E).trans h⟩
  · exact ⟨(0x0600, 0x1E00), by simp [rowKeys], (key_and (lowOffset o) v 0x1E).trans h⟩
  · exact ⟨(0x0800, 0x1800), by simp [rowKeys], (key_and (lowOffset o) v 0x18).trans h⟩
theorem regrd (o) : Statement (.regrd o) := by rintro _ _ ⟨⟩; rfl

theorem compute (slot l m o) : Statement (.compute slot l m o) := by rintro _ _ ⟨⟩
theorem expandI (c b k) : Statement (.expandI c b k) := by rintro _ _ ⟨⟩
theorem expandR (c r) : Statement (.expandR c r) := by rintro _ _ ⟨⟩
theorem recompute : Statement .recompute := by rintro _ _ ⟨⟩
theorem openbus : Statement .openbus := by rintro _ _ ⟨⟩

end Sys2Proof.Laws.MatchesRow
end

