-- ==== Sys2Proof/Laws/Routing.lean ====
section
/-! SUPPORT. What the accesses can do: reads, the open-bus read, writes and register writes (spec/43_bus_router_read.md,
spec/44_bus_router_write.md, spec/45_register_commands.md). -/

namespace Sys2Proof.Machine

/-- `t` differs from `s` at most in the trace, which has grown, and in the oracle's place (20_memory.md R66). -/
def ReadFrame (s t : State) : Prop :=
  t = { s with out := t.out, answers := t.answers, draws := t.draws } ∧ s.out <+: t.out

theorem ReadFrame.refl (s : State) : ReadFrame s s := ⟨rfl, List.prefix_refl _⟩

theorem ReadFrame.trans {s t u : State} (h : ReadFrame s t) (k : ReadFrame t u) : ReadFrame s u := by
  refine ⟨?_, h.2.trans k.2⟩
  have h1 := h.1
  have k1 := k.1
  rw [k1, h1]

theorem readFrame_drawn (s : State) (e : Event) : ReadFrame s (s.drawn e) := ⟨rfl, List.prefix_append _ _⟩

/-! ### Reads -/

/-- The read of a hit draws exactly one answer. -/
theorem readDispatch_snd (p : ReadPort) (a st : Addr) (n : Width) (s : State) :
    ∃ e, (readDispatch p a st n s).2 = s.drawn e := by
  cases p
  · unfold readDispatch ioRead
    simp only
    split <;> exact ⟨_, rfl⟩
  · exact ⟨_, rfl⟩
  · exact ⟨_, rfl⟩

/-- A word read of a hit answers a word. -/
theorem readDispatch_word (p : ReadPort) (a st : Addr) (s : State) :
    (readDispatch p a st .word s).1 = .word (s.answer.setWidth 16) := by
  cases p
  · unfold readDispatch ioRead
    simp only
    split <;> rfl
  · rfl
  · rfl

/-- A miss changes nothing unless it is the open-bus read of a word at an unrecognised offset. -/
theorem readMiss_byte (ob : State → Datum × State) (a : Addr) (s : State) :
    readMiss ob a .byte s = (.byte ((regRead s (selectReg s.cfg.regSel a)).getD 0xFF), s) := by
  unfold readMiss
  cases regRead s (selectReg s.cfg.regSel a) <;> rfl

theorem readMiss_word_some {ob : State → Datum × State} {a : Addr} {s : State} {v : Byte}
    (h : regRead s (selectReg s.cfg.regSel a) = some v) : readMiss ob a .word s = (.word (s.cfg.regWordHi ++ v), s) := by
  unfold readMiss
  rw [h]

theorem readMiss_word_none {ob : State → Datum × State} {a : Addr} {s : State}
    (h : regRead s (selectReg s.cfg.regSel a) = none) : readMiss ob a .word s = ob s := by
  unfold readMiss
  rw [h]

/-- A read consults its open-bus argument at the state it is given, and nowhere else. -/
theorem accessRead_congr {ob ob' : State → Datum × State} {s : State} (h : ob s = ob' s) (k : Kind) (a : Addr) (n : Width) :
    accessRead ob k a n s = accessRead ob' k a n s := by
  unfold accessRead routeRead readMiss
  rw [h]

/-- All that a read changes is the trace and the oracle's place, if its open-bus argument changes no more. -/
theorem accessRead_frame {ob : State → Datum × State} {s : State} (h : ReadFrame s (ob s).2) (k : Kind) (a : Addr)
    (n : Width) : ReadFrame s (accessRead ob k a n s).2 := by
  unfold accessRead
  cases flatLookup k a s.flat with
  | some e => exact readFrame_drawn _ _
  | none =>
    simp only [routeRead]
    cases readHit s.soft n a with
    | some p =>
      obtain ⟨e, he⟩ := readDispatch_snd p.1 a p.2 n s
      simp only [he]
      exact readFrame_drawn _ _
    | none =>
      cases n with
      | byte => rw [readMiss_byte]; exact .refl s
      | word =>
        cases hv : regRead s (selectReg s.cfg.regSel a) with
        | some v => rw [readMiss_word_some hv]; exact .refl s
        | none => rw [readMiss_word_none hv]; exact h

/-- OPENBUS with the guard clear (43_bus_router_read.md R186). -/
theorem openBus_of_clear {s : State} (h : s.guard = false) :
    openBus s =
      ((accessRead reenteredOpenBus .R s.answer .word ((s.setGuard true).drawn .pcQuery)).1,
       (accessRead reenteredOpenBus .R s.answer .word ((s.setGuard true).drawn .pcQuery)).2.setGuard false) := by
  simp [openBus, h]

/-- OPENBUS with the guard set (43_bus_router_read.md R187). -/
theorem openBus_of_set {s : State} (h : s.guard = true) : openBus s = (.word 0xFFFF, s) := by
  simp [openBus, h, reenteredOpenBus]

/-- OPENBUS changes the trace and the oracle's place only: the guard is restored (20_memory.md R66). -/
theorem openBus_frame (s : State) : ReadFrame s (openBus s).2 := by
  cases h : s.guard with
  | true => rw [openBus_of_set h]; exact .refl s
  | false =>
    rw [openBus_of_clear h]
    have hf := accessRead_frame (ob := reenteredOpenBus) (s := (s.setGuard true).drawn .pcQuery) (.refl _)
      .R s.answer .word
    generalize accessRead reenteredOpenBus .R s.answer .word ((s.setGuard true).drawn .pcQuery) = r at hf
    obtain ⟨h1, h2⟩ := hf
    refine ⟨?_, ?_⟩
    · simp only [State.setGuard]
      rw [h1]
      simp [h]
    · exact (List.prefix_append s.out [Event.pcQuery]).trans h2

/-- All that a read can change, whatever its kind and width. -/
theorem accessRead_openBus_frame (k : Kind) (a : Addr) (n : Width) (s : State) :
    ReadFrame s (accessRead openBus k a n s).2 := accessRead_frame (openBus_frame s) k a n

/-! ### Writes -/

/-- The write of a hit emits exactly one event (44_bus_router_write.md R205). -/
theorem writeDispatch_emit (r : SoftId) (a st : Addr) (d : Datum) (s : State) :
    ∃ e, writeDispatch r a st d s = s.emit e := by
  cases r
  · unfold writeDispatch ioWrite
    simp only
    split <;> exact ⟨_, rfl⟩
  all_goals exact ⟨_, rfl⟩

/-- The three things a write can be: served by a flat mapping, handed to one bridge, or a register write. -/
theorem accessWrite_cases (a : Addr) (d : Datum) (s : State) :
    (∃ e, flatLookup .W a s.flat = some e ∧
      accessWrite a d s = s.emit (.flatAccess .W e.backing (a - e.start) (datumWidth d) (some d))) ∨
    (flatLookup .W a s.flat = none ∧ ∃ r st, writeHit s.soft a = some (r, st) ∧
      accessWrite a d s = writeDispatch r a st d s) ∨
    (flatLookup .W a s.flat = none ∧ writeHit s.soft a = none ∧
      accessWrite a d s = regWrite (selectReg s.cfg.regSel a) (datumLow d) s) := by
  unfold accessWrite
  cases hf : flatLookup .W a s.flat with
  | some e => exact .inl ⟨e, rfl, by simp⟩
  | none =>
    right
    simp only [routeWrite]
    cases hw : writeHit s.soft a with
    | some p => exact .inl ⟨trivial, p.1, p.2, rfl, rfl⟩
    | none => exact .inr ⟨trivial, rfl, rfl⟩

/-! ### Register writes -/

theorem regWrite_desc {o : RegOff} (h : o.getLsbD 4 = true) (v : Byte) (s : State) :
    regWrite o v s = descEffect (s.reg o) v (s.setReg o v) := by
  simp [regWrite, h]

/-- The offsets of a well-formed configuration are below 0x10 and the named three are distinct (00_scope.md R7). -/
theorem offsets_of_wf {c : Config} (h : c.wf = true) :
    c.regMode ≠ c.regSndlatch ∧ c.regMode ≠ c.regIrq ∧ c.regSndlatch ≠ c.regIrq ∧ c.regMode < 0x10#5 ∧
    c.regSndlatch < 0x10#5 ∧ c.regIrq < 0x10#5 ∧ c.regDma < 0x10#5 := by
  simp only [Config.wf, Config.offsetsOk, Bool.and_eq_true, decide_eq_true_eq] at h
  tauto

/-- An offset below 0x10 is no descriptor's. -/
theorem low_of_lt {o : RegOff} (h : o < 0x10#5) : o.getLsbD 4 = false := by
  revert h; revert o; decide

/-- What a machine reset request adds to the trace. -/
theorem requestMachineReset_eq (s : State) :
    requestMachineReset s =
      s.emits (if s.cfg.profile.encrypted = true then [.decryptReinit, .machineReset] else [.machineReset]) := rfl

/-- The chip reset writes the registers (if the parameter says so), the guard and the mapping (47_lifecycle.md R264). -/
theorem rstBody_fields (s : State) :
    (rstBody s).cfg = s.cfg ∧ (rstBody s).regs = (if s.cfg.resetClearsRegs = true then zeroRegs else s.regs) ∧
    (rstBody s).guard = false ∧ (rstBody s).hookR = s.hookR ∧ (rstBody s).hookW = s.hookW ∧ (rstBody s).live = s.live ∧
    (rstBody s).built = true ∧ (rstBody s).out = s.out ∧ (rstBody s).q = s.q ∧ (rstBody s).pending = s.pending ∧
    (rstBody s).answers = s.answers ∧ (rstBody s).draws = s.draws := by
  unfold rstBody
  split <;> simp_all

/-- What a write can never change: the parameters, `live`, the hooks, the model's own fields; the trace only grows, `built`
stays set and the guard stays clear. -/
structure WriteFrame (s t : State) : Prop where
  cfg : t.cfg = s.cfg
  live : t.live = s.live
  hookR : t.hookR = s.hookR
  hookW : t.hookW = s.hookW
  pending : t.pending = s.pending
  answers : t.answers = s.answers
  draws : t.draws = s.draws
  out : s.out <+: t.out
  built : s.built = true → t.built = true
  guard : s.guard = false → t.guard = false

theorem WriteFrame.refl (s : State) : WriteFrame s s :=
  ⟨rfl, rfl, rfl, rfl, rfl, rfl, rfl, List.prefix_refl _, id, id⟩

theorem WriteFrame.trans {s t u : State} (h : WriteFrame s t) (k : WriteFrame t u) : WriteFrame s u :=
  ⟨k.cfg.trans h.cfg, k.live.trans h.live, k.hookR.trans h.hookR, k.hookW.trans h.hookW, k.pending.trans h.pending,
   k.answers.trans h.answers, k.draws.trans h.draws, h.out.trans k.out, fun x => k.built (h.built x),
   fun x => k.guard (h.guard x)⟩

theorem writeFrame_setReg (s : State) (o : RegOff) (v : Byte) : WriteFrame s (s.setReg o v) :=
  ⟨rfl, rfl, rfl, rfl, rfl, rfl, rfl, List.prefix_refl _, id, id⟩

theorem writeFrame_emits (s : State) (es : List Event) : WriteFrame s (s.emits es) :=
  ⟨rfl, rfl, rfl, rfl, rfl, rfl, rfl, List.prefix_append _ _, id, id⟩

theorem writeFrame_emit (s : State) (e : Event) : WriteFrame s (s.emit e) :=
  ⟨rfl, rfl, rfl, rfl, rfl, rfl, rfl, List.prefix_append _ _, id, id⟩

theorem writeFrame_recompute (s : State) : WriteFrame s (recompute s) := by constructor <;> simp

theorem writeFrame_rstBody (s : State) : WriteFrame s (rstBody s) := by constructor <;> simp [rstBody_fields]

theorem writeFrame_regWrite (o : RegOff) (v : Byte) (s : State) : WriteFrame s (regWrite o v s) := by
  have hs := writeFrame_setReg s o v
  unfold regWrite
  split
  · unfold descEffect; split
    · exact hs
    · exact hs.trans (writeFrame_recompute _)
  split
  · unfold modeEffect; split
    · split
      · exact hs.trans ((writeFrame_emits _ _).trans (writeFrame_rstBody _))
      · exact hs.trans (writeFrame_emits _ _)
    · exact hs
  split
  · unfold irqEffect; split
    · exact hs
    · exact hs.trans (writeFrame_emits _ _)
  split
  · unfold sndlatchEffect; split
    · exact hs
    · exact hs.trans (writeFrame_emit _ _)
  split
  · exact hs
  · exact hs

/-- All that a write can leave unchanged, whatever takes it. -/
theorem writeFrame_accessWrite (a : Addr) (d : Datum) (s : State) : WriteFrame s (accessWrite a d s) := by
  rcases accessWrite_cases a d s with ⟨e, -, h⟩ | ⟨-, r, st, -, h⟩ | ⟨-, -, h⟩
  · rw [h]; exact writeFrame_emit _ _
  · rw [h]; obtain ⟨e, he⟩ := writeDispatch_emit r a st d s; rw [he]; exact writeFrame_emit _ _
  · rw [h]; exact writeFrame_regWrite _ _ _

/-! ### A register command by its key -/

theorem lowOffset_extract (o : RegOff) (h : o.getLsbD 4 = false) : lowOffset (o.extractLsb' 0 4) = o := by
  revert o; decide

theorem descOffset_extract (o : RegOff) (h : o.getLsbD 4 = true) : descOffset (o.extractLsb' 0 4) = o := by
  revert o; decide

/-- The register command of a key is the register write of its two fields (30_encoding.md R85, 45_register_commands.md
R215). -/
theorem exec_decodeKey (s : State) (o : RegOff) (v : Byte) :
    exec (decodeKey s.cfg (packKey o v)) s = requireBuilt s (.next ((regWrite o v s).setQ .none)) := by
  unfold decodeKey regWrite
  simp only [keyOffset_pack, keyData_pack]
  split
  · rename_i h; show requireBuilt _ _ = _; rw [descOffset_extract _ h]
  rename_i h
  simp only [Bool.not_eq_true] at h
  split
  · subst o; rfl
  split
  · subst o; rfl
  split
  · subst o; rfl
  split
  · subst o; rfl
  · show requireBuilt _ _ = _; rw [lowOffset_extract _ h]

end Sys2Proof.Machine
end

