-- ==== Sys2Proof/Laws/Step.lean ====
section
/-! SUPPORT. What one step can do. -/

namespace Sys2Proof.Machine

theorem take_nil {s : State} (h : s.pending = []) : s.take = none := by simp [State.take, h]

theorem take_cons {s : State} {st : Stimulus} {rest : List Stimulus} (h : s.pending = st :: rest) :
    s.take = some (st, { s with pending := rest }) := by simp [State.take, h]

/-- A step that answers a next state was idle, or performed the first pending stimulus. -/
theorem step_next {s t : State} (h : step s = .next t) :
    (s.pending = [] ∧ t = s) ∨
    ∃ st rest, s.pending = st :: rest ∧ exec (decodeBundle st.bundle st.payload) { s with pending := rest } = .next t := by
  unfold step at h
  cases hp : s.pending with
  | nil =>
    rw [take_nil hp] at h
    simp only [idle, Host.Outcome.next.injEq] at h
    exact .inl ⟨rfl, h.symm⟩
  | cons st rest =>
    rw [take_cons hp] at h
    exact .inr ⟨st, rest, rfl, h⟩

/-- No bundle decodes to an internal procedure (30_encoding.md R80), or to a register command or read (00_scope.md R17). -/
theorem decodeBundle_opClass (t : BitVec 52) (p : Snapshot) :
    (decodeBundle t p).opClass = .bus ∨ (decodeBundle t p).opClass = .host ∨ (decodeBundle t p).opClass = .reserved := by
  unfold decodeBundle; split <;> simp [Instr.opClass]

/-- What the carrier of a register command key decodes to: the byte write to the key's register. -/
theorem decode_carrier_key (k : BitVec 13) :
    decodeBundle (Encoded.regKey k).carrier.bundle (Encoded.regKey k).carrier.payload =
      regw highRegisterBase (keyOffset k) (keyData k) := by
  simp only [Encoded.carrier, decodeBundle, bundleOp_pack, bundleA_pack, bundleD_pack, low_of_widened, regw]
  rfl

/-- What the carrier of a register offset decodes to: the byte read of the register. -/
theorem decode_carrier_offset (o : RegOff) :
    decodeBundle (Encoded.regOffset o).carrier.bundle (Encoded.regOffset o).carrier.payload = regr highRegisterBase o := by
  simp [Encoded.carrier, decodeBundle, regr]

/-- The step on a table row's word is exec of what its carrier decodes to. -/
theorem step_withFetchWord {s : State} {nbits w : Nat} {e : Encoded} (h : tableEncoded nbits w = some e) :
    step (s.withFetchWord nbits w) = exec (decodeBundle e.carrier.bundle e.carrier.payload) s := by
  simp [step, State.withFetchWord, State.presentTableWord, h, State.take, State.present]

end Sys2Proof.Machine
end

