-- ==== Sys2Proof/Tests/Slice0.lean ====
section
/-! SUPPORT. Tests. WellFormed: each check refuses an ill-formed term. Decoding: words written out from the encoding tables.
Steps: vectors of spec/95_test_vectors.md, at most two per operation, each named by its row there. Witnesses: for every
statement with hypotheses, states and operands that meet them, one per clause at its boundary. -/

namespace Sys2Proof.Tests

open Sys2Proof Sys2Proof.Machine

set_option maxRecDepth 20000

/-! ### Helpers -/

/-- The descriptor block CFGA of 95_test_vectors.md. -/
def cfgA : Block :=
  #v[0x02, 0x00, 0x02, 0x08, 0x00, 0xFE, 0x00, 0xFF, 0x00, 0xC4, 0x01, 0x40, 0x00, 0x84, 0x00, 0xC0]

/-- The reference parameters with another profile. -/
def under (p : Profile) : Config := { REFCFG with profile := p }

/-- Live, nothing built: the state after INIT, under a configuration. -/
def idleUnder (c : Config) : State := { State.reset with cfg := c, live := true }

/-- The state of vector row M1 (INIT; CFG CFGA), under a configuration. -/
def runUnder (c : Config) : State := recompute { idleUnder c with regs := storeBlock cfgA zeroRegs }

def up : State := idleUnder REFCFG
def run : State := runUnder REFCFG

/-- The answer is a next state of which `f` holds. -/
def after (r : StepResult) (f : State → Bool) : Bool :=
  match r with
  | .next t => f t
  | _ => false

/-- The refusal of an answer. -/
def refusalOf (r : StepResult) : Option Refusal :=
  match r with
  | .refused x => some x
  | _ => none

/-- The answer is a refusal. -/
def refuses (r : StepResult) : Bool :=
  match r with
  | .refused _ => true
  | _ => false

/-- One step on a table row's word. -/
def stepOn (s : State) (nbits w : Nat) : StepResult := step (s.withFetchWord nbits w)

def byteQ (v : Byte) : QPort := .data (.byte v)
def wordQ (v : Word) : QPort := .data (.word v)

/-! ### WellFormed: every check refuses an ill-formed term -/

theorem test_wf_dma_on_mode : (Instr.regwrDma 0).wellFormed { REFCFG with regDma := 0x02 } = false := by decide
theorem test_wf_dma_on_irq : (Instr.regwrDma 0).wellFormed { REFCFG with regDma := 0x04 } = false := by decide
theorem test_wf_dma_on_sndlatch : (Instr.regwrDma 0).wellFormed { REFCFG with regDma := 0x03 } = false := by decide
theorem test_wf_plain_on_mode : (Instr.regwrPlain 2 0).wellFormed REFCFG = false := by decide
theorem test_wf_plain_on_sndlatch : (Instr.regwrPlain 3 0).wellFormed REFCFG = false := by decide
theorem test_wf_plain_on_irq : (Instr.regwrPlain 4 0).wellFormed REFCFG = false := by decide
theorem test_wf_plain_on_dma : (Instr.regwrPlain 5 0).wellFormed REFCFG = false := by decide
theorem test_wf_compute_slot : (Instr.compute 8 0 0 0).wellFormed REFCFG = false := by decide
theorem test_wf_expandI_unordered :
    (Instr.expandI ⟨0x120000, 0x11FFFF, 0⟩ .ROM0 kindsR).wellFormed REFCFG = false := by decide
theorem test_wf_expandI_start :
    (Instr.expandI ⟨0x1000000, 0x1000000, 0⟩ .ROM0 kindsR).wellFormed REFCFG = false := by decide
theorem test_wf_expandI_stop :
    (Instr.expandI ⟨0xFFFFFF, 0x11FFFFF, 0⟩ .ROM0 kindsR).wellFormed REFCFG = false := by decide
theorem test_wf_expandI_mask :
    (Instr.expandI ⟨0x120000, 0x123FFF, 0x200000⟩ .ROM0 kindsR).wellFormed REFCFG = false := by decide
theorem test_wf_expandI_kinds :
    (Instr.expandI ⟨0x120000, 0x123FFF, 0⟩ .ROM0 ⟨false, false, false⟩).wellFormed REFCFG = false := by decide
theorem test_wf_expandR_region : (Instr.expandR ⟨0x120000, 0x11FFFF, 0⟩ .io).wellFormed REFCFG = false := by decide
theorem test_wf_config_mode_sndlatch : { REFCFG with regSndlatch := 0x02 }.wf = false := by decide
theorem test_wf_config_mode_irq : { REFCFG with regIrq := 0x02 }.wf = false := by decide
theorem test_wf_config_sndlatch_irq : { REFCFG with regIrq := 0x03 }.wf = false := by decide
theorem test_wf_config_mode_range : { REFCFG with regMode := 0x10 }.wf = false := by decide
theorem test_wf_config_sndlatch_range : { REFCFG with regSndlatch := 0x10 }.wf = false := by decide
theorem test_wf_config_irq_range : { REFCFG with regIrq := 0x10 }.wf = false := by decide
theorem test_wf_config_dma_range : { REFCFG with regDma := 0x10 }.wf = false := by decide
theorem test_wf_config_kinds :
    { REFCFG with slotTables := [(TP0, tableTP0.set 0 [.flat .ROM0 ⟨false, false, false⟩ 1 0 0])] }.wf = false := by decide
theorem test_wf_config_region_twice :
    { REFCFG with slotTables := [(TP0, tableTP0.set 0 [.soft .io 1 0 0])] }.wf = false := by decide
theorem test_wf_config_dma_may_collide : { REFCFG with regDma := 0x02 }.wf = true := by decide

/-! ### Decoding: words written out from 30_encoding.md R85, R90, R91 -/

theorem test_decode_rdb : decodeTableWord 56 0x000C000020000 = some (.rdb 0x00C00002) := by decide
theorem test_decode_rdw : decodeTableWord 56 0x1FFFFFFFE0000 = some (.rdw 0xFFFFFFFE) := by decide
theorem test_decode_wrb : decodeTableWord 56 0x200FE0001005A = some (.wrb 0x00FE0001 0x5A) := by decide
theorem test_decode_wrb_ignores_high_byte : decodeTableWord 56 0x200FE0001FF5A = some (.wrb 0x00FE0001 0x5A) := by decide
theorem test_decode_wrw : decodeTableWord 56 0x3004000101234 = some (.wrw 0x00400010 0x1234) := by decide
theorem test_decode_ftw : decodeTableWord 56 0x4000001000000 = some (.ftw 0x00000100) := by decide
theorem test_decode_reserved5 : decodeTableWord 56 0x5000000000000 = some .reserved5 := by decide
theorem test_decode_reserved6 : decodeTableWord 56 0x6000000000001 = some .reserved6 := by decide
theorem test_decode_reserved7 : decodeTableWord 56 0x7000000000000 = some .reserved7 := by decide
theorem test_decode_init : decodeTableWord 56 0x8000000000000 = some .init := by decide
theorem test_decode_exit : decodeTableWord 56 0x9000000000000 = some .exit := by decide
theorem test_decode_rst : decodeTableWord 56 0xA000000000000 = some .rst := by decide
theorem test_decode_cfg : decodeBundle 0xB000000000000#52 (blockPayload cfgA) = .cfg cfgA := by decide
theorem test_decode_sethook_r : decodeTableWord 56 0xC000000000001 = some (.sethook true false) := by decide
theorem test_decode_sethook_w : decodeTableWord 56 0xC000000000002 = some (.sethook false true) := by decide
theorem test_decode_save : decodeTableWord 56 0xD000000000000 = some .save := by decide
theorem test_decode_restore : decodeTableWord 56 0xE000000000000 = some (.restore noPayload) := by decide
theorem test_decode_reservedF : decodeTableWord 56 0xF000000000000 = some .reservedF := by decide
theorem test_decode_desc_low : decodeTableWord 16 0x1002 = some (.regwrDesc 0x0 0x02) := by decide
theorem test_decode_desc_high : decodeTableWord 16 0x1FC0 = some (.regwrDesc 0xF 0xC0) := by decide
theorem test_decode_mode : decodeTableWord 16 0x0203 = some (.regwrMode 0x03) := by decide
theorem test_decode_sndlatch : decodeTableWord 16 0x0381 = some (.regwrSndlatch 0x81) := by decide
theorem test_decode_irq : decodeTableWord 16 0x0403 = some (.regwrIrq 0x03) := by decide
theorem test_decode_dma : decodeTableWord 16 0x0501 = some (.regwrDma 0x01) := by decide
theorem test_decode_plain_row1 : decodeTableWord 16 0x0100 = some (.regwrPlain 0x1 0x00) := by decide
theorem test_decode_plain_row2 : decodeTableWord 16 0x06AA = some (.regwrPlain 0x6 0xAA) := by decide
theorem test_decode_plain_row3 : decodeTableWord 16 0x0FAA = some (.regwrPlain 0xF 0xAA) := by decide
theorem test_decode_regrd : decodeTableWord 8 0x1F = some (.regrd 0x1F) := by decide
theorem test_decode_too_wide : decodeTableWord 8 0x20 = none ∧ decodeTableWord 16 0x2000 = none ∧
    decodeTableWord 56 0x10000000000000 = none := by decide
theorem test_internal_has_no_encoding : encode REFCFG .recompute = none ∧ encode REFCFG .openbus = none ∧
    encode REFCFG (.compute 0 1 0 0) = none := by decide
theorem test_encode_sethook : encode REFCFG (.sethook false true) = some (.bundle 0xC000000000002 noPayload) := by decide

/-! ### Steps: vectors of 95_test_vectors.md -/

/-- Row R1. -/
theorem test_rdb_io : after (stepOn { run with answers := [0xA5] } 56 0x000C000020000)
    (fun t => t.q = byteQ 0xA5 && t.out = [.ioRead 1 .byte false]) = true := by decide
/-- Row R12: an unrecognised register, the byte sentinel. -/
theorem test_rdb_sentinel : after (stepOn run 56 0x000E000210000)
    (fun t => t.q = byteQ 0xFF && t.out = []) = true := by decide
/-- Row R21: open bus through a flat mapping. -/
theorem test_rdw_open_bus : after (stepOn { run with answers := [0x1234, 0x4E75] } 56 0x100E000200000)
    (fun t => t.q = wordQ 0x4E75 && t.out = [.pcQuery, .flatAccess .R .ROM0 0x1234 .word none] && !t.guard) = true := by
  decide
/-- Row R16: the second math window. -/
theorem test_rdw_math2 : after (stepOn { run with answers := [0x1234] } 56 0x100C410000000)
    (fun t => t.q = wordQ 0x1234 && t.out = [.mathRead .two 0]) = true := by decide
/-- Row R28: the fetch path has its own buffer under TP2. -/
theorem test_ftw_override : after (stepOn { runUnder (under TP2) with answers := [0x1111] } 56 0x4000001000000)
    (fun t => t.q = wordQ 0x1111 && t.out = [.flatAccess .F .ROM0DEC 0x100 .word none]) = true := by decide
/-- Row W8: mirror entry 3. -/
theorem test_wrb_io_mirror : after (stepOn run 56 0x200C0C0110042)
    (fun t => t.out = [.ioWrite 8 (.byte 0x42) false] && t.regs = run.regs) = true := by decide
/-- Row W14: a write to a read-only flat range is a register write, here one that moves IO. -/
theorem test_wrb_descriptor : after (stepOn run 56 0x2000BFFFF0033)
    (fun t => t.reg 0x1F = 0x33 && t.soft.io.start = 0x330000 && t.soft.io.mir[3].stop = 0x33FFFF) = true := by decide
/-- Row W2: the tile window is flat for reads, soft for writes. -/
theorem test_wrw_tile : after (stepOn run 56 0x3004000101234)
    (fun t => t.out = [.tileWrite 8 (.word 0x1234)]) = true := by decide
/-- Row W3: a word write to the register file stores the low byte. -/
theorem test_wrw_register : after (stepOn run 56 0x300C408000001)
    (fun t => t.reg 0x00 = 0x01 && t.out = []) = true := by decide
/-- Row L1. -/
theorem test_init : after (stepOn State.reset 56 0x8000000000000)
    (fun t => t.live && !t.built && t.regs = zeroRegs && t.flat = []) = true := by decide
/-- Row L8. -/
theorem test_exit : after (stepOn { run with hookR := true } 56 0x9000000000000)
    (fun t => t = State.reset) = true := by decide
/-- Row M2: every region inactive but Math2 and BankLatch; ten flat mappings. -/
theorem test_rst : after (stepOn run 56 0xA000000000000)
    (fun t => t.regs = zeroRegs && t.soft.io.start = 0 && t.soft.math2.start = 0x1000 && t.soft.math2.stop = 0x17FF &&
      t.soft.bankLatch.start = 0x2000 && t.flat.length = 10) = true := by decide
/-- Row L4: the hook survives RST. -/
theorem test_rst_keeps_hooks : after (stepOn { run with hookR := true } 56 0xA000000000000)
    (fun t => t.hookR && !t.hookW) = true := by decide
/-- Row M5: 32 mirror entries under TP3. -/
theorem test_cfg_mirrors :
    after (exec (.cfg #v[0, 0, 0, 0, 0, 0, 0, 0, 0, 0, 0, 0, 0, 0, 1, 0xC0]) (idleUnder (under TP3)))
    (fun t => t.mwi = 32 && t.soft.io.start = 0xC00000 && t.soft.io.stop = 0xC007FF &&
      t.soft.io.mir[31] = ⟨0xC0F800, 0xC0FFFF⟩) = true := by decide
/-- Row M4: an unsupported profile. -/
theorem test_cfg_unsupported : after (exec (.cfg cfgA) (idleUnder (under TPX)))
    (fun t => t.flat = [] && t.soft = emptyTables && t.built && t.reg 0x1F = 0xC0) = true := by decide
/-- 47_lifecycle.md R267. -/
theorem test_sethook : after (stepOn run 56 0xC000000000001) (fun t => t.hookR && !t.hookW) = true := by decide
/-- Row L5. -/
theorem test_save : after (stepOn run 56 0xD000000000000)
    (fun t => t.q = .snapshot ((Vector.replicate 16 (0 : Byte) ++ cfgA).push 0)) = true := by decide
/-- Row L6. -/
theorem test_restore : after (exec (.restore ((Vector.replicate 16 (0 : Byte) ++ cfgA).push 0)) up)
    (fun t => t.regs = run.regs && t.mwi = 0 && t.built && t.soft.io = run.soft.io && t.flat = run.flat) = true := by decide
/-- Row L7: index 0x21. -/
theorem test_restore_refused :
    refusalOf (exec (.restore (noPayload.set 32 0x21)) up) = some (.snapshotIndex 0x21) := by decide
/-- Rows L9, 30_encoding.md R94. -/
theorem test_reserved : refusalOf (stepOn run 56 0x5000000000000) = some (.reservedOp 0x5) ∧
    refusalOf (stepOn run 56 0x6000000000000) = some (.reservedOp 0x6) ∧
    refusalOf (stepOn run 56 0x7000000000000) = some (.reservedOp 0x7) ∧
    refusalOf (stepOn run 56 0xF000000000000) = some (.reservedOp 0xF) := by decide
/-- Row L3, and row L2. -/
theorem test_refused_before_init_and_recompute :
    refusalOf (stepOn State.reset 56 0) = some .notLive ∧ refusalOf (stepOn up 56 0) = some .notBuilt := by decide
/-- Row W20, by its key and by its bundle. -/
theorem test_desc_changed :
    after (stepOn (recompute up) 16 0x1FC0) (fun t => t.reg 0x1F = 0xC0 && t.soft.io.start = 0xC00000) = true ∧
    after (stepOn (recompute up) 56 0x200E0003F00C0) (fun t => t.reg 0x1F = 0xC0 && t.soft.io.start = 0xC00000) = true := by
  decide
/-- 47_lifecycle.md R261: in IDLE no register command and no register read is accepted. -/
theorem test_register_refused_in_idle : refusalOf (stepOn up 16 0x1FC0) = some .notBuilt ∧
    refusalOf (stepOn up 8 0x02) = some .notBuilt ∧ refusalOf (exec (.regwrDesc 0xF 0xC0) up) = some .notBuilt ∧
    refusalOf (exec (.regrd 0x02) up) = some .notBuilt := by decide
/-- Row W21: an unchanged byte runs no recompute, here shown by a write index that stays. -/
theorem test_desc_unchanged : after (stepOn { run with mwi := 7 } 16 0x1FC0) (fun t => t.mwi = 7) = true := by decide
/-- Row W38. -/
theorem test_mode_encrypted : after (stepOn (runUnder (under TP2)) 16 0x0203)
    (fun t => t.out = [.decryptReinit, .machineReset] && t.reg 0x02 = 0x03) = true := by decide
/-- Row W34: 3 to 3, other upper bits. -/
theorem test_mode_no_transition : after (stepOn { run with regs := run.regs.set 2 0x07 } 16 0x02FB)
    (fun t => t.out = []) = true := by decide
/-- The worked example of 45_register_commands.md R222. -/
theorem test_irq : after (stepOn run 16 0x0403)
    (fun t => t.out = [.irq 0 .deassert, .irq 1 .deassert, .irq 2 .deassert, .irq 3 .deassert, .irq 4 .assert,
      .irq 5 .deassert, .irq 6 .deassert, .irq 7 .deassert]) = true := by decide
/-- Row W47. -/
theorem test_irq_keeps_levels : after (stepOn run 16 0x04FF) (fun t => t.out = [] && t.reg 0x04 = 0xFF) = true := by decide
/-- Row W50. -/
theorem test_sndlatch : after (stepOn run 16 0x0381) (fun t => t.out = [.soundLatch 0x81]) = true := by decide
/-- Row W51. -/
theorem test_sndlatch_alt : after (stepOn (runUnder (under TP1)) 16 0x0381)
    (fun t => t.out = [] && t.reg 0x03 = 0x81) = true := by decide
/-- Row W52. -/
theorem test_dma : after (stepOn run 16 0x0501) (fun t => t.reg 0x05 = 0x01 && t.out = []) = true := by decide
/-- Row W54. -/
theorem test_plain : after (stepOn run 16 0x08AA) (fun t => t.reg 0x08 = 0xAA && t.out = []) = true := by decide
/-- Rows W60, W61. -/
theorem test_regrd_status : after (stepOn run 8 0x02) (fun t => t.q = byteQ 0x0F) = true ∧
    after (stepOn { run with regs := run.regs.set 2 0x03 } 8 0x02) (fun t => t.q = byteQ 0x00) = true := by decide
/-- The worked example of 45_register_commands.md R232. -/
theorem test_regrd_unrecognised : after (exec (.regrd 0x10) run) (fun t => t.q = .view none) = true := by decide
/-- Row C12, the largest end. -/
theorem test_compute_largest : computeRaw 0x03 0xFF 0xFFFFFFFF 0xFFFFFFFF 0xFFFFFFFF = ⟨0xFFFFFF, 0x11FFFFE, 0x1FFFFF⟩ := by
  decide
/-- The source's example of 40_region_calculator.md R120 (row C1), on slot 7. -/
theorem test_compute_slot :
    after (exec (.compute 7 0x4000 0x00FFC000 0) { up with regs := up.regs.set 31 0x12 })
    (fun t => t.q = .region ⟨0x120000, 0x123FFF, 0xC000⟩) = true := by decide
/-- The worked example of 41_mirror_expander.md R138. -/
theorem test_expandI : after (exec (.expandI ⟨0x200000, 0x203FFF, 0xC000⟩ .ROM0 kindsR) up)
    (fun t => t.flat.map (fun e => (e.start, e.stop)) =
      [(0x200000, 0x203FFF), (0x204000, 0x207FFF), (0x208000, 0x20BFFF), (0x20C000, 0x20FFFF)]) = true := by decide
/-- Row E4: a bit of the high group is enumerated last. -/
theorem test_expandI_high_group : aliasOffsets 0x41000 = [0, 0x1000, 0x40000, 0x41000] := by decide
/-- The worked example of 41_mirror_expander.md R139. -/
theorem test_expandR : after (exec (.expandR ⟨0x120000, 0x123FFF, 0xC000⟩ .io) up)
    (fun t => t.mwi = 4 && t.soft.io.mir[3] = ⟨0x12C000, 0x12FFFF⟩ && t.soft.io.mir[4] = ⟨0, 0⟩) = true := by decide
/-- Row E6: the aliases past the 32nd are dropped. -/
theorem test_expandR_full : after (exec (.expandR ⟨0x100000, 0x1007FF, 0x1F800⟩ .math2) up)
    (fun t => t.mwi = 32 && t.soft.math2.mir[31] = ⟨0x10F800, 0x10FFFF⟩) = true := by decide
/-- Row M1: the mapping of 42_mapping_manager.md section 7. -/
theorem test_recompute : after (exec .recompute run)
    (fun t => t.soft.io.start = 0xC00000 && t.soft.tileRAM.start = 0x400000 && t.soft.bankLatch.start = 0xFE2000 &&
      t.soft.soundBridge.start = 0xFE0000 && t.soft.math1.start = 0xC40000 && t.soft.math2.start = 0xC41000 &&
      t.mwi = 0) = true := by decide
/-- Row R22: the nested read is itself open bus. -/
theorem test_openbus_nested : after (exec .openbus { run with answers := [0x00E00030] })
    (fun t => t.q = wordQ 0xFFFF && t.out = [.pcQuery] && !t.guard) = true := by decide
/-- 43_bus_router_read.md R187. -/
theorem test_openbus_reentered : after (exec .openbus { run with guard := true })
    (fun t => t.q = wordQ 0xFFFF && t.out = [] && t.guard) = true := by decide

/-! ### Witnesses: the hypotheses of the statements can be met -/

/-- Each phase, an accepted operation, and RESTORE at the largest index. -/
theorem witness_LifecycleStateMachine :
    (State.reset.cfg.wf = true ∧ up.cfg.wf = true ∧ run.cfg.wf = true) ∧
    (State.reset.phase = .down ∧ up.phase = .idle ∧ run.phase = .run) ∧
    (Instr.init.opClass = .host ∧ (Instr.rdb 0).opClass = .bus) ∧
    ((noPayload.set 32 0x20)[32]).toNat ≤ 32 ∧
    after (exec .exit run) (fun _ => true) = true ∧ after (exec (.restore (noPayload.set 32 0x20)) up) (fun _ => true) = true := by
  decide
theorem witness_InitFromAnyState : State.reset.cfg.wf = true ∧ run.cfg.wf = true := by decide
theorem witness_ExitTearsDown : up.Ready ∧ after (exec .exit up) (fun _ => true) = true ∧ Instr.exit ≠ .init ∧
    State.reset.cfg.wf = true ∧ State.reset.live = false := by decide
theorem witness_RstClearsAndRebuilds : up.Ready ∧ State.reset.cfg.wf = true ∧ State.reset.live = false := by decide
theorem witness_CfgStoresBlockAndRebuilds : up.Ready ∧ (0x0F#5 < 0x10#5) ∧
    State.reset.cfg.wf = true ∧ State.reset.live = false := by decide
theorem witness_SethookSetsBothSlots : up.Ready ∧ State.reset.cfg.wf = true ∧ State.reset.live = false := by decide
theorem witness_SaveReturnsSnapshot : up.Ready ∧ State.reset.cfg.wf = true ∧ State.reset.live = false := by decide
/-- Index 32 and index 33. -/
theorem witness_RestoreLoadsAndRebuilds : up.Ready ∧ ((noPayload.set 32 0x20)[32]).toNat ≤ 32 ∧
    32 < ((noPayload.set 32 0x21)[32]).toNat ∧ State.reset.cfg.wf = true ∧ State.reset.live = false := by decide
/-- The state of row M1 meets the invariant. -/
theorem run_inv : run.Inv :=
  ⟨by decide, by decide, by decide, by intro r; cases r <;> decide, fun _ => by decide, fun h => absurd h (by decide),
   fun h => absurd h (by decide)⟩
theorem witness_SaveRestoreRoundTrip : run.Inv ∧ run.Routed := ⟨run_inv, by decide⟩
theorem witness_HostOperationsAreSilent : Instr.rst.opClass = .host ∧ after (exec .rst run) (fun _ => true) = true := by decide
/-- A bundle of each refused case, and one that is not refused. -/
theorem witness_RefusedExactlyAsListed :
    refuses (exec (decodeBundle 0 noPayload) State.reset) = true ∧
    refuses (exec (decodeBundle 0 noPayload) up) = true ∧
    refuses (exec (decodeBundle 0xF000000000000 noPayload) run) = true ∧
    refuses (exec (decodeBundle 0xE000000000000 (noPayload.set 32 0x21)) run) = true ∧
    refuses (exec (decodeBundle 0x8000000000000 noPayload) { run with cfg := { REFCFG with regIrq := 0x02 } }) = true ∧
    after (exec (decodeBundle 0xE000000000000 (noPayload.set 32 0x20)) run) (fun _ => true) = true := by decide
/-- Slots 0, 7 and 8. -/
theorem witness_ComputeReadsSlotAndGivesRegion : up.Ready ∧ 0 < 8 ∧ 7 < 8 ∧ 8 ≤ 8 := by decide
/-- The largest offset of a mask, and offset 0 over a start of 0. -/
theorem witness_AliasesNeverWrap :
    0xC000 ∈ aliasOffsets (computeRaw 0x00 0x12 0x4000 0x00FFC000 0).mirrorMask ∧
    (0 ∈ aliasOffsets (computeRaw 0x00 0x00 0x4000 0x00FFC000 0).mirrorMask ∧
      (computeRaw 0x00 0x00 0x4000 0x00FFC000 0).start + 0 = 0) := by decide
theorem witness_ExpandICoversEveryAlias : up.Ready := by decide
theorem witness_ExpandRRecordsFirst32 : up.Ready ∧ (0xC000 : Addr) ≠ 0 ∧ SoftId.math1 ≠ .io := by decide
/-- Six mirror bits, the fewest that overfill the table. -/
theorem witness_OverfullExpansionKeepsFiveLowestBits : (setBits 0x1F800 0 32).length = 6 ∧
    after (exec (.expandR ⟨0x100000, 0x1007FF, 0x1F800⟩ .io) up) (fun _ => true) = true := by decide
theorem witness_RecomputeIsIdempotent : up.Ready := by decide
/-- A state that differs from `run` in the highest register below the descriptors and in parameters. -/
def elsewhere : State := { run.setReg 0x0F 0x55 with cfg := { REFCFG with regMode := 0x06, regSel := .fixed 0x1F, regWordHi := 0xAA } }
theorem witness_MapDependsOnDescriptorsAlone :
    run.cfg.table = elsewhere.cfg.table ∧ (∀ o : RegOff, 0x10#5 ≤ o → run.reg o = elsewhere.reg o) ∧
    after (exec .recompute run) (fun _ => true) = true ∧ after (exec .recompute elsewhere) (fun _ => true) = true := by decide
/-- An unsupported profile, with a recognised and an unrecognised register to fall through to. -/
theorem witness_UnsupportedProfileMapsNothing : (idleUnder (under TPX)).Ready ∧ (under TPX).table = none ∧
    regRead (runUnder (under TPX)) (selectReg (under TPX).regSel 0) = some 0x00 ∧
    regRead (runUnder (under TPX)) (selectReg (under TPX).regSel 0x3F) = none := by decide
/-- A supported profile, a Soft action of the highest slot, and a region no action names (under TP3). -/
theorem witness_RecomputeFillsSoftRegions : run.Ready ∧ REFCFG.table = some tableTP0 ∧
    SlotAction.soft .io 0x4000 0x00FFC000 0 ∈ tableTP0[7] ∧
    (idleUnder (under TP3)).Ready ∧ (under TP3).table = some tableTP3 ∧
    ∀ i : Fin 8, ∀ act ∈ tableTP3[i], targets .math1 act = false := by decide
theorem witness_RecomputeInstallsFlatMappings : run.Ready ∧ REFCFG.table = some tableTP0 := by decide
/-- Both ends of the window of slot 0. -/
theorem witness_LowerSlotWinsOverlap : run.Ready ∧ REFCFG.table = some tableTP0 ∧
    SlotAction.flat .ROM0 kindsRF 0x40000 0 0 ∈ tableTP0[0] ∧ kindIn .R kindsRF = true ∧
    (computeSlot run.regs 0 0x40000 0 0).start = 0 ∧ (computeSlot run.regs 0 0x40000 0 0).stop = 0x3FFFF := by decide
theorem witness_WriteIndexCountsLastRecording : run.Ready ∧ REFCFG.table = some tableTP0 := by decide
/-- The inactive region with a mirror entry; the ends of a primary and of the later of two mirror entries, the empty entry
before it skipped; one past the end. -/
theorem witness_SoftLookupsSkipInactiveAndTakeFirst :
    hitMirror { start := 0, stop := 0xFF, mir := (Vector.replicate 32 ⟨0, 0⟩).set 0 ⟨0x100, 0x1FF⟩ } 0x100 = none ∧
    hitPrimary run.soft.io 0xC00000 = some 0xC00000 ∧ hitPrimary run.soft.io 0xC03FFF = some 0xC00000 ∧
    hitPrimary run.soft.io 0xC04000 = none ∧
    hitMirror { start := 0x100, stop := 0x1FF, mir := (Vector.replicate 32 ⟨0, 0xFFFF⟩).set 31 ⟨0x200, 0x2FF⟩ } 0x2FF =
      some 0x200 := by decide
/-- The first and the last byte of the work RAM, for each kind. -/
theorem witness_FlatMappingServesAccess : run.Routed ∧
    (flatLookup .R 0xFF0000 run.flat).isSome = true ∧ (flatLookup .R 0xFFFFFF run.flat).isSome = true ∧
    (flatLookup .F 0xFF0000 run.flat).isSome = true ∧ (flatLookup .F 0xFFFFFF run.flat).isSome = true ∧
    (flatLookup .W 0xFF0000 run.flat).isSome = true ∧ (flatLookup .W 0xFFFFFF run.flat).isSome = true := by decide
/-- The ends of the IO primary, the end of its last mirror, and the byte after it. -/
theorem witness_ByteReadRoutes : run.Routed ∧
    (flatLookup .R 0xC00000 run.flat = none ∧ hitRegion run.soft.io 0xC00000 = some 0xC00000) ∧
    (flatLookup .R 0xC03FFF run.flat = none ∧ hitRegion run.soft.io 0xC03FFF = some 0xC00000) ∧
    (flatLookup .R 0xC0FFFF run.flat = none ∧ hitRegion run.soft.io 0xC0FFFF = some 0xC0C000) ∧
    (flatLookup .R 0xC10000 run.flat = none ∧ hitRegion run.soft.io 0xC10000 = none) := by decide
/-- The first probe of the list, and the fourth after three misses; both kinds. -/
theorem witness_WordReadRoutesInOrder : run.Routed ∧
    hitPart (run.soft.get (readPortRegion .io)) 0xC00000 .primary = some 0xC00000 ∧
    (hitPart (run.soft.get (readPortRegion .io)) 0xC0FFFF .primary = none ∧
      hitPart (run.soft.get (readPortRegion .math1)) 0xC0FFFF .primary = none ∧
      hitPart (run.soft.get (readPortRegion .math2)) 0xC0FFFF .primary = none ∧
      hitPart (run.soft.get (readPortRegion .io)) 0xC0FFFF .mirror = some 0xC0C000) ∧
    flatLookup .R 0xC00000 run.flat = none ∧ flatLookup .F 0xC00000 run.flat = none ∧
    flatLookup .R 0xC0FFFF run.flat = none ∧ flatLookup .F 0xC0FFFF run.flat = none := by decide
/-- A recognised register (the last one, 0x02) and the first unrecognised (0x03); both operations. -/
theorem witness_WordReadMissFallsThrough : run.Routed ∧
    (∀ p ∈ [ReadPort.io, .math1, .math2], hitRegion (run.soft.get (readPortRegion p)) 0xE00005 = none ∧
      hitRegion (run.soft.get (readPortRegion p)) 0xE00006 = none) ∧
    (flatLookup .R 0xE00005 run.flat = none ∧ flatLookup .F 0xE00005 run.flat = none ∧
      flatLookup .R 0xE00006 run.flat = none ∧ flatLookup .F 0xE00006 run.flat = none) ∧
    regRead run (selectReg run.cfg.regSel 0xE00005) = some 0x0F ∧
    regRead run (selectReg run.cfg.regSel 0xE00006) = none := by decide
theorem witness_OpenBusIsNestedWordRead : run.Routed ∧ run.guard = false := by decide
/-- The guard set; the guard clear with a program counter in unmapped space. -/
theorem witness_ReenteredOpenBusIsAllOnes :
    ({ run with guard := true } : State).Routed ∧ run.Routed ∧ run.guard = false ∧
    ({ run with answers := [0x00E00030] } : State).answer = 0x00E00030 ∧ flatLookup .R 0x00E00030 run.flat = none ∧
    (∀ p ∈ [ReadPort.io, .math1, .math2], hitRegion (run.soft.get (readPortRegion p)) 0x00E00030 = none) ∧
    regRead run (selectReg run.cfg.regSel 0x00E00030) = none ∧
    after (exec .openbus { run with answers := [0x00E00030] }) (fun _ => true) = true := by decide
theorem witness_ReadsChangeNoDecoderState : (Instr.rdw 0xE00020).opClass = .bus ∧
    after (exec (.rdb 0xE00021) run) (fun _ => true) = true ∧
    after (exec (.rdw 0xE00020) { run with answers := [0x1234, 0x4E75] }) (fun t => t.draws = run.draws + 2) = true ∧
    after (exec (.regrd 0x1F) run) (fun _ => true) = true := by decide
/-- The first region of the order, and the last after five misses, at the end of their windows. -/
theorem witness_WriteRoutesInPriorityOrder : run.Routed ∧
    (flatLookup .W 0x40FFFF run.flat = none ∧ hitRegion (run.soft.get .tileRAM) 0x40FFFF = some 0x400000) ∧
    (flatLookup .W 0xC417FF run.flat = none ∧
      (∀ r ∈ [SoftId.tileRAM, .io, .bankLatch, .soundBridge, .math1], hitRegion (run.soft.get r) 0xC417FF = none) ∧
      hitRegion (run.soft.get .math2) 0xC417FF = some 0xC41000) := by decide
theorem witness_UnroutedWriteIsRegisterCommand : run.Routed ∧ flatLookup .W 0xC41800 run.flat = none ∧
    ∀ r ∈ softIds, hitRegion (run.soft.get r) 0xC41800 = none := by decide
/-- A state whose regions are IO and Math2 (with mirrors), all other tables empty. -/
def mirrored : State :=
  { run with flat := [], soft := { emptyTables with io := run.soft.io, math2 :=
      { start := 0xD00000, stop := 0xD007FF, mir := (Vector.replicate 32 ⟨0, 0⟩).set 0 ⟨0xD00800, 0xD00FFF⟩ } } }
/-- The last byte of the IO primary and the same byte of its last mirror, read, fetched and written; the same of Math2 after
two ports that miss. -/
theorem witness_AliasBehavesAsPrimary : mirrored.Routed ∧ mirrored.hookR = false ∧ mirrored.hookW = false ∧
    (∀ k, flatLookup k 0xC03FFF mirrored.flat = none ∧ flatLookup k (0xC03FFF + 0xC000) mirrored.flat = none) ∧
    hitRegion (mirrored.soft.get .tileRAM) 0xC03FFF = none ∧
    hitRegion (mirrored.soft.get .tileRAM) (0xC03FFF + 0xC000) = none ∧
    hitPrimary mirrored.soft.io 0xC03FFF = some 0xC00000 ∧
    (∀ r ∈ softIds, hitPrimary (mirrored.soft.get r) (0xC03FFF + 0xC000) = none) ∧
    hitMirror mirrored.soft.io (0xC03FFF + 0xC000) = some (0xC00000 + 0xC000) ∧
    (∀ r ∈ [SoftId.io, .math1], hitPrimary (mirrored.soft.get r) 0xD007FF = none ∧
      hitMirror (mirrored.soft.get r) (0xD007FF + 0x800) = none) ∧
    (∀ r ∈ softIds, hitPrimary (mirrored.soft.get r) (0xD007FF + 0x800) = none) ∧
    hitPrimary mirrored.soft.math2 0xD007FF = some 0xD00000 ∧
    hitMirror mirrored.soft.math2 (0xD007FF + 0x800) = some (0xD00000 + 0x800) :=
  ⟨by decide, by decide, by decide, by intro k; cases k <;> decide, by decide, by decide, by decide, by decide, by decide,
   by decide, by decide, by decide, by decide⟩
/-- The byte held, and another, in the last descriptor. -/
theorem witness_DescriptorWriteRecomputesIffChanged : run.Routed ∧ (0xC0 : Byte) = run.reg (descOffset 0xF) ∧
    (0xC1 : Byte) ≠ run.reg (descOffset 0xF) := by decide
/-- No transition (to 2); a transition from 0 to 3 under each setting. -/
theorem witness_ModeWriteRequestsResetOnTransition : run.Routed ∧
    (runUnder { REFCFG with mresetImpliesRst := true }).Routed ∧
    ¬((run.reg run.cfg.regMode).extractLsb' 0 2 ≠ 3#2 ∧ (0x02 : Byte).extractLsb' 0 2 = 3#2) ∧
    (run.reg run.cfg.regMode).extractLsb' 0 2 ≠ 3#2 ∧ (0x03 : Byte).extractLsb' 0 2 = 3#2 ∧
    run.cfg.mresetImpliesRst = false := by decide
/-- Low bits 7 and 6. -/
theorem witness_IrqWriteDrivesEightLines : run.Routed ∧ (0xFF : Byte).extractLsb' 0 3 = 7#3 ∧
    (0xFE : Byte).extractLsb' 0 3 ≠ 7#3 := by decide
theorem witness_SoundLatchForwardsEveryWrite : run.Routed ∧ run.cfg.profile.altSound = false ∧
    (runUnder (under TP1)).Routed ∧ (runUnder (under TP1)).cfg.profile.altSound = true := by decide
theorem witness_DmaTriggerOnlyStores : run.Routed ∧ (0x04 : RegOff) ≠ run.cfg.regDma := by decide
theorem witness_PlainWriteOnlyStores : run.Routed ∧ (0x0E : RegOff) ≠ lowOffset 0xF := by decide
theorem witness_RegisterReadFollowsView : run.Routed ∧ run.cfg.regReadView = REFCFG.regReadView := by decide
theorem witness_MachineResetOncePerTransition : run.Routed ∧ run.cfg.mresetImpliesRst = false := by decide
theorem witness_OnlyListedOperationsWriteRegisters :
    after (exec .rst run) (fun t => decide (t.regs ≠ run.regs)) = true := by decide
/-- Another register command; a bus write into a flat mapping, into a region, and to another register. -/
theorem witness_OnlyIrqWritesDriveLines : after (exec (.regwrMode 0x03) run) (fun _ => true) = true ∧
    (flatLookup .W 0xFF0000 run.flat ≠ none ∧ after (exec (.wrb 0xFF0000 0x03) run) (fun _ => true) = true) ∧
    (hitRegion (run.soft.get .io) 0xC00000 ≠ none ∧ after (exec (.wrw 0xC00000 0x03) run) (fun _ => true) = true) ∧
    (selectReg run.cfg.regSel 0xE00005 ≠ run.cfg.regIrq ∧ after (exec (.wrb 0xE00005 0x03) run) (fun _ => true) = true) := by
  decide
/-- No line ever driven; line 4 asserted. -/
theorem witness_ExactlyOneLineStaysAsserted : after (exec (.regwrIrq 0x07) run) (fun _ => true) = true ∧
    lineLevel 0 run.out ≠ some .assert ∧
    after (exec (.regwrIrq 0x03) run)
      (fun t => decide (∀ l', lineLevel l' t.out = some Level.assert ↔ l' = 4)) = true := by decide
/-- Each row's boundary offset; under the second configuration `REG_DMA_TRIG` stands on its own. -/
theorem witness_KeySelectsFirstMatchingRow : REFCFG.wf = true ∧ (0x10#5 ≤ 0x10#5 ∧ 0x10#5 ≤ 0x1F#5) ∧
    (0x05 : RegOff) = REFCFG.regDma ∧ (0x05 : RegOff) ≠ REFCFG.regMode ∧ (0x05 : RegOff) ≠ REFCFG.regIrq ∧
    (0x05 : RegOff) ≠ REFCFG.regSndlatch ∧
    (0x0F#5 < 0x10#5 ∧ (0x0F : RegOff) ≠ REFCFG.regMode ∧ (0x0F : RegOff) ≠ REFCFG.regIrq ∧
      (0x0F : RegOff) ≠ REFCFG.regSndlatch ∧ (0x0F : RegOff) ≠ REFCFG.regDma) := by decide
theorem witness_ReservedOpsAreRefused : (run.present ⟨0x6FFFFFFFFFFFF, noPayload⟩).pending =
    ⟨0x6FFFFFFFFFFFF, noPayload⟩ :: [] ∧ bundleOp 0x6FFFFFFFFFFFF = 0x6 := by decide
theorem witness_DecodeEncodeRoundTrip : REFCFG.wf = true ∧ (Instr.regwrPlain 0xF 0xAA).wellFormed REFCFG = true ∧
    (Instr.regwrPlain 0xF 0xAA).opClass ≠ .internal := by decide
theorem witness_StepRunsDecodedStimulus : (run.present ⟨0, noPayload⟩).pending = [⟨0, noPayload⟩] ∧
    State.reset.pending = [] ∧ tableEncoded 56 0 = some (.bundle 0 noPayload) := by decide
theorem witness_ParametersFixedAndTraceGrows :
    after (exec (.rdb 0xC00002) { run with answers := [0xA5, 0x5A] }) (fun t => t.answers = [0x5A] && t.draws = 1) = true := by
  decide
theorem witness_RegisterBaseReachesRegisterFile : run.Routed ∧ run.cfg.regSel = .bits 1 ∧
    isRegisterBase .W 0xE00000 run = true ∧ isRegisterBase .R 0xE00000 run = true ∧
    tableEncoded 16 0x1FFF = some (.regKey 0x1FFF) ∧ tableEncoded 8 0x1F = some (.regOffset 0x1F) := by decide
theorem witness_RegisterBaseReachesRegisterFile_inv : run.Inv ∧ State.reset.Inv ∧ State.reset.cfg.regSel = .bits 1 :=
  ⟨run_inv, ⟨by decide, by decide, by decide, by intro r; cases r <;> decide, fun h => absurd h (by decide), fun _ => by decide,
   fun _ => by decide⟩, by decide⟩
theorem witness_StepKeepsInvariant : run.Inv ∧ after (step run) (fun _ => true) = true := ⟨run_inv, by decide⟩

end Sys2Proof.Tests
end

