-- ==== Sys2Proof/Proofs/MirrorExpander.lean ====
section
/-! PROOFS. The alias sequence runs over every subset of the mirror bits, each once (spec/41_mirror_expander.md R142): a
counter is read back, bit by bit, at the set bits of its own group, and the other group leaves those bits clear. -/

namespace Sys2Proof.Proofs.MirrorExpander

open Sys2Proof Sys2Proof.Machine

/-! ### One group -/

theorem lt_of_mem_setBits {m : Addr} {lo n i : Nat} (hi : i ∈ setBits m lo n) : i < 32 := by
  obtain ⟨-, -, hbit⟩ := mem_setBits.mp hi
  exact BitVec.lt_of_getLsbD hbit

/-- The bit a deposit has at the `j`-th position of its group is the counter's bit `j`. -/
theorem depositBits_getLsbD_getElem (m : Addr) (lo n c : Nat) {j : Nat} (hj : j < (setBits m lo n).length) :
    (depositBits (setBits m lo n) c).getLsbD (setBits m lo n)[j] = c.testBit j := by
  have hn := setBits_nodup m lo n
  rw [Bool.eq_iff_iff, depositBits_bit _ hn c _ (lt_of_mem_setBits (List.getElem_mem hj))]
  constructor
  · rintro ⟨j', hj', hpos, hbit⟩
    rwa [← hn.getElem_inj_iff.mp hpos]
  · exact fun hbit => ⟨j, hj, rfl, hbit⟩

theorem mem_of_depositBits_getLsbD {m : Addr} {lo n c i : Nat}
    (h : (depositBits (setBits m lo n) c).getLsbD i = true) : i ∈ setBits m lo n := by
  obtain ⟨j, hj, rfl, -⟩ := (depositBits_bit _ (setBits_nodup m lo n) c i (BitVec.lt_of_getLsbD h)).mp h
  exact List.getElem_mem hj

/-- The counter whose deposit is the part of `o` inside the group. -/
def counterOf (l : List Nat) (o : Addr) : Nat := Nat.ofBits fun j : Fin l.length => o.getLsbD l[j]

theorem counterOf_lt (l : List Nat) (o : Addr) : counterOf l o < 2 ^ l.length := Nat.ofBits_lt_two_pow _

theorem depositBits_counterOf_bit (m : Addr) (lo n : Nat) (o : Addr) (i : Nat) :
    (depositBits (setBits m lo n) (counterOf (setBits m lo n) o)).getLsbD i = true ↔
      i ∈ setBits m lo n ∧ o.getLsbD i = true := by
  have bit_at {j : Nat} (hj : j < (setBits m lo n).length) :
      (depositBits (setBits m lo n) (counterOf (setBits m lo n) o)).getLsbD (setBits m lo n)[j] =
        o.getLsbD (setBits m lo n)[j] := by
    rw [depositBits_getLsbD_getElem m lo n _ hj]
    exact Nat.testBit_ofBits_lt _ j hj
  constructor
  · intro h
    have hmem := mem_of_depositBits_getLsbD h
    obtain ⟨j, hj, rfl⟩ := List.getElem_of_mem hmem
    exact ⟨hmem, bit_at hj ▸ h⟩
  · rintro ⟨hmem, ho⟩
    obtain ⟨j, hj, rfl⟩ := List.getElem_of_mem hmem
    rwa [bit_at hj]

/-! ### Two groups -/

/-- Of two deposits into groups with no common position, the union determines the first counter. -/
theorem counter_eq_of_depositBits_or_eq {m : Addr} {lo n lo' n' c d x y : Nat}
    (hdisj : (setBits m lo n).Disjoint (setBits m lo' n'))
    (hc : c < 2 ^ (setBits m lo n).length) (hd : d < 2 ^ (setBits m lo n).length)
    (h : depositBits (setBits m lo n) c ||| depositBits (setBits m lo' n') x =
      depositBits (setBits m lo n) d ||| depositBits (setBits m lo' n') y) : c = d := by
  refine Nat.eq_of_testBit_eq fun j => ?_
  by_cases hj : j < (setBits m lo n).length
  · have clear (z : Nat) : (depositBits (setBits m lo' n') z).getLsbD (setBits m lo n)[j] = false :=
      Bool.eq_false_iff.mpr fun hz => hdisj (List.getElem_mem hj) (mem_of_depositBits_getLsbD hz)
    have hbit := congrArg (fun o : Addr => o.getLsbD (setBits m lo n)[j]) h
    simpa only [BitVec.getLsbD_or, clear, Bool.or_false, depositBits_getLsbD_getElem] using hbit
  · have hpow : 2 ^ (setBits m lo n).length ≤ 2 ^ j := Nat.pow_le_pow_right (by decide) (by omega)
    rw [Nat.testBit_lt_two_pow (hc.trans_le hpow), Nat.testBit_lt_two_pow (hd.trans_le hpow)]

theorem highGroup_disjoint_lowGroup (m : Addr) : (highGroup m).Disjoint (lowGroup m) := by
  intro i hhigh hlow
  obtain ⟨hge, -, -⟩ := mem_setBits.mp hhigh
  obtain ⟨-, hlt, -⟩ := mem_setBits.mp hlow
  omega

theorem mem_groups_iff {m : Addr} {i : Nat} : i ∈ highGroup m ∨ i ∈ lowGroup m ↔ m.getLsbD i = true := by
  rw [or_comm, ← List.mem_append, ← setBits_groups, mem_setBits]
  exact ⟨fun ⟨_, _, hbit⟩ => hbit, fun hbit => ⟨by omega, by have := BitVec.lt_of_getLsbD hbit; omega, hbit⟩⟩

/-- `o` is a subset of `m`, in the obligation's spelling. -/
theorem and_not_eq_zero_iff {o m : Addr} :
    o &&& ~~~m = 0 ↔ ∀ i, o.getLsbD i = true → m.getLsbD i = true := by
  constructor
  · intro h i ho
    have hbit := congrArg (fun x : Addr => x.getLsbD i) h
    simpa [ho, BitVec.lt_of_getLsbD ho] using hbit
  · intro h
    refine BitVec.eq_of_getLsbD_eq fun i hi => ?_
    cases ho : o.getLsbD i with
    | false => simp [ho]
    | true => simp [h i ho]

/-! ### The alias offsets -/

/-- `AliasOffset` of a pair of counters, the high group's first (41_mirror_expander.md R137). -/
def aliasOffset (m : Addr) (p : Nat × Nat) : Addr := depositBits (highGroup m) p.1 ||| depositBits (lowGroup m) p.2

/-- Every pair of counters, in the order of the loops. -/
def counterPairs (m : Addr) : List (Nat × Nat) :=
  List.range (2 ^ (highGroup m).length) ×ˢ List.range (2 ^ (lowGroup m).length)

theorem mem_counterPairs {m : Addr} {p : Nat × Nat} :
    p ∈ counterPairs m ↔ p.1 < 2 ^ (highGroup m).length ∧ p.2 < 2 ^ (lowGroup m).length := by
  rw [counterPairs, List.mem_product, List.mem_range, List.mem_range]

theorem aliasOffsets_eq_map (m : Addr) : aliasOffsets m = (counterPairs m).map (aliasOffset m) := by
  simp only [aliasOffsets, counterPairs, SProd.sprod, List.product, List.map_flatMap, List.map_map]
  rfl

theorem aliasOffsets_length (m : Addr) : (aliasOffsets m).length = 2 ^ ((lowGroup m).length + (highGroup m).length) := by
  rw [aliasOffsets_eq_map, List.length_map, counterPairs, List.length_product, List.length_range, List.length_range,
    Nat.pow_add, Nat.mul_comm]

theorem aliasOffset_injOn {m : Addr} {p q : Nat × Nat} (hp : p ∈ counterPairs m) (hq : q ∈ counterPairs m)
    (h : aliasOffset m p = aliasOffset m q) : p = q := by
  obtain ⟨hp₁, hp₂⟩ := mem_counterPairs.mp hp
  obtain ⟨hq₁, hq₂⟩ := mem_counterPairs.mp hq
  have hdisj := highGroup_disjoint_lowGroup m
  have hhigh : p.1 = q.1 := counter_eq_of_depositBits_or_eq hdisj hp₁ hq₁ h
  have swap (r : Nat × Nat) :
      aliasOffset m r = depositBits (lowGroup m) r.2 ||| depositBits (highGroup m) r.1 := BitVec.or_comm _ _
  rw [swap, swap] at h
  have hlow : p.2 = q.2 := counter_eq_of_depositBits_or_eq hdisj.symm hp₂ hq₂ h
  exact Prod.ext hhigh hlow

theorem aliasOffsets_nodup (m : Addr) : (aliasOffsets m).Nodup := by
  rw [aliasOffsets_eq_map]
  exact List.Nodup.map_on (fun p hp q hq => aliasOffset_injOn hp hq) (List.nodup_range.product List.nodup_range)

theorem aliasOffset_subset (m : Addr) (p : Nat × Nat) : aliasOffset m p &&& ~~~m = 0 := by
  refine and_not_eq_zero_iff.mpr fun i hi => ?_
  rw [aliasOffset, BitVec.getLsbD_or, Bool.or_eq_true] at hi
  exact mem_groups_iff.mp (hi.imp mem_of_depositBits_getLsbD mem_of_depositBits_getLsbD)

/-- The counters that pick a subset of the mask out of its two groups give that subset back. -/
theorem aliasOffset_counterOf {m o : Addr} (ho : o &&& ~~~m = 0) :
    aliasOffset m (counterOf (highGroup m) o, counterOf (lowGroup m) o) = o := by
  refine BitVec.eq_of_getLsbD_eq fun i _ => ?_
  have hsub := and_not_eq_zero_iff.mp ho i
  rw [Bool.eq_iff_iff, aliasOffset, BitVec.getLsbD_or, Bool.or_eq_true]
  calc _ ↔ (i ∈ highGroup m ∧ o.getLsbD i = true) ∨ (i ∈ lowGroup m ∧ o.getLsbD i = true) :=
        or_congr (depositBits_counterOf_bit m 18 14 o i) (depositBits_counterOf_bit m 0 18 o i)
    _ ↔ m.getLsbD i = true ∧ o.getLsbD i = true := by rw [← or_and_right, mem_groups_iff]
    _ ↔ o.getLsbD i = true := and_iff_right_of_imp hsub

theorem mem_aliasOffsets {m o : Addr} : o ∈ aliasOffsets m ↔ o &&& ~~~m = 0 := by
  rw [aliasOffsets_eq_map, List.mem_map]
  constructor
  · rintro ⟨p, -, rfl⟩
    exact aliasOffset_subset m p
  · exact fun ho => ⟨_, mem_counterPairs.mpr ⟨counterOf_lt _ o, counterOf_lt _ o⟩, aliasOffset_counterOf ho⟩

/-! ### The alias bounds -/

/-- Settles O16: the counter pairs are the subsets of the mask, each once, and moving the primary keeps them apart. -/
theorem aliasesAreAllSubsets : Obligations.AliasesAreAllSubsets := by
  intro c
  refine ⟨?length, ?nodup, fun b => ?members⟩
  case length => rw [aliases, List.length_map, aliasOffsets_length]
  case nodup =>
    refine (aliasOffsets_nodup c.mirrorMask).map fun o o' h => ?_
    exact (BitVec.add_right_inj c.start).mp (congrArg Bounds.start h)
  case members =>
    rw [aliases, List.mem_map]
    exact exists_congr fun o => and_congr mem_aliasOffsets eq_comm

end Sys2Proof.Proofs.MirrorExpander
end

