-- ==== Sys2Proof/Proofs/MappingManager.lean ====
section
/-! PROOFS. CFG loads the descriptor half of the register file and rebuilds the mapping once (spec/42_mapping_manager.md
R160): what the stored block makes of each register, and the state a recompute leaves with its frame spelled out. -/

namespace Sys2Proof.Proofs.MappingManager

open Sys2Proof Sys2Proof.Machine

/-! ### The stored block -/

theorem storeBlock_getElem_descriptor (block : Block) (regs : Vector Byte 32) (j : Fin 16) :
    (storeBlock block regs)[16 + j.val] = block[j] := by
  simp [storeBlock]

theorem storeBlock_getElem_low (block : Block) (regs : Vector Byte 32) {n : Nat} (h : n < 16) :
    (storeBlock block regs)[n] = regs[n] := by
  simp [storeBlock, show ¬16 ≤ n by omega]

/-! ### RECOMPUTE over a loaded register file -/

theorem requireLive_of_not_live {s : State} (k : StepResult) (hc : s.cfg.wf = true) (hl : s.live = false) :
    requireLive s k = .refused .notLive := by
  simp [requireLive, requireConfig, hc, hl]

theorem ready_setRegs {s : State} (h : s.Ready) (regs : Vector Byte 32) : (s.setRegs regs).Ready := h

theorem exec_recompute_of_ready {s : State} (h : s.Ready) : exec .recompute s = .next ((recompute s).setQ .none) :=
  requireLive_eq h

/-- RECOMPUTE's frame over the state before the load (42_mapping_manager.md R150). -/
theorem recompute_setRegs_eq (s : State) (regs : Vector Byte 32) :
    recompute (s.setRegs regs) =
      { s with
        regs := regs, soft := (recompute (s.setRegs regs)).soft, mwi := (recompute (s.setRegs regs)).mwi,
        flat := (recompute (s.setRegs regs)).flat, built := true } := by
  have hframe : recompute (s.setRegs regs) = _ := recompute_frame (s.setRegs regs)
  rwa [recompute_built] at hframe

/-! ### CFG -/

/-- The state CFG leaves. -/
def afterCfg (block : Block) (s : State) : State := (recompute (s.setRegs (storeBlock block s.regs))).setQ .none

theorem exec_cfg_of_ready {s : State} (h : s.Ready) (block : Block) : exec (.cfg block) s = .next (afterCfg block s) :=
  requireLive_eq h

theorem exec_cfg_of_not_live {s : State} (hc : s.cfg.wf = true) (hl : s.live = false) (block : Block) :
    exec (.cfg block) s = .refused .notLive :=
  requireLive_of_not_live _ hc hl

/-- RECOMPUTE leaves the registers as the block was stored. -/
@[simp] theorem afterCfg_regs (block : Block) (s : State) : (afterCfg block s).regs = storeBlock block s.regs := by
  simp [afterCfg]

theorem afterCfg_reg (block : Block) (s : State) (o : RegOff) :
    (afterCfg block s).reg o = (storeBlock block s.regs)[o.toNat] := by
  simp [State.reg]

theorem afterCfg_reg_descriptor (block : Block) (s : State) (j : Fin 16) :
    (afterCfg block s).reg (BitVec.ofNat 5 (16 + j.val)) = block[j] := by
  have hoff : (BitVec.ofNat 5 (16 + j.val)).toNat = 16 + j.val := by
    rw [BitVec.toNat_ofNat]; omega
  simp only [afterCfg_reg, hoff, storeBlock_getElem_descriptor]

theorem afterCfg_reg_low (block : Block) (s : State) {o : RegOff} (h : o < 0x10#5) :
    (afterCfg block s).reg o = s.reg o := by
  have hoff : o.toNat < 16 := BitVec.lt_def.mp h
  rw [afterCfg_reg, storeBlock_getElem_low block s.regs hoff]
  rfl

/-- CFG writes the registers, the mapping and the result port. -/
theorem afterCfg_frame (block : Block) (s : State) :
    afterCfg block s =
      { s with
        regs := (afterCfg block s).regs, soft := (afterCfg block s).soft, mwi := (afterCfg block s).mwi,
        flat := (afterCfg block s).flat, built := true, q := .none } := by
  have hframe := congrArg (State.setQ · .none) (recompute_setRegs_eq s (storeBlock block s.regs))
  rw [afterCfg_regs]
  exact hframe

/-- CFG is RECOMPUTE from the state that holds the block (42_mapping_manager.md R160). -/
theorem exec_cfg_eq_exec_recompute {s : State} (h : s.Ready) (block : Block) :
    exec (.cfg block) s = exec .recompute (s.setRegs (afterCfg block s).regs) := by
  rw [exec_cfg_of_ready h, exec_recompute_of_ready (ready_setRegs h _), afterCfg_regs]
  rfl

/-- Settles O6: CFG is RECOMPUTE after the block is stored, and RECOMPUTE leaves the registers as they were stored. -/
theorem cfgStoresBlockAndRebuilds : Obligations.CfgStoresBlockAndRebuilds := by
  constructor
  · intro s block h
    exact ⟨afterCfg block s, exec_cfg_of_ready h block, afterCfg_reg_descriptor block s,
      fun _ ho => afterCfg_reg_low block s ho, exec_cfg_eq_exec_recompute h block, afterCfg_frame block s⟩
  · intro s block hc hl
    exact exec_cfg_of_not_live hc hl block

end Sys2Proof.Proofs.MappingManager
end

