-- ==== Sys2Proof/Proofs/BusRouterWrite.lean ====
section
/-! PROOFS. A write goes to the first region that holds the address, else to the register file
(spec/44_bus_router_write.md R204 to R206). The router's twelve lookups are six regions, each asked once, so the first
lookup that hits is the hit of the first region that has one. -/

namespace Sys2Proof.Proofs.BusRouterWrite

open Sys2Proof Sys2Proof.Machine

/-! ### The search, region by region -/

/-- The regions in the order of a write (44_bus_router_write.md R204). -/
def writeOrder : List SoftId := [.tileRAM, .io, .bankLatch, .soundBridge, .math1, .math2]

/-- The two lookups of one region, the primary first. -/
def regionLookups (r : SoftId) : List (SoftId × Part) := [(r, .primary), (r, .mirror)]

theorem writeProbes_eq_flatMap : writeProbes = writeOrder.flatMap regionLookups := rfl

theorem mem_writeOrder (r : SoftId) : r ∈ writeOrder := by cases r <;> decide

/-- What one lookup answers: the region and the start of the range that matched. -/
def lookupHit (t : SoftTables) (a : Addr) (p : SoftId × Part) : Option (SoftId × Addr) :=
  (hitPart (t.get p.1) a p.2).map fun st => (p.1, st)

/-- What both lookups of a region answer. -/
def regionHit (t : SoftTables) (a : Addr) (r : SoftId) : Option (SoftId × Addr) :=
  (hitRegion (t.get r) a).map fun st => (r, st)

theorem regionHit_eq_some_iff {t : SoftTables} {a : Addr} {r r' : SoftId} {st : Addr} :
    regionHit t a r' = some (r, st) ↔ r' = r ∧ hitRegion (t.get r) a = some st := by
  rw [regionHit, Option.map_eq_some_iff]
  constructor
  · rintro ⟨st', hst', heq⟩
    obtain ⟨rfl, rfl⟩ := Prod.mk.inj heq
    exact ⟨rfl, hst'⟩
  · rintro ⟨rfl, hst⟩
    exact ⟨st, hst, rfl⟩

theorem regionHit_eq_none_iff {t : SoftTables} {a : Addr} {r : SoftId} :
    regionHit t a r = none ↔ hitRegion (t.get r) a = none :=
  Option.map_eq_none_iff

theorem findSome_regionLookups (t : SoftTables) (a : Addr) (r : SoftId) :
    (regionLookups r).findSome? (lookupHit t a) = regionHit t a r := by
  simp only [regionLookups, List.findSome?_cons, List.findSome?_nil, lookupHit, hitPart, regionHit, hitRegion]
  cases hitPrimary (t.get r) a with
  | some st => rfl
  | none => cases hitMirror (t.get r) a <;> rfl

/-- Asking lookup by lookup is asking region by region. -/
theorem findSome_flatMap_regionLookups (t : SoftTables) (a : Addr) (rs : List SoftId) :
    (rs.flatMap regionLookups).findSome? (lookupHit t a) = rs.findSome? (regionHit t a) := by
  induction rs with
  | nil => rfl
  | cons r rs ih =>
    rw [List.flatMap_cons, List.findSome?_append, findSome_regionLookups, ih, List.findSome?_cons]
    cases regionHit t a r <;> rfl

theorem writeHit_eq_findSome (t : SoftTables) (a : Addr) : writeHit t a = writeOrder.findSome? (regionHit t a) := by
  rw [← findSome_flatMap_regionLookups, ← writeProbes_eq_flatMap]
  rfl

/-- A write hits the first region, in the order of a write, that holds the address. -/
theorem writeHit_eq_some_iff {t : SoftTables} {a : Addr} {r : SoftId} {st : Addr} :
    writeHit t a = some (r, st) ↔ ∃ before after, writeOrder = before ++ r :: after ∧
      hitRegion (t.get r) a = some st ∧ ∀ r' ∈ before, hitRegion (t.get r') a = none := by
  simp only [writeHit_eq_findSome, List.findSome?_eq_some_iff, regionHit_eq_some_iff, regionHit_eq_none_iff]
  constructor
  · rintro ⟨before, _, after, horder, ⟨rfl, hst⟩, hbefore⟩
    exact ⟨before, after, horder, hst, hbefore⟩
  · rintro ⟨before, after, horder, hst, hbefore⟩
    exact ⟨before, r, after, horder, ⟨rfl, hst⟩, hbefore⟩

theorem writeHit_eq_none_iff {t : SoftTables} {a : Addr} :
    writeHit t a = none ↔ ∀ r, hitRegion (t.get r) a = none := by
  simp only [writeHit_eq_findSome, List.findSome?_eq_none_iff, regionHit_eq_none_iff, mem_writeOrder, true_imp_iff]

/-! ### A write no flat mapping serves -/

/-- The event a bridge emits is the one of R205's table. -/
theorem writeDispatch_eq_emit (r : SoftId) (a st : Addr) (d : Datum) (s : State) :
    writeDispatch r a st d s = s.emit (writeEvent s r a st d) := by
  cases r with
  | io =>
    simp only [writeDispatch, ioWrite, writeEvent, bridgeOffset]
    split <;> rfl
  | _ => rfl

theorem accessWrite_of_hit {s : State} {a : Addr} {r : SoftId} {st : Addr} (hflat : flatLookup .W a s.flat = none)
    (hhit : writeHit s.soft a = some (r, st)) (d : Datum) : accessWrite a d s = s.emit (writeEvent s r a st d) := by
  simp only [accessWrite, hflat, routeWrite, hhit, writeDispatch_eq_emit]

theorem accessWrite_of_miss {s : State} {a : Addr} (hflat : flatLookup .W a s.flat = none)
    (hmiss : writeHit s.soft a = none) (d : Datum) :
    accessWrite a d s = regWrite (selectReg s.cfg.regSel a) (datumLow d) s := by
  simp only [accessWrite, hflat, routeWrite, hmiss]

/-! ### The two transactions -/

theorem exec_wrb_of_routed {s : State} (h : s.Routed) (a : Addr) (d : Byte) :
    exec (.wrb a d) s = .next ((accessWrite a (.byte d) s).setQ .none) :=
  requireBuilt_eq h

theorem exec_wrw_of_routed {s : State} (h : s.Routed) (a : Addr) (w : Word) :
    exec (.wrw a w) s = .next ((accessWrite a (.word w) s).setQ .none) :=
  requireBuilt_eq h

theorem exec_registerKey_of_routed {s : State} (h : s.Routed) (o : RegOff) (v : Byte) :
    exec (decodeKey s.cfg (packKey o v)) s = .next ((regWrite o v s).setQ .none) :=
  (exec_decodeKey s o v).trans (requireBuilt_eq h)

/-- Settles O37: of the lookups in order the first that hits is that of the first region that holds the address, and its
bridge emits one event. -/
theorem writeRoutesInPriorityOrder : Obligations.WriteRoutesInPriorityOrder := by
  intro s a before after r st h hflat horder hbefore hr d w
  have hhit : writeHit s.soft a = some (r, st) := writeHit_eq_some_iff.mpr ⟨before, after, horder, hr, hbefore⟩
  constructor
  · rw [exec_wrb_of_routed h, accessWrite_of_hit hflat hhit]
    rfl
  · rw [exec_wrw_of_routed h, accessWrite_of_hit hflat hhit]
    rfl

/-- Settles O38: a write that misses every region is the register write of the selected offset and the low byte, and so
is the command the key decodes to. -/
theorem unroutedWriteIsRegisterCommand : Obligations.UnroutedWriteIsRegisterCommand := by
  intro s a h hflat hregions d w
  have hmiss : writeHit s.soft a = none := writeHit_eq_none_iff.mpr hregions
  refine ⟨?byte, ?word, ⟨_, exec_wrb_of_routed h a d⟩, ⟨_, exec_wrw_of_routed h a w⟩⟩
  case byte =>
    rw [exec_wrb_of_routed h, accessWrite_of_miss hflat hmiss, exec_registerKey_of_routed h]
    rfl
  case word =>
    rw [exec_wrw_of_routed h, accessWrite_of_miss hflat hmiss, exec_registerKey_of_routed h]
    rfl

end Sys2Proof.Proofs.BusRouterWrite
end

