-- ==== Sys2Proof/Proofs/RegisterCommands.lean ====
section
/-! PROOFS. A register command stores its byte, then has its effect (spec/45_register_commands.md R215 to R230). Each
effect is stated by cases over the stored state; the interrupt lines are then read back off the trace. -/

namespace Sys2Proof.Proofs.RegisterCommands

open Sys2Proof Sys2Proof.Machine

/-! ### The commands in a built state -/

theorem exec_regwrDesc_of_routed {s : State} (h : s.Routed) (j : BitVec 4) (v : Byte) :
    exec (.regwrDesc j v) s =
      .next ((descEffect (s.reg (descOffset j)) v (s.setReg (descOffset j) v)).setQ .none) :=
  requireBuilt_eq h

theorem exec_regwrMode_of_routed {s : State} (h : s.Routed) (v : Byte) :
    exec (.regwrMode v) s = .next ((modeEffect (s.reg s.cfg.regMode) v (s.setReg s.cfg.regMode v)).setQ .none) :=
  requireBuilt_eq h

theorem exec_regwrIrq_of_routed {s : State} (h : s.Routed) (v : Byte) :
    exec (.regwrIrq v) s = .next ((irqEffect v (s.setReg s.cfg.regIrq v)).setQ .none) :=
  requireBuilt_eq h

theorem exec_regwrSndlatch_of_routed {s : State} (h : s.Routed) (v : Byte) :
    exec (.regwrSndlatch v) s = .next ((sndlatchEffect v (s.setReg s.cfg.regSndlatch v)).setQ .none) :=
  requireBuilt_eq h

theorem exec_regwrPlain_of_routed {s : State} (h : s.Routed) (o : BitVec 4) (v : Byte) :
    exec (.regwrPlain o v) s = .next ((s.setReg (lowOffset o) v).setQ .none) :=
  requireBuilt_eq h

theorem exec_rst_of_ready {s : State} (h : s.Ready) : exec .rst s = .next ((rstBody s).setQ .none) :=
  requireLive_eq h

theorem ready_setReg {s : State} (h : s.Ready) (o : RegOff) (v : Byte) : (s.setReg o v).Ready := h

theorem ready_requestMachineReset {s : State} (h : s.Ready) : (requestMachineReset s).Ready := h

/-! ### What is stored -/

/-- A write of the result port leaves the registers as they stand. -/
@[simp] theorem reg_setQ (s : State) (x : QPort) (o : RegOff) : (s.setQ x).reg o = s.reg o := rfl

/-- RECOMPUTE leaves the registers as they stand. -/
@[simp] theorem reg_recompute (s : State) (o : RegOff) : (recompute s).reg o = s.reg o := by
  simp [State.reg]

/-- RECOMPUTE's frame over the state before the store (42_mapping_manager.md R150). -/
theorem recompute_setReg_eq (s : State) (o : RegOff) (v : Byte) :
    recompute (s.setReg o v) =
      { s with
        regs := (recompute (s.setReg o v)).regs, soft := (recompute (s.setReg o v)).soft,
        mwi := (recompute (s.setReg o v)).mwi, flat := (recompute (s.setReg o v)).flat, built := true } := by
  rw [recompute_regs]
  exact MappingManager.recompute_setRegs_eq s (s.regs.set o.toFin v)

/-- Settles O45: the store is the whole command. -/
theorem plainWriteOnlyStores : Obligations.PlainWriteOnlyStores := by
  intro s o v h
  exact ⟨_, exec_regwrPlain_of_routed h o v, reg_setReg_self s _ v, fun _ ho => reg_setReg_of_ne s v ho, rfl⟩

/-! ### REGWR.DESC -/

@[simp] theorem descEffect_same (v : Byte) (s : State) : descEffect v v s = s := if_pos rfl

theorem descEffect_of_ne {old v : Byte} (h : v ≠ old) (s : State) : descEffect old v s = recompute s := if_neg h

/-- Storing the byte the descriptor holds and having no effect leaves the state as it was. -/
theorem exec_regwrDesc_of_same {s : State} (h : s.Routed) (j : BitVec 4) :
    exec (.regwrDesc j (s.reg (descOffset j))) s = .next (s.setQ .none) := by
  rw [exec_regwrDesc_of_routed h, descEffect_same, setReg_self]

theorem exec_regwrDesc_of_ne {s : State} (h : s.Routed) {j : BitVec 4} {v : Byte} (hv : v ≠ s.reg (descOffset j)) :
    exec (.regwrDesc j v) s = .next ((recompute (s.setReg (descOffset j) v)).setQ .none) := by
  rw [exec_regwrDesc_of_routed h, descEffect_of_ne hv]

/-- Settles O40: a changed byte is stored and the mapping rebuilt from it, and a recompute leaves every register as it
was stored. -/
theorem descriptorWriteRecomputesIffChanged : Obligations.DescriptorWriteRecomputesIffChanged := by
  intro s j v h
  constructor
  · rintro rfl
    exact exec_regwrDesc_of_same h j
  · intro hv
    have hexec := exec_regwrDesc_of_ne h hv
    refine ⟨?recomputes, _, hexec, ?stored, ?others, ?built, ?frame⟩
    case recomputes => rw [hexec, MappingManager.exec_recompute_of_ready (ready_setReg h.ready _ _)]
    case stored => simp
    case others =>
      intro o ho
      simp [reg_setReg_of_ne s v ho]
    case built => simp
    case frame => exact congrArg (State.setQ · .none) (recompute_setReg_eq s (descOffset j) v)

/-! ### REGWR.MODE -/

theorem modeEffect_of_no_transition {old v : Byte} (h : ¬(old.extractLsb' 0 2 ≠ 3#2 ∧ v.extractLsb' 0 2 = 3#2))
    (s : State) : modeEffect old v s = s :=
  if_neg h

theorem modeEffect_of_transition {old v : Byte} (hold : old.extractLsb' 0 2 ≠ 3#2) (hv : v.extractLsb' 0 2 = 3#2)
    (s : State) :
    modeEffect old v s =
      if s.cfg.mresetImpliesRst = true then rstBody (requestMachineReset s) else requestMachineReset s :=
  if_pos ⟨hold, hv⟩

/-- Settles O41: the effect asks for a machine reset on the transition alone, and where that implies RST it goes on with
the body RST has. -/
theorem modeWriteRequestsResetOnTransition : Obligations.ModeWriteRequestsResetOnTransition := by
  intro s v h
  refine ⟨fun hno => ?stores, fun hold hv =>
    ⟨fun hrst => ?requests, fun hrst => ⟨?resets, _, exec_regwrMode_of_routed h v⟩⟩⟩
  case stores =>
    rw [exec_regwrMode_of_routed h, modeEffect_of_no_transition hno]
    rfl
  case requests =>
    rw [exec_regwrMode_of_routed h, modeEffect_of_transition hold hv, setReg_cfg, hrst, if_neg Bool.false_ne_true]
    rfl
  case resets =>
    have hready := ready_requestMachineReset (ready_setReg h.ready s.cfg.regMode v)
    rw [exec_regwrMode_of_routed h, modeEffect_of_transition hold hv, setReg_cfg, if_pos hrst]
    exact (exec_rst_of_ready hready).symm

/-! ### REGWR.IRQ -/

/-- The complement of the low three bits, as a number (45_register_commands.md R222). -/
theorem assertedLine_toNat (v : Byte) : (assertedLine v).toNat = 7 - v.toNat % 8 := by
  simp [assertedLine]

/-- The level one write gives a line (45_register_commands.md R222). -/
def drivenLevel (v : Byte) (l : BitVec 3) : Level := if l.toNat = 7 - v.toNat % 8 then .assert else .deassert

theorem level_eq_drivenLevel (v : Byte) (l : BitVec 3) :
    (if l = assertedLine v then Level.assert else .deassert) = drivenLevel v l := by
  simp only [drivenLevel, ← BitVec.toNat_inj, assertedLine_toNat]

theorem irqEffect_of_seven {v : Byte} (h : v.extractLsb' 0 3 = 7#3) (s : State) : irqEffect v s = s := if_pos h

theorem irqEffect_of_ne_seven {v : Byte} (h : v.extractLsb' 0 3 ≠ 7#3) (s : State) :
    irqEffect v s = s.emits (irqLines.map fun l => .irq l (drivenLevel v l)) := by
  simp only [irqEffect, if_neg h, level_eq_drivenLevel]

/-- Of two traces one after the other the later one decides. -/
theorem lineLevel_append (l : BitVec 3) (es es' : List Event) :
    lineLevel l (es ++ es') = (lineLevel l es').or (lineLevel l es) := by
  induction es with
  | nil => simp [lineLevel]
  | cons e es ih =>
    simp only [List.cons_append, lineLevel, ih]
    cases lineLevel l es' <;> rfl

/-- Driving a list of lines, each to its own level, sets those lines and no other. -/
theorem lineLevel_map_irq (f : BitVec 3 → Level) (l : BitVec 3) (ls : List (BitVec 3)) :
    lineLevel l (ls.map fun l' => .irq l' (f l')) = if l ∈ ls then some (f l) else none := by
  induction ls with
  | nil => rfl
  | cons x ls ih =>
    simp only [List.map_cons, lineLevel, ih, List.mem_cons]
    by_cases hlater : l ∈ ls
    · simp [hlater]
    · by_cases hhere : x = l
      · simp [hhere, hlater]
      · simp [hhere, hlater, Ne.symm hhere]

theorem mem_irqLines (l : BitVec 3) : l ∈ irqLines := by revert l; decide

/-- Settles O42: the eight events drive every line, so the trace before them no longer matters. -/
theorem irqWriteDrivesEightLines : Obligations.IrqWriteDrivesEightLines := by
  intro s v h
  refine ⟨fun hseven => ?stores, fun hne => ⟨_, exec_regwrIrq_of_routed h v, ?events, fun l => ?level⟩⟩
  case stores =>
    rw [exec_regwrIrq_of_routed h, irqEffect_of_seven hseven]
    rfl
  case events =>
    rw [irqEffect_of_ne_seven hne]
    rfl
  case level =>
    rw [irqEffect_of_ne_seven hne, setQ_out, emits_out, lineLevel_append, lineLevel_map_irq,
      if_pos (mem_irqLines l)]
    rfl

/-! ### REGWR.SNDLATCH -/

theorem sndlatchEffect_of_altSound {s : State} (h : s.cfg.profile.altSound = true) (v : Byte) :
    sndlatchEffect v s = s :=
  if_pos h

theorem sndlatchEffect_of_not_altSound {s : State} (h : s.cfg.profile.altSound = false) (v : Byte) :
    sndlatchEffect v s = s.emit (.soundLatch v) :=
  if_neg (Bool.eq_false_iff.mp h)

/-- Settles O43: the effect looks at the profile alone. -/
theorem soundLatchForwardsEveryWrite : Obligations.SoundLatchForwardsEveryWrite := by
  intro s v h
  rw [exec_regwrSndlatch_of_routed h]
  constructor
  · intro hsound
    rw [sndlatchEffect_of_not_altSound (s := s.setReg s.cfg.regSndlatch v) hsound]
    rfl
  · intro hsound
    rw [sndlatchEffect_of_altSound (s := s.setReg s.cfg.regSndlatch v) hsound]
    rfl

end Sys2Proof.Proofs.RegisterCommands
end

