-- ==== Sys2Proof/Proofs/Lifecycle.lean ====
section
/-! PROOFS. The lifecycle (spec/47_lifecycle.md R260 to R275): the state each host operation leaves, and when. RST and
RESTORE share one shape, a register file loaded under a clear guard and one recompute. The lifecycle state machine then
needs of a bus transaction or register command only that it asks for a built state and keeps it built. -/

namespace Sys2Proof.Proofs.Lifecycle

open Sys2Proof Sys2Proof.Machine

/-! ### INIT, EXIT, SETHOOK and SAVE -/

theorem exec_init_of_wf {s : State} (h : s.cfg.wf = true) :
    exec .init s = .next ((s.zeroed.setLive true).setQ .none) :=
  requireConfig_eq h

/-- Settles O3: INIT asks nothing of the state but its parameters. -/
theorem initFromAnyState : Obligations.InitFromAnyState := fun _ h => exec_init_of_wf h

theorem exec_exit_of_ready {s : State} (h : s.Ready) :
    exec .exit s = .next ((s.zeroed.setLive false).setQ .none) :=
  requireLive_eq h

theorem exec_sethook_of_ready {s : State} (h : s.Ready) (r w : Bool) :
    exec (.sethook r w) s = .next ((s.setHooks r w).setQ .none) :=
  requireLive_eq h

theorem exec_save_of_ready {s : State} (h : s.Ready) :
    exec .save s = .next (s.setQ (.snapshot (packSnapshot s.regs s.mwi))) :=
  requireLive_eq h

/-- Settles O7: both slots are set by one update. -/
theorem sethookSetsBothSlots : Obligations.SethookSetsBothSlots := by
  constructor
  · intro s r w h
    exact exec_sethook_of_ready h r w
  · intro s r w hc hl
    exact MappingManager.requireLive_of_not_live _ hc hl

/-- The register file fills the first 32 bytes of a snapshot (30_encoding.md R98). -/
theorem packSnapshot_getElem_register (s : State) (j : Fin 32) :
    (packSnapshot s.regs s.mwi)[j.val] = s.reg (BitVec.ofNat 5 j.val) := by
  simp [packSnapshot, State.reg, Vector.getElem_push_lt]

/-- The write index is the last byte of a snapshot (30_encoding.md R98). -/
theorem packSnapshot_getElem_index (regs : Vector Byte 32) (mwi : Nat) :
    (packSnapshot regs mwi)[32] = BitVec.ofNat 8 mwi :=
  Vector.getElem_push_eq

/-- Settles O8: SAVE writes the result port alone, and the snapshot there is read byte by byte. -/
theorem saveReturnsSnapshot : Obligations.SaveReturnsSnapshot := by
  constructor
  · intro s h
    exact ⟨_, exec_save_of_ready h, packSnapshot_getElem_register s, packSnapshot_getElem_index s.regs s.mwi⟩
  · intro s hc hl
    exact MappingManager.requireLive_of_not_live _ hc hl

/-! ### RST and RESTORE: a load, then a recompute -/

/-- The state RST and RESTORE recompute from: a register file loaded and the guard clear (47_lifecycle.md R264, R272). -/
def loaded (regs : Vector Byte 32) (s : State) : State := (s.setRegs regs).setGuard false

theorem ready_loaded {s : State} (h : s.Ready) (regs : Vector Byte 32) : (loaded regs s).Ready := h

/-- RECOMPUTE's frame over the state before the load (42_mapping_manager.md R150). -/
theorem recompute_loaded_eq (regs : Vector Byte 32) (s : State) :
    recompute (loaded regs s) =
      { s with
        regs := regs, guard := false, soft := (recompute (loaded regs s)).soft, mwi := (recompute (loaded regs s)).mwi,
        flat := (recompute (loaded regs s)).flat, built := true } :=
  MappingManager.recompute_setRegs_eq (s.setGuard false) regs

/-- The registers RST leaves (47_lifecycle.md R264). -/
def rstRegs (s : State) : Vector Byte 32 := if s.cfg.resetClearsRegs = true then zeroRegs else s.regs

theorem rstBody_eq_recompute_loaded (s : State) : rstBody s = recompute (loaded (rstRegs s) s) := by
  unfold rstBody rstRegs
  split <;> rfl

/-- The state RST leaves. -/
def afterRst (s : State) : State := (recompute (loaded (rstRegs s) s)).setQ .none

theorem exec_rst_of_ready {s : State} (h : s.Ready) : exec .rst s = .next (afterRst s) := by
  rw [RegisterCommands.exec_rst_of_ready h, rstBody_eq_recompute_loaded, afterRst]

/-- Settles O5: RST is RECOMPUTE from the loaded state, whose frame names all that changes. -/
theorem rstClearsAndRebuilds : Obligations.RstClearsAndRebuilds := by
  constructor
  · intro s h
    have hexec := exec_rst_of_ready h
    refine ⟨?recomputes, _, hexec, ?frame⟩
    case recomputes => exact hexec.trans (MappingManager.exec_recompute_of_ready (ready_loaded h _)).symm
    case frame => exact congrArg (State.setQ · .none) (recompute_loaded_eq (rstRegs s) s)
  · intro s hc hl
    exact MappingManager.requireLive_of_not_live _ hc hl

/-- The state RESTORE leaves: the saved index is stored last (47_lifecycle.md R272). -/
def afterRestore (snap : Snapshot) (s : State) : State :=
  ((recompute (loaded (snapshotRegs snap) s)).setMwi (snapshotIndex snap).toNat).setQ .none

theorem exec_restore_of_ready {s : State} (h : s.Ready) {snap : Snapshot} (hi : (snap[32]).toNat ≤ 32) :
    exec (.restore snap) s = .next (afterRestore snap s) :=
  (requireLive_eq h).trans (if_pos hi)

theorem exec_restore_of_index {s : State} (h : s.Ready) {snap : Snapshot} (hi : 32 < (snap[32]).toNat) :
    exec (.restore snap) s = .refused (.snapshotIndex snap[32]) :=
  (requireLive_eq h).trans (if_neg (Nat.not_le.mpr hi))

@[simp] theorem afterRestore_regs (snap : Snapshot) (s : State) : (afterRestore snap s).regs = snapshotRegs snap := by
  simp [afterRestore, loaded]

theorem afterRestore_reg (snap : Snapshot) (s : State) (j : Fin 32) :
    (afterRestore snap s).reg (BitVec.ofNat 5 j.val) = snap[j.val] := by
  simp [State.reg, snapshotRegs]

/-- RESTORE writes the registers, the guard, the mapping and the result port. -/
theorem afterRestore_frame (snap : Snapshot) (s : State) :
    afterRestore snap s =
      { s with
        regs := (afterRestore snap s).regs, guard := false, soft := (afterRestore snap s).soft,
        mwi := (afterRestore snap s).mwi, flat := (afterRestore snap s).flat, built := true, q := .none } := by
  rw [afterRestore_regs]
  exact congrArg (fun t => (t.setMwi (snapshotIndex snap).toNat).setQ .none) (recompute_loaded_eq (snapshotRegs snap) s)

theorem exec_recompute_loaded_afterRestore {s : State} (h : s.Ready) (snap : Snapshot) :
    exec .recompute (loaded (afterRestore snap s).regs s) =
      .next ((recompute (loaded (snapshotRegs snap) s)).setQ .none) := by
  rw [afterRestore_regs, MappingManager.exec_recompute_of_ready (ready_loaded h _)]

/-- Settles O9: RESTORE is RECOMPUTE from the loaded state with the saved index stored over the one it computed. -/
theorem restoreLoadsAndRebuilds : Obligations.RestoreLoadsAndRebuilds := by
  refine ⟨fun s p h hi => ?restores, fun s p h hi => exec_restore_of_index h hi,
    fun s p hc hl => MappingManager.requireLive_of_not_live _ hc hl⟩
  exact ⟨afterRestore p s, _, exec_restore_of_ready h hi, afterRestore_reg p s, rfl,
    exec_recompute_loaded_afterRestore h p, rfl, afterRestore_frame p s⟩

/-! ### What any host operation leaves -/

/-- The state a host operation leaves where it completes; the other operations are set aside. -/
def hostResult (i : Instr) (s : State) : State :=
  match i with
  | .init => (s.zeroed.setLive true).setQ .none
  | .exit => (s.zeroed.setLive false).setQ .none
  | .rst => afterRst s
  | .cfg block => MappingManager.afterCfg block s
  | .sethook r w => (s.setHooks r w).setQ .none
  | .save => s.setQ (.snapshot (packSnapshot s.regs s.mwi))
  | .restore snap => afterRestore snap s
  | _ => s

/-- A live block completes every host operation but RESTORE of an index above 32. -/
theorem exec_host_of_ready {s : State} {i : Instr} (hi : i.opClass = .host)
    (hindex : ∀ p : Snapshot, i = .restore p → (p[32]).toNat ≤ 32) (h : s.Ready) :
    exec i s = .next (hostResult i s) := by
  cases i with
  | init => exact exec_init_of_wf h.1
  | exit => exact exec_exit_of_ready h
  | rst => exact exec_rst_of_ready h
  | cfg block => exact MappingManager.exec_cfg_of_ready h block
  | sethook r w => exact exec_sethook_of_ready h r w
  | save => exact exec_save_of_ready h
  | restore snap => exact exec_restore_of_ready h (hindex snap rfl)
  | _ => cases hi

theorem eq_of_requireLive_next {s t u : State} (h : requireLive s (.next u) = .next t) : t = u :=
  (Host.Outcome.next.inj (requireLive_next h).2).symm

/-- The converse: a host operation that completes has left that state. -/
theorem eq_hostResult_of_exec_next {s t : State} {i : Instr} (hi : i.opClass = .host) (h : exec i s = .next t) :
    t = hostResult i s := by
  cases i with
  | init => exact (Host.Outcome.next.inj (requireConfig_next h).2).symm
  | rst => rw [eq_of_requireLive_next h, rstBody_eq_recompute_loaded]; rfl
  | restore snap =>
    obtain ⟨-, hbody⟩ := requireLive_next h
    split at hbody
    · exact (Host.Outcome.next.inj hbody).symm
    · cases hbody
  | exit | cfg | sethook | save => exact eq_of_requireLive_next h
  | _ => cases hi

theorem afterRst_silent (s : State) :
    (afterRst s).out = s.out ∧ (afterRst s).answers = s.answers ∧ (afterRst s).draws = s.draws := by
  simp [afterRst, loaded]

theorem afterCfg_silent (block : Block) (s : State) :
    (MappingManager.afterCfg block s).out = s.out ∧ (MappingManager.afterCfg block s).answers = s.answers ∧
    (MappingManager.afterCfg block s).draws = s.draws := by
  simp [MappingManager.afterCfg]

theorem afterRestore_silent (snap : Snapshot) (s : State) :
    (afterRestore snap s).out = s.out ∧ (afterRestore snap s).answers = s.answers ∧
    (afterRestore snap s).draws = s.draws := by
  simp [afterRestore, loaded]

theorem hostResult_silent {i : Instr} (hi : i.opClass = .host) (s : State) :
    (hostResult i s).out = s.out ∧ (hostResult i s).answers = s.answers ∧ (hostResult i s).draws = s.draws := by
  cases i with
  | rst => exact afterRst_silent s
  | cfg block => exact afterCfg_silent block s
  | restore snap => exact afterRestore_silent snap s
  | init | exit | sethook | save => exact ⟨rfl, rfl, rfl⟩
  | _ => cases hi

/-- Settles O11: no state a host operation leaves has another trace or another place of the oracle. -/
theorem hostOperationsAreSilent : Obligations.HostOperationsAreSilent := by
  intro i s t hi h
  rw [eq_hostResult_of_exec_next hi h]
  exact hostResult_silent hi s

/-! ### Refusals -/

theorem requireLive_refused {s : State} (k : StepResult) (hl : s.live = false) :
    ∃ r, requireLive s k = .refused r := by
  unfold requireLive requireConfig
  rw [if_neg (Bool.eq_false_iff.mp hl)]
  split <;> exact ⟨_, rfl⟩

/-- While the block is not live every operation but INIT is refused (60_exceptions.md R296). -/
theorem exec_refused_of_not_live {s : State} {i : Instr} (hi : i ≠ .init) (hl : s.live = false) :
    ∃ r, exec i s = .refused r := by
  cases i with
  | init => exact absurd rfl hi
  | reserved5 | reserved6 | reserved7 | reservedF => exact ⟨_, rfl⟩
  | _ => exact requireLive_refused _ hl

/-- An operation that completes and is not INIT found the block live. -/
theorem live_of_exec_next {s t : State} {i : Instr} (hi : i ≠ .init) (h : exec i s = .next t) : s.live = true := by
  by_contra hl
  obtain ⟨r, hr⟩ := exec_refused_of_not_live hi (Bool.eq_false_iff.mpr hl)
  cases hr.symm.trans h

/-- Settles O4: EXIT leaves `live` false, and nothing but INIT completes from there. -/
theorem exitTearsDown : Obligations.ExitTearsDown := by
  refine ⟨fun s h => exec_exit_of_ready h, fun s t i h hi => exec_refused_of_not_live hi ?down,
    fun s hc hl => MappingManager.requireLive_of_not_live _ hc hl⟩
  case down =>
    rw [eq_hostResult_of_exec_next rfl h]
    rfl

/-! ### The lifecycle state -/

theorem phase_eq_down_iff {s : State} : s.phase = .down ↔ s.live = false := by
  simp [State.phase, ite_eq_iff]

theorem phase_eq_idle_iff {s : State} : s.phase = .idle ↔ s.live = true ∧ s.built = false := by
  simp [State.phase, ite_eq_iff]

theorem phase_eq_run_iff {s : State} : s.phase = .run ↔ s.live = true ∧ s.built = true := by
  simp [State.phase, ite_eq_iff]

@[simp] theorem phase_setQ (s : State) (q : QPort) : (s.setQ q).phase = s.phase := rfl

theorem phase_afterRst {s : State} (hl : s.live = true) : (afterRst s).phase = .run :=
  phase_eq_run_iff.mpr (by simp [afterRst, loaded, hl])

theorem phase_afterCfg (block : Block) {s : State} (hl : s.live = true) :
    (MappingManager.afterCfg block s).phase = .run :=
  phase_eq_run_iff.mpr (by simp [MappingManager.afterCfg, hl])

theorem phase_afterRestore (snap : Snapshot) {s : State} (hl : s.live = true) : (afterRestore snap s).phase = .run :=
  phase_eq_run_iff.mpr (by simp [afterRestore, loaded, hl])

/-- A read keeps the lifecycle state. -/
theorem phase_of_readFrame {s t : State} (h : ReadFrame s t) : t.phase = s.phase := by
  rw [h.1]; rfl

/-- A write in RUN stays in RUN. -/
theorem phase_of_writeFrame {s t : State} (h : WriteFrame s t) (hs : s.phase = .run) : t.phase = .run := by
  obtain ⟨hlive, hbuilt⟩ := phase_eq_run_iff.mp hs
  exact phase_eq_run_iff.mpr ⟨h.live.trans hlive, h.built hbuilt⟩

/-! ### Bus transactions, register commands and register reads -/

theorem writeFrame_descEffect (old v : Byte) (s : State) : WriteFrame s (descEffect old v s) := by
  unfold descEffect
  split
  · exact .refl s
  · exact writeFrame_recompute s

theorem writeFrame_modeEffect (old v : Byte) (s : State) : WriteFrame s (modeEffect old v s) := by
  unfold modeEffect
  split
  · split
    · exact (writeFrame_emits s _).trans (writeFrame_rstBody _)
    · exact writeFrame_emits s _
  · exact .refl s

theorem writeFrame_irqEffect (v : Byte) (s : State) : WriteFrame s (irqEffect v s) := by
  unfold irqEffect
  split
  · exact .refl s
  · exact writeFrame_emits s _

theorem writeFrame_sndlatchEffect (v : Byte) (s : State) : WriteFrame s (sndlatchEffect v s) := by
  unfold sndlatchEffect
  split
  · exact .refl s
  · exact writeFrame_emit s _

/-- The operations that reach the routing: bus transactions, and the register commands and reads behind them. -/
def IsAccess (i : Instr) : Prop := i.opClass = .bus ∨ i.opClass = .register

/-- `r` is the answer of an access: a state RUN is asked for and kept (47_lifecycle.md R261, R263). -/
def KeepsRun (s : State) (r : StepResult) : Prop :=
  ∃ u, r = requireBuilt s (.next u) ∧ (s.phase = .run → u.phase = .run)

theorem keepsRun_of_readFrame {s : State} {r : Datum × State} (h : ReadFrame s r.2) :
    KeepsRun s (requireBuilt s (readResult r)) :=
  ⟨_, rfl, fun hs => (phase_of_readFrame h).trans hs⟩

theorem keepsRun_of_writeFrame {s t : State} (h : WriteFrame s t) (q : QPort) :
    KeepsRun s (requireBuilt s (.next (t.setQ q))) :=
  ⟨_, rfl, fun hs => (phase_setQ t q).trans (phase_of_writeFrame h hs)⟩

theorem exec_access_keepsRun {i : Instr} (hi : IsAccess i) (s : State) : KeepsRun s (exec i s) := by
  have hstore := writeFrame_setReg s
  cases i with
  | rdb a => exact keepsRun_of_readFrame (accessRead_openBus_frame .R a .byte s)
  | rdw a => exact keepsRun_of_readFrame (accessRead_openBus_frame .R a .word s)
  | ftw a => exact keepsRun_of_readFrame (accessRead_openBus_frame .F a .word s)
  | wrb a d => exact keepsRun_of_writeFrame (writeFrame_accessWrite a (.byte d) s) .none
  | wrw a d => exact keepsRun_of_writeFrame (writeFrame_accessWrite a (.word d) s) .none
  | regwrDesc j v => exact keepsRun_of_writeFrame ((hstore _ v).trans (writeFrame_descEffect _ v _)) .none
  | regwrMode v => exact keepsRun_of_writeFrame ((hstore _ v).trans (writeFrame_modeEffect _ v _)) .none
  | regwrSndlatch v => exact keepsRun_of_writeFrame ((hstore _ v).trans (writeFrame_sndlatchEffect v _)) .none
  | regwrIrq v => exact keepsRun_of_writeFrame ((hstore _ v).trans (writeFrame_irqEffect v _)) .none
  | regwrDma v => exact keepsRun_of_writeFrame (hstore _ v) .none
  | regwrPlain o v => exact keepsRun_of_writeFrame (hstore _ v) .none
  | regrd o => exact keepsRun_of_writeFrame (.refl s) (.view (regRead s o))
  | _ => rcases hi with hi | hi <;> cases hi

/-- RUN completes every access. -/
theorem exec_access_of_run {s : State} {i : Instr} (hi : IsAccess i) (hc : s.cfg.wf = true) (hs : s.phase = .run) :
    ∃ t, exec i s = .next t := by
  obtain ⟨u, hexec, -⟩ := exec_access_keepsRun hi s
  exact ⟨u, hexec.trans (requireBuilt_eq ⟨hc, phase_eq_run_iff.mp hs⟩)⟩

/-- An access that completes started in RUN and stayed there. -/
theorem phase_of_exec_access {s t : State} {i : Instr} (hi : IsAccess i) (h : exec i s = .next t) :
    s.phase = .run ∧ t.phase = .run := by
  obtain ⟨u, hexec, hrun⟩ := exec_access_keepsRun hi s
  obtain ⟨⟨-, hlive, hbuilt⟩, hnext⟩ := requireBuilt_next (hexec.symm.trans h)
  have hs : s.phase = .run := phase_eq_run_iff.mpr ⟨hlive, hbuilt⟩
  cases hnext
  exact ⟨hs, hrun hs⟩

/-! ### The lifecycle state machine -/

/-- What each lifecycle state accepts (47_lifecycle.md R263). -/
def accepts (i : Instr) : Phase → Prop
  | .down => i = .init
  | .idle => i.opClass = .host
  | .run => True

/-- Where an accepted operation leads (47_lifecycle.md R263). -/
def phaseAfter (p : Phase) : Instr → Phase
  | .init => .idle
  | .exit => .down
  | .rst => .run
  | .cfg _ => .run
  | .restore _ => .run
  | _ => p

theorem accepts_of_exec_next {s t : State} {i : Instr} (hi : i.opClass = .host ∨ IsAccess i)
    (h : exec i s = .next t) : accepts i s.phase := by
  cases hs : s.phase with
  | down =>
    by_contra hinit
    exact Bool.false_ne_true ((phase_eq_down_iff.mp hs).symm.trans (live_of_exec_next hinit h))
  | idle =>
    rcases hi with hhost | haccess
    · exact hhost
    · cases hs.symm.trans (phase_of_exec_access haccess h).1
  | run => trivial

theorem exec_next_of_accepts {s : State} {i : Instr} (hi : i.opClass = .host ∨ IsAccess i) (hc : s.cfg.wf = true)
    (hindex : ∀ p : Snapshot, i = .restore p → (p[32]).toNat ≤ 32) (h : accepts i s.phase) :
    ∃ t, exec i s = .next t := by
  cases hs : s.phase with
  | down =>
    rw [hs] at h
    cases h
    exact ⟨_, exec_init_of_wf hc⟩
  | idle =>
    rw [hs] at h
    exact ⟨_, exec_host_of_ready h hindex ⟨hc, (phase_eq_idle_iff.mp hs).1⟩⟩
  | run =>
    rcases hi with hhost | haccess
    · exact ⟨_, exec_host_of_ready hhost hindex ⟨hc, (phase_eq_run_iff.mp hs).1⟩⟩
    · exact exec_access_of_run haccess hc hs

/-- A host operation in a live block leads where the table says. -/
theorem hostResult_phase {s : State} {i : Instr} (hi : i.opClass = .host) (hl : i ≠ .init → s.live = true) :
    (hostResult i s).phase = phaseAfter s.phase i := by
  cases i with
  | rst => exact phase_afterRst (hl nofun)
  | cfg block => exact phase_afterCfg block (hl nofun)
  | restore snap => exact phase_afterRestore snap (hl nofun)
  | init | exit | sethook | save => rfl
  | _ => cases hi

theorem phaseAfter_access {i : Instr} (hi : IsAccess i) (p : Phase) : phaseAfter p i = p := by
  cases i with
  | init | exit | rst | cfg | restore => rcases hi with hi | hi <;> cases hi
  | _ => rfl

theorem phase_of_exec_next {s t : State} {i : Instr} (hi : i.opClass = .host ∨ IsAccess i) (h : exec i s = .next t) :
    t.phase = phaseAfter s.phase i := by
  rcases hi with hhost | haccess
  · rw [eq_hostResult_of_exec_next hhost h]
    exact hostResult_phase hhost fun hinit => live_of_exec_next hinit h
  · obtain ⟨hs, ht⟩ := phase_of_exec_access haccess h
    rw [phaseAfter_access haccess, hs, ht]

/-- Settles O2: a completed operation was accepted, an accepted one completes, and the state it leaves has its place in
the table. -/
theorem lifecycleStateMachine : Obligations.LifecycleStateMachine := by
  refine ⟨⟨rfl, fun s t h => ?exits⟩, fun s i hc hclass hindex => ?machine⟩
  case exits =>
    rw [eq_hostResult_of_exec_next rfl h]
    exact ⟨rfl, rfl, rfl, rfl, rfl, rfl, rfl, rfl, rfl⟩
  case machine =>
    have hi : i.opClass = .host ∨ IsAccess i := or_left_comm.mp hclass
    exact ⟨⟨fun ⟨_, h⟩ => accepts_of_exec_next hi h, exec_next_of_accepts hi hc hindex⟩,
      fun _ h => phase_of_exec_next hi h⟩

end Sys2Proof.Proofs.Lifecycle
end

