-- ==== Sys2Proof/Proofs/Exceptions.lean ====
section
/-! PROOFS. The refused stimuli (spec/60_exceptions.md R296). The block raises no fault (R280), so an operation is refused
exactly where it does not complete; what is to be shown is that completing excludes each row of the list, and that no other
bundle fails to complete. -/

namespace Sys2Proof.Proofs.Exceptions

open Sys2Proof Sys2Proof.Machine

/-! ### The two outcomes -/

/-- There is no third outcome: the machine has no fault (60_exceptions.md R280). -/
theorem refused_or_next (k : StepResult) : (∃ r, k = .refused r) ∨ ∃ u, k = .next u := by
  cases k with
  | next u => exact .inr ⟨u, rfl⟩
  | fault f => cases f
  | refused r => exact .inl ⟨r, rfl⟩

theorem refused_iff_not_next (k : StepResult) : (∃ r, k = .refused r) ↔ ¬∃ u, k = .next u := by
  refine ⟨?_, (refused_or_next k).resolve_right⟩
  rintro ⟨r, rfl⟩ ⟨u, hu⟩
  cases hu

/-! ### The list -/

/-- The five rows of 60_exceptions.md R296. -/
def RefusalListed (i : Instr) (s : State) : Prop :=
  (i ≠ .init ∧ s.live = false) ∨ (i.opClass = .bus ∧ s.built = false) ∨ i.opClass = .reserved ∨
    (∃ snap : Snapshot, i = .restore snap ∧ 32 < (snap[32]).toNat) ∨ s.cfg.wf = false

/-! ### What completing excludes -/

/-- Every operation that completes found an accepted configuration. -/
theorem wf_of_exec_next {s t : State} {i : Instr} (h : exec i s = .next t) : s.cfg.wf = true := by
  cases i with
  | init => exact (requireConfig_next h).1
  | reserved5 | reserved6 | reserved7 | reservedF => cases h
  | _ => exact (requireLive_next h).1.1

/-- A bus transaction that completes found a mapping built. -/
theorem built_of_exec_bus_next {s t : State} {i : Instr} (hi : i.opClass = .bus) (h : exec i s = .next t) :
    s.built = true :=
  (Lifecycle.phase_eq_run_iff.mp (Lifecycle.phase_of_exec_access (.inl hi) h).1).2

theorem not_reserved_of_exec_next {s t : State} {i : Instr} (h : exec i s = .next t) : i.opClass ≠ .reserved := by
  cases i with
  | reserved5 | reserved6 | reserved7 | reservedF => cases h
  | _ => nofun

theorem index_le_of_exec_restore_next {s t : State} {snap : Snapshot} (h : exec (.restore snap) s = .next t) :
    (snap[32]).toNat ≤ 32 := by
  by_contra hi
  cases (Lifecycle.exec_restore_of_index (requireLive_next h).1 (Nat.not_le.mp hi)).symm.trans h

theorem not_listed_of_exec_next {s t : State} {i : Instr} (h : exec i s = .next t) : ¬RefusalListed i s := by
  rintro (⟨hinit, hlive⟩ | ⟨hbus, hbuilt⟩ | hreserved | ⟨snap, rfl, hindex⟩ | hconfig)
  · exact Bool.eq_false_iff.mp hlive (Lifecycle.live_of_exec_next hinit h)
  · exact Bool.eq_false_iff.mp hbuilt (built_of_exec_bus_next hbus h)
  · exact not_reserved_of_exec_next h hreserved
  · exact Nat.not_le.mpr hindex (index_le_of_exec_restore_next h)
  · exact Bool.eq_false_iff.mp hconfig (wf_of_exec_next h)

/-! ### Everything else completes -/

/-- Off the list the lifecycle state accepts the operation of a bundle (47_lifecycle.md R263). -/
theorem accepts_of_not_listed {s : State} {i : Instr} (hi : i.opClass = .bus ∨ i.opClass = .host)
    (h : ¬RefusalListed i s) : Lifecycle.accepts i s.phase := by
  cases hs : s.phase with
  | down =>
    by_contra hinit
    exact h (.inl ⟨hinit, Lifecycle.phase_eq_down_iff.mp hs⟩)
  | idle =>
    have hbuilt : s.built = false := (Lifecycle.phase_eq_idle_iff.mp hs).2
    exact hi.resolve_left fun hbus => h (.inr (.inl ⟨hbus, hbuilt⟩))
  | run => trivial

theorem exec_next_of_not_listed {s : State} {i : Instr}
    (hi : i.opClass = .bus ∨ i.opClass = .host ∨ i.opClass = .reserved) (h : ¬RefusalListed i s) :
    ∃ t, exec i s = .next t := by
  rcases or_assoc.mpr hi with hclass | hreserved
  · have haccepts := accepts_of_not_listed hclass h
    simp only [RefusalListed, not_or, not_exists, not_and, Nat.not_lt, Bool.not_eq_false] at h
    obtain ⟨-, -, -, hindex, hconfig⟩ := h
    exact Lifecycle.exec_next_of_accepts (hclass.symm.imp_right .inl) hconfig hindex haccepts
  · exact absurd (.inr (.inr (.inl hreserved))) h

theorem exec_next_iff_not_listed {s : State} {i : Instr}
    (hi : i.opClass = .bus ∨ i.opClass = .host ∨ i.opClass = .reserved) :
    (∃ t, exec i s = .next t) ↔ ¬RefusalListed i s :=
  ⟨fun ⟨_, h⟩ => not_listed_of_exec_next h, exec_next_of_not_listed hi⟩

/-- Settles O12: a bundle decodes to a bus transaction, a host operation or a reserved one, and these complete exactly off
the list. -/
theorem refusedExactlyAsListed : Obligations.RefusedExactlyAsListed := by
  intro s t p
  refine ⟨?_, refused_or_next _⟩
  rw [refused_iff_not_next, exec_next_iff_not_listed (decodeBundle_opClass t p), not_not]
  rfl

end Sys2Proof.Proofs.Exceptions
end

