-- ==== Sys2Proof/Proofs/Encoding.lean ====
section
/-! PROOFS. The encoding (spec/30_encoding.md R85, R90 to R94): what each op code of a bundle and each offset of a key
decodes to, that the canonical encoding decodes back, and that a step runs what its bundle decodes to. -/

namespace Sys2Proof.Proofs.Encoding

open Sys2Proof Sys2Proof.Machine

/-! ### The command bundle -/

/-- The row of an op code, over the fields of the bundle (30_encoding.md R91). -/
def bundleRow (op : BitVec 4) (a : Addr) (d : Word) (p : Snapshot) : Instr :=
  match op with
  | 0x0#4 => .rdb a
  | 0x1#4 => .rdw a
  | 0x2#4 => .wrb a (d.extractLsb' 0 8)
  | 0x3#4 => .wrw a d
  | 0x4#4 => .ftw a
  | 0x5#4 => .reserved5
  | 0x6#4 => .reserved6
  | 0x7#4 => .reserved7
  | 0x8#4 => .init
  | 0x9#4 => .exit
  | 0xA#4 => .rst
  | 0xB#4 => .cfg (payloadBlock p)
  | 0xC#4 => .sethook (d.getLsbD 0) (d.getLsbD 1)
  | 0xD#4 => .save
  | 0xE#4 => .restore p
  | _ => .reservedF

theorem decodeBundle_eq_bundleRow (t : BitVec 52) (p : Snapshot) :
    decodeBundle t p = bundleRow (bundleOp t) (bundleA t) (bundleD t) p := rfl

theorem decodeBundle_pack (op : BitVec 4) (a : Addr) (d : Word) (p : Snapshot) :
    decodeBundle (packBundle op a d) p = bundleRow op a d p := by
  rw [decodeBundle_eq_bundleRow, bundleOp_pack, bundleA_pack, bundleD_pack]

/-- The low byte of a word, in the obligation's spelling. -/
theorem extractLsb'_low_eq_ofNat (d : Word) : d.extractLsb' 0 8 = BitVec.ofNat 8 d.toNat := by
  apply BitVec.eq_of_toNat_eq
  simp

theorem payloadBlock_getElem (p : Snapshot) (j : Fin 16) : (payloadBlock p)[j] = p[j.val] := by
  simp [payloadBlock]

/-- Settles O51: with the fields unpacked, each row is an equation of the table. -/
theorem bundleRowsDecode : Obligations.BundleRowsDecode := by
  intro a d p
  simp only [decodeBundle_pack]
  exact ⟨rfl, rfl, congrArg (Instr.wrb a) (extractLsb'_low_eq_ofNat d), rfl, rfl, rfl, rfl, rfl, rfl, rfl, rfl,
    ⟨payloadBlock p, rfl, payloadBlock_getElem p⟩, rfl, rfl, rfl, rfl⟩

/-! ### The register command key -/

theorem bit4_of_le {o : RegOff} (h : 0x10#5 ≤ o) : o.getLsbD 4 = true := by
  revert h; revert o; decide

theorem descOffset_bit4 (j : BitVec 4) : (descOffset j).getLsbD 4 = true := by revert j; decide
theorem descOffset_low (j : BitVec 4) : (descOffset j).extractLsb' 0 4 = j := by revert j; decide
theorem lowOffset_bit4 (j : BitVec 4) : (lowOffset j).getLsbD 4 = false := by revert j; decide
theorem lowOffset_low (j : BitVec 4) : (lowOffset j).extractLsb' 0 4 = j := by revert j; decide

theorem decodeKey_desc (c : Config) (j : BitVec 4) (v : Byte) :
    decodeKey c (packKey (descOffset j) v) = .regwrDesc j v := by
  simp only [decodeKey, keyOffset_pack, keyData_pack, descOffset_bit4, descOffset_low, if_true]

/-- A key of an offset below 0x10: the rows after the descriptors' (30_encoding.md R85). -/
theorem decodeKey_of_low (c : Config) {o : RegOff} (h : o.getLsbD 4 = false) (v : Byte) :
    decodeKey c (packKey o v) =
      if o = c.regMode then .regwrMode v else if o = c.regIrq then .regwrIrq v
      else if o = c.regSndlatch then .regwrSndlatch v else if o = c.regDma then .regwrDma v
      else .regwrPlain (o.extractLsb' 0 4) v := by
  simp only [decodeKey, keyOffset_pack, keyData_pack, h, Bool.false_eq_true, if_false]

theorem decodeKey_mode {c : Config} (h : c.wf = true) (v : Byte) :
    decodeKey c (packKey c.regMode v) = .regwrMode v := by
  obtain ⟨-, -, -, hlow, -⟩ := offsets_of_wf h
  rw [decodeKey_of_low c (low_of_lt hlow), if_pos rfl]

theorem decodeKey_irq {c : Config} (h : c.wf = true) (v : Byte) :
    decodeKey c (packKey c.regIrq v) = .regwrIrq v := by
  obtain ⟨-, hmode, -, -, -, hlow, -⟩ := offsets_of_wf h
  rw [decodeKey_of_low c (low_of_lt hlow), if_neg hmode.symm, if_pos rfl]

theorem decodeKey_sndlatch {c : Config} (h : c.wf = true) (v : Byte) :
    decodeKey c (packKey c.regSndlatch v) = .regwrSndlatch v := by
  obtain ⟨hmode, -, hirq, -, hlow, -⟩ := offsets_of_wf h
  rw [decodeKey_of_low c (low_of_lt hlow), if_neg hmode.symm, if_neg hirq, if_pos rfl]

theorem decodeKey_dma {c : Config} (h : c.wf = true) (hmode : c.regDma ≠ c.regMode) (hirq : c.regDma ≠ c.regIrq)
    (hsnd : c.regDma ≠ c.regSndlatch) (v : Byte) : decodeKey c (packKey c.regDma v) = .regwrDma v := by
  obtain ⟨-, -, -, -, -, -, hlow⟩ := offsets_of_wf h
  rw [decodeKey_of_low c (low_of_lt hlow), if_neg hmode, if_neg hirq, if_neg hsnd, if_pos rfl]

theorem decodeKey_plain {c : Config} {j : BitVec 4} (hmode : lowOffset j ≠ c.regMode) (hirq : lowOffset j ≠ c.regIrq)
    (hsnd : lowOffset j ≠ c.regSndlatch) (hdma : lowOffset j ≠ c.regDma) (v : Byte) :
    decodeKey c (packKey (lowOffset j) v) = .regwrPlain j v := by
  rw [decodeKey_of_low c (lowOffset_bit4 j), if_neg hmode, if_neg hirq, if_neg hsnd, if_neg hdma, lowOffset_low]

/-- Settles O52: an accepted configuration keeps the named offsets low and apart, so no earlier row takes a key. -/
theorem keySelectsFirstMatchingRow : Obligations.KeySelectsFirstMatchingRow := by
  intro c o v h
  refine ⟨fun ho => ?desc, ?mode, ?irq, ?sndlatch, ?dma, fun ho hmode hirq hsnd hdma => ?plain⟩
  case desc =>
    have hoff := descOffset_extract o (bit4_of_le ho)
    exact ⟨_, hoff, by rw [← decodeKey_desc c, hoff]⟩
  case mode => rintro rfl; exact decodeKey_mode h v
  case irq => rintro rfl; exact decodeKey_irq h v
  case sndlatch => rintro rfl; exact decodeKey_sndlatch h v
  case dma => rintro rfl hmode hirq hsnd; exact decodeKey_dma h hmode hirq hsnd v
  case plain =>
    obtain ⟨j, rfl⟩ : ∃ j, lowOffset j = o := ⟨_, lowOffset_extract o (low_of_lt ho)⟩
    exact ⟨j, rfl, decodeKey_plain hmode hirq hsnd hdma v⟩

/-! ### Encoding and back -/

theorem payloadBlock_blockPayload (b : Block) : payloadBlock (blockPayload b) = b := by
  apply Vector.ext
  intro i hi
  rw [payloadBlock, Vector.getElem_ofFn]
  exact Vector.getElem_append_left hi

/-- The two hook bits of D (30_encoding.md R92). -/
theorem hookBits (r w : Bool) :
    (0#14 ++ BitVec.ofBool w ++ BitVec.ofBool r : Word).getLsbD 0 = r ∧
    (0#14 ++ BitVec.ofBool w ++ BitVec.ofBool r : Word).getLsbD 1 = w := by
  cases r <;> cases w <;> decide

theorem decode_bundle (c : Config) (op : BitVec 4) (a : Addr) (d : Word) (p : Snapshot) :
    decode c (.bundle (packBundle op a d) p) = bundleRow op a d p :=
  decodeBundle_pack op a d p

theorem decode_encode_wrb (c : Config) (a : Addr) (d : Byte) :
    decode c (.bundle (packBundle 0x2 a (d.setWidth 16)) noPayload) = .wrb a d :=
  (decode_bundle c 0x2 a _ _).trans (congrArg (Instr.wrb a) (low_of_widened d))

theorem decode_encode_cfg (c : Config) (b : Block) :
    decode c (.bundle (packBundle 0xB 0 0) (blockPayload b)) = .cfg b :=
  (decode_bundle c 0xB 0 0 _).trans (congrArg Instr.cfg (payloadBlock_blockPayload b))

theorem decode_encode_sethook (c : Config) (r w : Bool) :
    decode c (.bundle (packBundle 0xC 0 (0#14 ++ BitVec.ofBool w ++ BitVec.ofBool r)) noPayload) = .sethook r w :=
  (decode_bundle c 0xC 0 _ _).trans (congrArg₂ Instr.sethook (hookBits r w).1 (hookBits r w).2)

theorem dma_apart {c : Config} {v : Byte} (h : (Instr.regwrDma v).wellFormed c = true) :
    c.regDma ≠ c.regMode ∧ c.regDma ≠ c.regIrq ∧ c.regDma ≠ c.regSndlatch := by
  simpa [Instr.wellFormed, dmaReachable, and_assoc] using h

theorem plain_apart {c : Config} {o : BitVec 4} {v : Byte} (h : (Instr.regwrPlain o v).wellFormed c = true) :
    lowOffset o ≠ c.regMode ∧ lowOffset o ≠ c.regIrq ∧ lowOffset o ≠ c.regSndlatch ∧ lowOffset o ≠ c.regDma := by
  have hplain : plainOffset c (lowOffset o) = true := h
  simpa only [plainOffset, Bool.and_eq_true, decide_eq_true_eq, and_assoc] using hplain

/-- Settles O55: a bundle row reads its own fields back; a key row needs the configuration to keep its offset apart. -/
theorem decodeEncodeRoundTrip : Obligations.DecodeEncodeRoundTrip := by
  intro c i hc hi hclass
  cases i with
  -- the rows whose operands are whole fields
  | rdb a | rdw a | ftw a | wrw a d => exact ⟨_, rfl, (decode_bundle c _ _ _ _).trans rfl⟩
  | reserved5 | reserved6 | reserved7 | reservedF => exact ⟨_, rfl, (decode_bundle c _ _ _ _).trans rfl⟩
  | init | exit | rst | save | restore p => exact ⟨_, rfl, (decode_bundle c _ _ _ _).trans rfl⟩
  -- the rows that pack an operand into a part of a field
  | wrb a d => exact ⟨_, rfl, decode_encode_wrb c a d⟩
  | cfg b => exact ⟨_, rfl, decode_encode_cfg c b⟩
  | sethook r w => exact ⟨_, rfl, decode_encode_sethook c r w⟩
  -- the register commands
  | regwrDesc j v => exact ⟨_, rfl, decodeKey_desc c j v⟩
  | regwrMode v => exact ⟨_, rfl, decodeKey_mode hc v⟩
  | regwrSndlatch v => exact ⟨_, rfl, decodeKey_sndlatch hc v⟩
  | regwrIrq v => exact ⟨_, rfl, decodeKey_irq hc v⟩
  | regwrDma v =>
    obtain ⟨hmode, hirq, hsnd⟩ := dma_apart hi
    exact ⟨_, rfl, decodeKey_dma hc hmode hirq hsnd v⟩
  | regwrPlain o v =>
    obtain ⟨hmode, hirq, hsnd, hdma⟩ := plain_apart hi
    exact ⟨_, rfl, decodeKey_plain hmode hirq hsnd hdma v⟩
  | regrd o => exact ⟨_, rfl, rfl⟩
  | compute | expandI | expandR | recompute | openbus => exact absurd rfl hclass

/-! ### Table words and steps -/

/-- Settles O54: eight closed words, each read by its fields. -/
theorem sampleWordsDecode : Obligations.SampleWordsDecode :=
  ⟨by decide, by decide, by decide, by decide, by decide, by decide, by decide, by decide⟩

theorem step_of_pending {s : State} {st : Stimulus} {rest : List Stimulus} (h : s.pending = st :: rest) :
    step s = exec (decodeBundle st.bundle st.payload) { s with pending := rest } := by
  simp only [step, take_cons h]

theorem step_of_idle {s : State} (h : s.pending = []) : step s = .next s := by
  simp only [step, take_nil h, idle]

/-- Settles O56: the queue gives up its first bundle, and a table row's bundle is put there. -/
theorem stepRunsDecodedStimulus : Obligations.StepRunsDecodedStimulus := by
  refine ⟨fun s st rest h => step_of_pending h, fun s h => step_of_idle h, fun s nbits w t p h => ?_⟩
  rw [step_withFetchWord h]
  rfl

theorem exec_decodeBundle_reserved {t : BitVec 52} (p : Snapshot)
    (h : bundleOp t = 0x5 ∨ bundleOp t = 0x6 ∨ bundleOp t = 0x7 ∨ bundleOp t = 0xF) (s : State) :
    exec (decodeBundle t p) s = .refused (.reservedOp (bundleOp t)) := by
  rw [decodeBundle_eq_bundleRow]
  rcases h with h | h | h | h <;> rw [h] <;> rfl

/-- Settles O53: a reserved op code decodes to the operation that is refused under it, whatever the other fields hold. -/
theorem reservedOpsAreRefused : Obligations.ReservedOpsAreRefused := by
  refine ⟨fun s => ⟨rfl, rfl, rfl, rfl⟩, fun s t p rest hpending hop => ?_⟩
  rw [step_of_pending hpending]
  exact exec_decodeBundle_reserved p hop _

end Sys2Proof.Proofs.Encoding
end

