-- ==== Sys2Proof/Proofs/RegionCalculator.lean ====
section
/-! PROOFS. COMPUTE in exact arithmetic (spec/40_region_calculator.md R120 to R127). Every size mask is one less than a
power of two, so masking with it is a remainder and clearing it a rounding down; the bounds then follow over Nat. -/

namespace Sys2Proof.Proofs.RegionCalculator

open Sys2Proof Sys2Proof.Machine

/-! ### Masks of low bits -/

/-- The mask of the `k` low bits. -/
def lowMask (k : Nat) : Addr := BitVec.ofNat 32 (2 ^ k - 1)

theorem lowMask_toNat {k : Nat} (h : k ≤ 32) : (lowMask k).toNat = 2 ^ k - 1 := by
  have hpow : 2 ^ k ≤ 2 ^ 32 := Nat.pow_le_pow_right (by decide) h
  rw [lowMask, BitVec.toNat_ofNat, Nat.mod_eq_of_lt]
  have := Nat.two_pow_pos k
  omega

theorem and_lowMask_toNat {k : Nat} (h : k ≤ 32) (x : Addr) : (x &&& lowMask k).toNat = x.toNat % 2 ^ k := by
  rw [BitVec.toNat_and, lowMask_toNat h, Nat.and_two_pow_sub_one_eq_mod]

theorem lowMask_getLsbD {k : Nat} (h : k ≤ 32) (i : Nat) : (lowMask k).getLsbD i = decide (i < k) := by
  rw [BitVec.getLsbD, lowMask_toNat h, Nat.testBit_two_pow_sub_one]

/-- Clearing the low bits rounds down. -/
theorem and_not_lowMask_toNat {k : Nat} (h : k ≤ 32) (x : Addr) :
    (x &&& ~~~lowMask k).toNat = x.toNat / 2 ^ k * 2 ^ k := by
  refine Nat.eq_of_testBit_eq fun i => ?_
  rw [Nat.testBit_mul_two_pow, Nat.testBit_div_two_pow, BitVec.testBit_toNat, BitVec.testBit_toNat,
    BitVec.getLsbD_and, BitVec.getLsbD_not, lowMask_getLsbD h]
  by_cases hi : k ≤ i
  · rw [Nat.sub_add_cancel hi]
    by_cases h32 : i < 32
    · simp [hi, h32]
    · simp [BitVec.getLsbD_of_ge x i (by omega)]
  · simp [hi, Nat.lt_of_not_le hi]

/-! ### The size classes -/

/-- How many address bits a window of the size class spans (40_region_calculator.md R121). -/
def windowBits (sizeByte : Byte) : Nat :=
  if sizeByte.toNat % 4 = 0 then 16 else if sizeByte.toNat % 4 = 1 then 17 else if sizeByte.toNat % 4 = 2 then 19 else 21

theorem windowBits_cases (sizeByte : Byte) :
    windowBits sizeByte = 16 ∨ windowBits sizeByte = 17 ∨ windowBits sizeByte = 19 ∨ windowBits sizeByte = 21 := by
  unfold windowBits
  split_ifs <;> simp

theorem windowBits_le (sizeByte : Byte) : windowBits sizeByte ≤ 32 := by
  have := windowBits_cases sizeByte
  omega

theorem windowSize_eq (sizeByte : Byte) : windowSize sizeByte = 2 ^ windowBits sizeByte := by
  unfold windowSize windowBits
  split_ifs <;> rfl

theorem sizeMask_eq_lowMask (sizeByte : Byte) : sizeMask sizeByte = lowMask (windowBits sizeByte) := by
  revert sizeByte
  decide

theorem sizeMask_toNat (sizeByte : Byte) : (sizeMask sizeByte).toNat = windowSize sizeByte - 1 := by
  rw [sizeMask_eq_lowMask, lowMask_toNat (windowBits_le sizeByte), windowSize_eq]

theorem and_sizeMask_toNat (sizeByte : Byte) (x : Addr) :
    (x &&& sizeMask sizeByte).toNat = x.toNat % windowSize sizeByte := by
  rw [sizeMask_eq_lowMask, and_lowMask_toNat (windowBits_le sizeByte), windowSize_eq]

theorem windowSize_cases (sizeByte : Byte) :
    windowSize sizeByte = 0x10000 ∨ windowSize sizeByte = 0x20000 ∨ windowSize sizeByte = 0x80000 ∨
      windowSize sizeByte = 0x200000 := by
  rw [windowSize_eq]
  rcases windowBits_cases sizeByte with h | h | h | h <;> simp [h]

/-! ### Base, start and end -/

theorem shiftedBase_toNat (baseByte : Byte) : (baseByte.setWidth 32 <<< 16).toNat = baseByte.toNat * 0x10000 := by
  have := baseByte.isLt
  simp only [BitVec.toNat_shiftLeft, BitVec.toNat_setWidth, Nat.shiftLeft_eq]
  omega

theorem regionBase_toNat (sizeByte baseByte : Byte) :
    (regionBase baseByte (sizeMask sizeByte)).toNat =
      baseByte.toNat * 0x10000 / windowSize sizeByte * windowSize sizeByte := by
  rw [regionBase, sizeMask_eq_lowMask, and_not_lowMask_toNat (windowBits_le sizeByte), shiftedBase_toNat, windowSize_eq]

/-- The base is aligned below 2^24, which every window size divides (40_region_calculator.md R127). -/
theorem regionBase_add_windowSize_le (sizeByte baseByte : Byte) :
    (regionBase baseByte (sizeMask sizeByte)).toNat + windowSize sizeByte ≤ 0x1000000 := by
  have := baseByte.isLt
  rw [regionBase_toNat]
  rcases windowSize_cases sizeByte with h | h | h | h <;> rw [h] <;> omega

theorem windowSize_bounds (sizeByte : Byte) : 0 < windowSize sizeByte ∧ windowSize sizeByte ≤ 0x200000 := by
  have := windowSize_cases sizeByte
  omega

theorem minU_toNat (a b : Addr) : (minU a b).toNat = min a.toNat b.toNat := by
  unfold minU
  split
  · rename_i h; exact (min_eq_left h).symm
  · rename_i h; exact (min_eq_right (Nat.le_of_not_le h)).symm

/-- The start is an exact sum. -/
theorem computeRaw_start_toNat (sizeByte baseByte : Byte) (length mirror offset : Addr) :
    (computeRaw sizeByte baseByte length mirror offset).start.toNat =
      (regionBase baseByte (sizeMask sizeByte)).toNat + offset.toNat % windowSize sizeByte := by
  have hbase := regionBase_add_windowSize_le sizeByte baseByte
  have hmod := Nat.mod_lt offset.toNat (windowSize_bounds sizeByte).1
  simp only [computeRaw, BitVec.toNat_add, and_sizeMask_toNat]
  omega

theorem computeRaw_start_lt (sizeByte baseByte : Byte) (length mirror offset : Addr) :
    (computeRaw sizeByte baseByte length mirror offset).start.toNat < 0x1000000 := by
  have hbase := regionBase_add_windowSize_le sizeByte baseByte
  have hmod := Nat.mod_lt offset.toNat (windowSize_bounds sizeByte).1
  rw [computeRaw_start_toNat]
  omega

/-- The end is an exact sum. -/
theorem computeRaw_stop_toNat (sizeByte baseByte : Byte) (length mirror offset : Addr) :
    (computeRaw sizeByte baseByte length mirror offset).stop.toNat =
      (computeRaw sizeByte baseByte length mirror offset).start.toNat +
        min (length - 1).toNat (windowSize sizeByte - 1) := by
  have hstart := computeRaw_start_lt sizeByte baseByte length mirror offset
  obtain ⟨-, hsize⟩ := windowSize_bounds sizeByte
  have hsum : (computeRaw sizeByte baseByte length mirror offset).stop =
    (computeRaw sizeByte baseByte length mirror offset).start + minU (length - 1) (sizeMask sizeByte) := rfl
  rw [hsum, BitVec.toNat_add, minU_toNat, sizeMask_toNat]
  omega

theorem computeRaw_mirrorMask_toNat (sizeByte baseByte : Byte) (length mirror offset : Addr) :
    (computeRaw sizeByte baseByte length mirror offset).mirrorMask.toNat = mirror.toNat % windowSize sizeByte :=
  and_sizeMask_toNat sizeByte mirror

/-- Settles O14: the start lies in the base's window, which ends below 2^24, and the end less than a window past it. -/
theorem computeBoundsNeverWrap : Obligations.ComputeBoundsNeverWrap := by
  intro sizeByte baseByte length mirror offset
  have hbase := regionBase_add_windowSize_le sizeByte baseByte
  have hstart := computeRaw_start_lt sizeByte baseByte length mirror offset
  have hstop := computeRaw_stop_toNat sizeByte baseByte length mirror offset
  obtain ⟨hpos, hsize⟩ := windowSize_bounds sizeByte
  rw [sizeMask_toNat, minU_toNat, and_sizeMask_toNat, sizeMask_toNat]
  exact ⟨by omega, by omega, by omega, by omega, by omega, computeRaw_start_toNat .., hstop⟩

/-! ### COMPUTE as an operation -/

/-- A register of the slot is the byte its offset names (30_encoding.md R81, R83). -/
theorem reg_ofNat (s : State) {n : Nat} (h : n < 32) : s.reg (BitVec.ofNat 5 n) = s.regs[n] := by
  simp [State.reg, Nat.mod_eq_of_lt h]

theorem sizeByteOf_eq_reg (s : State) {slot : Nat} (h : slot < 8) :
    sizeByteOf s.regs ⟨slot, h⟩ = s.reg (BitVec.ofNat 5 (16 + 2 * slot)) :=
  (reg_ofNat s (by omega)).symm

theorem baseByteOf_eq_reg (s : State) {slot : Nat} (h : slot < 8) :
    baseByteOf s.regs ⟨slot, h⟩ = s.reg (BitVec.ofNat 5 (17 + 2 * slot)) :=
  (reg_ofNat s (by omega)).symm

theorem exec_compute_of_slot {s : State} (hs : s.Ready) {slot : Nat} (h : slot < 8) (length mirror offset : Addr) :
    exec (.compute slot length mirror offset) s =
      .next (s.setQ (.region (computeSlot s.regs ⟨slot, h⟩ length mirror offset))) :=
  (requireLive_eq hs).trans (dif_pos h)

theorem exec_compute_of_out_of_range {s : State} (hs : s.Ready) {slot : Nat} (h : 8 ≤ slot)
    (length mirror offset : Addr) :
    exec (.compute slot length mirror offset) s = .refused (.slotOutOfRange slot) :=
  (requireLive_eq hs).trans (dif_neg (Nat.not_lt.mpr h))

/-- `length - 1` modulo 2^32 (40_region_calculator.md R129). -/
theorem sub_one_toNat (length : Addr) : (length - 1).toNat = (length.toNat + 0xFFFFFFFF) % 0x100000000 := by
  rw [BitVec.toNat_sub, Nat.add_comm]
  rfl

/-- Settles O13: the slot's two bytes are the descriptor registers, and the region of two bytes is exact. -/
theorem computeReadsSlotAndGivesRegion : Obligations.ComputeReadsSlotAndGivesRegion := by
  refine ⟨fun s slot length mirror offset hs h => ?computes, fun s slot length mirror offset hs h =>
    exec_compute_of_out_of_range hs h length mirror offset⟩
  case computes =>
    refine ⟨_, exec_compute_of_slot hs h length mirror offset, ?_⟩
    rw [computeSlot, sizeByteOf_eq_reg s h, baseByteOf_eq_reg s h]
    refine ⟨?start, ?stop, computeRaw_mirrorMask_toNat ..⟩
    case start => rw [computeRaw_start_toNat, regionBase_toNat]
    case stop => rw [computeRaw_stop_toNat, sub_one_toNat]

end Sys2Proof.Proofs.RegionCalculator
end

