-- ==== Sys2Proof/Proofs/MirrorExpansion.lean ====
section
/-! PROOFS. What the MirrorExpander makes of the alias sequence (spec/41_mirror_expander.md R137 to R146): the nested
counters are one counter deposited into the set bits, no alias wraps, EXPAND.I installs every alias, and EXPAND.R keeps the
first 32. -/

namespace Sys2Proof.Proofs.MirrorExpansion

open Sys2Proof Sys2Proof.Machine Sys2Proof.Proofs.MirrorExpander

/-! ### One counter for both groups -/

/-- A deposit reads as many bits of the counter as there are positions. -/
theorem depositBits_mod (l : List Nat) (c : Nat) : depositBits l (c % 2 ^ l.length) = depositBits l c := by
  induction l generalizing c with
  | nil => rfl
  | cons p ps ih =>
    have hbit : c % 2 ^ (ps.length + 1) % 2 = c % 2 := by
      rw [Nat.pow_succ, Nat.mul_comm, Nat.mod_mul_right_mod]
    have hrest : c % 2 ^ (ps.length + 1) / 2 = c / 2 % 2 ^ ps.length := by
      rw [Nat.pow_succ, Nat.mul_comm, Nat.mod_mul_right_div_self]
    simp only [depositBits, List.length_cons, hbit, hrest, ih]

/-- A deposit into two lists: the later positions take the counter's later bits. -/
theorem depositBits_append (l l' : List Nat) (c : Nat) :
    depositBits (l ++ l') c = depositBits l c ||| depositBits l' (c / 2 ^ l.length) := by
  induction l generalizing c with
  | nil => simp [depositBits]
  | cons p ps ih =>
    simp only [List.cons_append, depositBits, ih, BitVec.or_assoc, List.length_cons, Nat.pow_succ, Nat.div_div_eq_div_mul,
      Nat.mul_comm]

@[simp] theorem depositBits_zero (l : List Nat) : depositBits l 0 = 0 := by
  induction l with
  | nil => rfl
  | cons p ps ih => simp [depositBits, ih]

/-- Two nested counters are one counter. -/
theorem range_mul_eq_flatMap (a b : Nat) :
    List.range (a * b) = (List.range a).flatMap fun i => (List.range b).map fun j => i * b + j := by
  induction a with
  | zero => simp
  | succ a ih => rw [Nat.succ_mul, List.range_add, ih, List.range_succ, List.flatMap_append, List.flatMap_singleton]

/-- The deposit of the joined counter is the union of the two groups' deposits. -/
theorem depositBits_groups (mask : Addr) (hc : Nat) {lc : Nat} (hlc : lc < 2 ^ (lowGroup mask).length) :
    depositBits (setBits mask 0 32) (hc * 2 ^ (lowGroup mask).length + lc) =
      depositBits (highGroup mask) hc ||| depositBits (lowGroup mask) lc := by
  have hhigh : (hc * 2 ^ (lowGroup mask).length + lc) / 2 ^ (lowGroup mask).length = hc := by
    rw [Nat.mul_comm, Nat.mul_add_div (Nat.two_pow_pos _), Nat.div_eq_of_lt hlc, Nat.add_zero]
  have hlow : (hc * 2 ^ (lowGroup mask).length + lc) % 2 ^ (lowGroup mask).length = lc := by
    rw [Nat.mul_comm, Nat.mul_add_mod, Nat.mod_eq_of_lt hlc]
  rw [setBits_groups, depositBits_append, hhigh, ← depositBits_mod (lowGroup mask), hlow, BitVec.or_comm]

/-- The alias offsets are the deposits of 0, 1, 2, ... (41_mirror_expander.md R137). -/
theorem aliasOffsets_eq_deposits (mask : Addr) :
    aliasOffsets mask = (List.range (2 ^ (setBits mask 0 32).length)).map (depositBits (setBits mask 0 32)) := by
  have hlength : 2 ^ (setBits mask 0 32).length = 2 ^ (highGroup mask).length * 2 ^ (lowGroup mask).length := by
    rw [setBits_groups, List.length_append, Nat.pow_add, Nat.mul_comm]
  rw [hlength, range_mul_eq_flatMap, List.map_flatMap, aliasOffsets]
  congr 1
  funext hc
  rw [List.map_map]
  exact List.map_congr_left fun lc hlc => (depositBits_groups mask hc (List.mem_range.mp hlc)).symm

theorem aliases_eq_deposits (c : ComputedRegion) :
    aliases c = (List.range (2 ^ (setBits c.mirrorMask 0 32).length)).map fun n =>
      { start := c.start + depositBits (setBits c.mirrorMask 0 32) n,
        stop := c.stop + depositBits (setBits c.mirrorMask 0 32) n } := by
  rw [aliases, aliasOffsets_eq_deposits, List.map_map]
  rfl

theorem aliases_head (c : ComputedRegion) : (aliases c)[0]? = some { start := c.start, stop := c.stop } := by
  rw [aliases_eq_deposits, List.getElem?_map, List.getElem?_range (Nat.two_pow_pos _)]
  simp

/-- Settles O15: the outer counter's bits follow the inner counter's, and the counter 0 deposits nothing. -/
theorem aliasesAreBitDeposits : Obligations.AliasesAreBitDeposits :=
  fun c => ⟨aliases_eq_deposits c, aliases_head c⟩

/-! ### No alias wraps -/

/-- A subset of a mask is not above it. -/
theorem toNat_le_of_subset {o m : Addr} (h : o &&& ~~~m = 0) : o.toNat ≤ m.toNat := by
  have hand : o &&& m = o := by
    refine BitVec.eq_of_getLsbD_eq fun i _ => ?_
    have hsub := and_not_eq_zero_iff.mp h i
    cases ho : o.getLsbD i with
    | false => simp [ho]
    | true => simp [ho, hsub ho]
  rw [← hand, BitVec.toNat_and]
  exact Nat.and_le_right

/-- The bounds of any alias of a computed region (41_mirror_expander.md R143). -/
structure AliasExact (c : ComputedRegion) (o : Addr) : Prop where
  start : (c.start + o).toNat = c.start.toNat + o.toNat
  stop : (c.stop + o).toNat = c.stop.toNat + o.toNat
  ordered : c.start.toNat ≤ c.stop.toNat
  stop_le : (c.stop + o).toNat ≤ 0x13FFFFD

theorem computeRaw_mirrorMask_le (sizeByte baseByte : Byte) (length mirror offset : Addr) :
    (computeRaw sizeByte baseByte length mirror offset).mirrorMask.toNat ≤ (sizeMask sizeByte).toNat := by
  simp only [computeRaw, BitVec.toNat_and]
  exact Nat.and_le_right

theorem computeRaw_alias_exact (sizeByte baseByte : Byte) (length mirror offset : Addr) {o : Addr}
    (ho : o &&& ~~~(computeRaw sizeByte baseByte length mirror offset).mirrorMask = 0) :
    AliasExact (computeRaw sizeByte baseByte length mirror offset) o := by
  obtain ⟨-, hstart, hordered, hstop, hend, -, -⟩ :=
    RegionCalculator.computeBoundsNeverWrap sizeByte baseByte length mirror offset
  have hmask := computeRaw_mirrorMask_le sizeByte baseByte length mirror offset
  have hoff := toNat_le_of_subset ho
  have hsize := RegionCalculator.sizeMask_toNat sizeByte
  obtain ⟨-, hwindow⟩ := RegionCalculator.windowSize_bounds sizeByte
  constructor
  case start => rw [BitVec.toNat_add]; omega
  case stop => rw [BitVec.toNat_add]; omega
  case ordered => exact hordered
  case stop_le => rw [BitVec.toNat_add]; omega

/-- Settles O17: the offset is a subset of the mirror mask, which is a subset of the size mask. -/
theorem aliasesNeverWrap : Obligations.AliasesNeverWrap := by
  intro sizeByte baseByte length mirror offset o ho
  have hsub := mem_aliasOffsets.mp ho
  obtain ⟨hstart, hstop, hordered, hend⟩ := computeRaw_alias_exact sizeByte baseByte length mirror offset hsub
  refine ⟨toNat_le_of_subset hsub, computeRaw_mirrorMask_le .., hstart, hstop, hend, ?ordered, fun hzero => ?zero⟩
  case ordered => rw [BitVec.le_def]; omega
  case zero =>
    obtain ⟨hs, ho⟩ := Nat.add_eq_zero_iff.mp (hstart.symm.trans (congrArg BitVec.toNat hzero))
    exact ⟨BitVec.eq_of_toNat_eq hs, BitVec.eq_of_toNat_eq ho⟩

/-! ### EXPAND.I -/

theorem exec_expandI_of_ready {s : State} (h : s.Ready) (c : ComputedRegion) (b : Backing) (k : Kinds) :
    exec (.expandI c b k) s = .next ((s.addFlat (installedEntries c b k)).setQ .none) := by
  rw [← expandInstalling_eq]
  exact requireLive_eq h

theorem mem_aliases {c : ComputedRegion} {b : Bounds} :
    b ∈ aliases c ↔ ∃ o, o &&& ~~~c.mirrorMask = 0 ∧ b = { start := c.start + o, stop := c.stop + o } := by
  obtain ⟨-, -, hmem⟩ := aliasesAreAllSubsets c
  exact hmem b

theorem mem_installedEntries {c : ComputedRegion} {b : Backing} {k : Kinds} {e : FlatEntry} :
    e ∈ installedEntries c b k ↔ c.mirrorMask ≠ 0 ∧ ∃ o, o &&& ~~~c.mirrorMask = 0 ∧
      e = { start := c.start + o, stop := c.stop + o, backing := b, kinds := k } := by
  unfold installedEntries
  split
  · rename_i hmask; simp [hmask]
  · rename_i hmask
    simp only [List.mem_map, mem_aliases]
    constructor
    · rintro ⟨_, ⟨o, ho, rfl⟩, rfl⟩
      exact ⟨hmask, o, ho, rfl⟩
    · rintro ⟨-, o, ho, rfl⟩
      exact ⟨_, ⟨o, ho, rfl⟩, rfl⟩

theorem serves_iff {k : Kind} {a : Addr} {e : FlatEntry} :
    serves k a e = true ↔ kindIn k e.kinds = true ∧ e.start ≤ a ∧ a ≤ e.stop := by
  rw [serves, Bool.and_eq_true, inside_iff]

/-- Settles O18: the entries installed are the aliases, and these are the primary moved by the subsets of the mask. -/
theorem expandICoversEveryAlias : Obligations.ExpandICoversEveryAlias := by
  intro s c b kinds h
  refine ⟨installedEntries c b kinds, exec_expandI_of_ready h c b kinds, rfl, fun k a => ?_⟩
  simp only [mem_installedEntries, serves_iff]
  constructor
  · rintro ⟨_, ⟨hmask, o, ho, rfl⟩, hkind, hlow, hhigh⟩
    exact ⟨hkind, hmask, o, ho, hlow, hhigh⟩
  · rintro ⟨hkind, hmask, o, ho, hlow, hhigh⟩
    exact ⟨_, ⟨hmask, o, ho, rfl⟩, hkind, hlow, hhigh⟩

/-! ### EXPAND.R -/

theorem exec_expandR_of_ready {s : State} (h : s.Ready) (c : ComputedRegion) (r : SoftId) :
    exec (.expandR c r) s = .next ((expandRecording c r s).setQ .none) :=
  requireLive_eq h

theorem expandRecording_mwi (c : ComputedRegion) (r : SoftId) (s : State) :
    (expandRecording c r s).mwi = storedCount c := by
  rw [expandRecording_eq, storedCount]
  split <;> rfl

/-- A table recorded from index 0 on: the aliases first, then what stood there. -/
theorem recordedTable_zero_getElem (mir : Vector Bounds 32) (l : List Bounds) (i : Fin 32) :
    (recordedTable mir 0 l)[i] = l.getD i.val mir[i] := by
  simp only [recordedTable, Fin.getElem_fin, Vector.getElem_ofFn, Nat.zero_le, true_and, Nat.sub_zero,
    List.getD_eq_getElem?_getD]
  split
  · rename_i h; simp [h]
  · rename_i h; simp [List.getElem?_eq_none (Nat.le_of_not_lt h)]

/-- The region EXPAND.R leaves (41_mirror_expander.md R139 to R141). -/
theorem expandRecording_get_self (c : ComputedRegion) (r : SoftId) (s : State) :
    (expandRecording c r s).soft.get r =
      { s.soft.get r with
        mir := if c.mirrorMask = 0 then (s.soft.get r).mir else recordedTable (s.soft.get r).mir 0 (aliases c) } := by
  rw [expandRecording_eq]
  split
  · rfl
  · simp only [setMwi_soft, setSoft_soft, get_put_self]

theorem expandRecording_get_of_ne (c : ComputedRegion) {r r' : SoftId} (h : r' ≠ r) (s : State) :
    (expandRecording c r s).soft.get r' = s.soft.get r' := by
  rw [expandRecording_eq]
  split
  · rfl
  · exact get_put_of_ne _ _ h

/-- Entry `i` of the recorded table, by the number of entries stored. -/
theorem expandRecording_mir_getElem (c : ComputedRegion) (r : SoftId) (s : State) (i : Fin 32) :
    ((expandRecording c r s).soft.get r).mir[i] =
      if i.val < storedCount c then (aliases c).getD i.val ⟨0, 0⟩ else (s.soft.get r).mir[i] := by
  have hi := i.isLt
  rw [expandRecording_get_self]
  by_cases hmask : c.mirrorMask = 0
  · simp [hmask, storedCount]
  · simp only [hmask, if_false, storedCount]
    rw [recordedTable_zero_getElem]
    by_cases hlen : i.val < (aliases c).length
    · rw [if_pos (by omega)]; simp [hlen]
    · rw [if_neg (by omega)]
      simp [List.getElem?_eq_none (Nat.le_of_not_lt hlen)]

theorem expandRecording_setQ_frame (c : ComputedRegion) (r : SoftId) (s : State) :
    (expandRecording c r s).setQ .none =
      { s with soft := (expandRecording c r s).soft, mwi := (expandRecording c r s).mwi, q := .none } := by
  rw [expandRecording_eq]
  split <;> rfl

theorem aliases_length_pos (c : ComputedRegion) : 0 < (aliases c).length := by
  rw [aliases_eq_deposits, List.length_map, List.length_range]
  exact Nat.two_pow_pos _

theorem aliases_getD_zero (c : ComputedRegion) : (aliases c).getD 0 ⟨0, 0⟩ = ⟨c.start, c.stop⟩ := by
  rw [List.getD_eq_getElem?_getD, aliases_head]
  rfl

/-- Settles O19: the recorded table entry by entry, the rest of the state by the frame of the recording. -/
theorem expandRRecordsFirst32 : Obligations.ExpandRRecordsFirst32 := by
  intro s c r h
  refine ⟨_, exec_expandR_of_ready h c r, expandRecording_mwi c r s, fun i => ?entries, fun hmask => ?first, ?start, ?stop,
    fun r' hr => expandRecording_get_of_ne c hr s, expandRecording_setQ_frame c r s⟩
  case entries =>
    rw [setQ_soft, setQ_mwi, expandRecording_mwi]
    exact expandRecording_mir_getElem c r s i
  case first =>
    have hstored : 0 < storedCount c := by
      rw [storedCount, if_neg hmask]
      have := aliases_length_pos c
      omega
    exact ((expandRecording_mir_getElem c r s 0).trans (if_pos hstored)).trans (aliases_getD_zero c)
  case start => rw [setQ_soft, expandRecording_get_self]
  case stop => rw [setQ_soft, expandRecording_get_self]

/-! ### An overfull expansion -/

/-- Every bit of an OR of single bits. -/
theorem foldl_or_bit (l : List Nat) (x : Addr) {i : Nat} (hi : i < 32) :
    (l.foldl (fun x p => x ||| (1#32 <<< p)) x).getLsbD i = (x.getLsbD i || decide (i ∈ l)) := by
  induction l generalizing x with
  | nil => simp
  | cons p ps ih =>
    rw [List.foldl_cons, ih, BitVec.getLsbD_or, oneBit p i hi]
    simp [Bool.or_assoc]

theorem fiveLowest_bit (mask : Addr) {i : Nat} (hi : i < 32) :
    (fiveLowest mask).getLsbD i = decide (i ∈ (setBits mask 0 32).take 5) := by
  rw [fiveLowest, foldl_or_bit _ _ hi]
  simp

/-- The set bits of `fiveLowest` are the five lowest set bits. -/
theorem setBits_fiveLowest (mask : Addr) : setBits (fiveLowest mask) 0 32 = (setBits mask 0 32).take 5 := by
  rw [(setBits_nodup mask 0 32).take_eq_filter_mem (n := 5)]
  conv_rhs => arg 2; rw [setBits]
  rw [List.filter_filter, setBits]
  refine List.filter_congr fun i hi => ?_
  have hlt : i < 32 := by simpa using hi
  rw [fiveLowest_bit mask hlt, Bool.eq_iff_iff]
  simp only [decide_eq_true_eq, Bool.and_eq_true, List.elem_eq_mem]
  refine (and_iff_left_of_imp fun hmem => ?_).symm
  obtain ⟨-, -, hbit⟩ := mem_setBits.mp (List.mem_of_mem_take hmem)
  exact hbit

/-- A counter below 32 deposits into the first five positions alone. -/
theorem depositBits_take_five {l : List Nat} (hl : 5 ≤ l.length) {n : Nat} (hn : n < 32) :
    depositBits l n = depositBits (l.take 5) n := by
  have hlen : (l.take 5).length = 5 := by rw [List.length_take]; omega
  conv_lhs => rw [← List.take_append_drop 5 l]
  rw [depositBits_append, hlen, Nat.div_eq_of_lt (show n < 2 ^ 5 from hn), depositBits_zero]
  exact BitVec.or_zero

/-- The subsets of the five lowest set bits are the first 32 deposits. -/
theorem subset_fiveLowest_iff {mask : Addr} (h : 6 ≤ (setBits mask 0 32).length) (o : Addr) :
    o &&& ~~~fiveLowest mask = 0 ↔ ∃ i : Fin 32, depositBits (setBits mask 0 32) i.val = o := by
  have hlen : ((setBits mask 0 32).take 5).length = 5 := by rw [List.length_take]; omega
  rw [← mem_aliasOffsets, aliasOffsets_eq_deposits, setBits_fiveLowest, hlen, List.mem_map]
  constructor
  · rintro ⟨n, hn, rfl⟩
    have hn : n < 32 := List.mem_range.mp hn
    exact ⟨⟨n, hn⟩, depositBits_take_five (by omega) hn⟩
  · rintro ⟨i, rfl⟩
    exact ⟨i.val, List.mem_range.mpr i.isLt, (depositBits_take_five (by omega) i.isLt).symm⟩

/-- More than five mirror bits give at least 64 aliases. -/
theorem le_aliases_length {c : ComputedRegion} (h : 6 ≤ (setBits c.mirrorMask 0 32).length) :
    64 ≤ (aliases c).length := by
  rw [aliases_eq_deposits, List.length_map, List.length_range]
  exact Nat.pow_le_pow_right (n := 2) (by decide) h

theorem mirrorMask_ne_zero {c : ComputedRegion} (h : 6 ≤ (setBits c.mirrorMask 0 32).length) : c.mirrorMask ≠ 0 := by
  intro hzero
  rw [hzero] at h
  revert h
  decide

/-- Of an overfull expansion every entry of the table is an alias. -/
theorem overfull_mir_getElem {c : ComputedRegion} (h : 6 ≤ (setBits c.mirrorMask 0 32).length) (r : SoftId) (s : State)
    (i : Fin 32) :
    ((expandRecording c r s).soft.get r).mir[i] =
      { start := c.start + depositBits (setBits c.mirrorMask 0 32) i.val,
        stop := c.stop + depositBits (setBits c.mirrorMask 0 32) i.val } := by
  have hi := i.isLt
  have hlen := le_aliases_length h
  have hstored : storedCount c = 32 := by
    rw [storedCount, if_neg (mirrorMask_ne_zero h)]
    omega
  rw [expandRecording_mir_getElem, hstored, if_pos i.isLt, List.getD_eq_getElem?_getD, aliases_eq_deposits]
  rw [aliases_eq_deposits, List.length_map, List.length_range] at hlen
  rw [List.getElem?_map, List.getElem?_range (by omega)]
  rfl

/-- Settles O20: the first 32 deposits use the five lowest set bits alone. -/
theorem overfullExpansionKeepsFiveLowestBits : Obligations.OverfullExpansionKeepsFiveLowestBits := by
  intro s t c r hbits h o
  obtain ⟨-, hnext⟩ := requireLive_next h
  cases hnext
  rw [subset_fiveLowest_iff hbits]
  refine exists_congr fun i => ?_
  rw [setQ_soft, overfull_mir_getElem hbits, Bounds.mk.injEq, BitVec.add_right_inj, BitVec.add_right_inj, and_self]

end Sys2Proof.Proofs.MirrorExpansion
end

