-- ==== Sys2Proof/Proofs/Recompute.lean ====
section
/-! PROOFS. What RECOMPUTE builds (spec/42_mapping_manager.md R150 to R159): one fold over the slots' actions, each of which
appends flat mappings or fills one soft region. The flat list, the regions and the write index are read off that fold, and
nothing but the descriptor bytes and the slot table enters it. -/

namespace Sys2Proof.Proofs.Recompute

open Sys2Proof Sys2Proof.Machine

/-! ### The flat lookup -/

theorem flatLookup_eq_some_iff {k : Kind} {a : Addr} {l : List FlatEntry} {e : FlatEntry} :
    flatLookup k a l = some e ↔
      ∃ before after, l = before ++ e :: after ∧ serves k a e = true ∧ ∀ x ∈ after, serves k a x = false := by
  rw [flatLookup, List.findRev?_eq_find?_reverse, List.find?_eq_some_iff_append]
  simp only [Bool.not_eq_true', List.reverse_eq_append_iff, List.reverse_cons, List.append_assoc, List.singleton_append]
  constructor
  · rintro ⟨hserves, after, before, hl, hafter⟩
    exact ⟨before.reverse, after.reverse, hl, hserves, by simpa using hafter⟩
  · rintro ⟨before, after, hl, hserves, hafter⟩
    exact ⟨hserves, after.reverse, before.reverse, by simpa using hl, by simpa using hafter⟩

theorem flatLookup_eq_none_iff {k : Kind} {a : Addr} {l : List FlatEntry} :
    flatLookup k a l = none ↔ ∀ x ∈ l, serves k a x = false := by
  simp [flatLookup, List.findRev?_eq_find?_reverse]

/-- Settles O28: the search from the end stops at the last entry that serves. -/
theorem flatLookupIsLastInstalled : Obligations.FlatLookupIsLastInstalled :=
  fun _ _ _ => ⟨fun _ => flatLookup_eq_some_iff, flatLookup_eq_none_iff⟩

/-! ### What one action does -/

/-- The flat mappings one action installs (42_mapping_manager.md R152). -/
def actionEntries (regs : Vector Byte 32) (i : Fin 8) : SlotAction → List FlatEntry
  | .flat b k l m o =>
      { start := (computeSlot regs i l m o).start, stop := (computeSlot regs i l m o).stop, backing := b, kinds := k } ::
        installedEntries (computeSlot regs i l m o) b k
  | .soft _ _ _ _ => []

theorem applyAction_flat_list (i : Fin 8) (s : State) (act : SlotAction) :
    (applyAction i s act).flat = s.flat ++ actionEntries s.regs i act := by
  cases act with
  | flat b k l m o => rw [applyAction_flat]; rfl
  | soft r l m o =>
    rw [applyAction_soft, expandRecording_eq]
    split <;> simp [actionEntries]

/-- What one action makes of the write index: a recording counts afresh (41_mirror_expander.md R139). -/
def actionCount (regs : Vector Byte 32) (i : Fin 8) : SlotAction → Option Nat
  | .flat _ _ _ _ _ => none
  | .soft _ l m o => some (storedCount (computeSlot regs i l m o))

theorem applyAction_mwi (i : Fin 8) (s : State) (act : SlotAction) :
    (applyAction i s act).mwi = (actionCount s.regs i act).getD s.mwi := by
  cases act with
  | flat => rw [applyAction_flat]; rfl
  | soft r l m o =>
    rw [applyAction_soft, MirrorExpansion.expandRecording_mwi]
    rfl

/-- The region a Soft action fills, from the region as it stood. -/
def filledRegion (x : SoftRegion) (c : ComputedRegion) : SoftRegion :=
  { start := c.start, stop := c.stop, mir := if c.mirrorMask = 0 then x.mir else recordedTable x.mir 0 (aliases c) }

theorem applyAction_soft_get_self (i : Fin 8) (s : State) (r : SoftId) (l m o : Addr) :
    (applyAction i s (.soft r l m o)).soft.get r = filledRegion (s.soft.get r) (computeSlot s.regs i l m o) := by
  rw [applyAction_soft, MirrorExpansion.expandRecording_get_self]
  simp only [setSoft_soft, get_put_self]
  rfl

theorem applyAction_get_of_not_target (i : Fin 8) (s : State) {act : SlotAction} {r : SoftId}
    (h : targets r act = false) : (applyAction i s act).soft.get r = s.soft.get r := by
  cases act with
  | flat => rw [applyAction_flat]; rfl
  | soft r' l m o =>
    have hne : r ≠ r' := fun heq => by simp [targets, heq] at h
    rw [applyAction_soft, MirrorExpansion.expandRecording_get_of_ne _ hne, setSoft_soft, get_put_of_ne _ _ hne]

theorem eq_soft_of_targets {r : SoftId} {act : SlotAction} (h : targets r act = true) :
    ∃ l m o, act = .soft r l m o := by
  cases act with
  | flat => cases h
  | soft r' l m o =>
    obtain rfl : r' = r := by simpa [targets] using h
    exact ⟨l, m, o, rfl⟩

/-! ### The mapping is a function of the descriptor bytes and the slot table -/

/-- Two states with the same mapping, whose descriptors give the same regions. -/
structure SameMap (s s' : State) : Prop where
  soft : s.soft = s'.soft
  flat : s.flat = s'.flat
  mwi : s.mwi = s'.mwi
  region : computeSlot s.regs = computeSlot s'.regs

theorem actionEntries_congr {regs regs' : Vector Byte 32} (h : computeSlot regs = computeSlot regs') (i : Fin 8)
    (act : SlotAction) : actionEntries regs i act = actionEntries regs' i act := by
  cases act <;> simp only [actionEntries, h]

theorem actionCount_congr {regs regs' : Vector Byte 32} (h : computeSlot regs = computeSlot regs') (i : Fin 8)
    (act : SlotAction) : actionCount regs i act = actionCount regs' i act := by
  cases act <;> simp only [actionCount, h]

theorem sameMap_applyAction {s s' : State} (h : SameMap s s') (i : Fin 8) (act : SlotAction) :
    SameMap (applyAction i s act) (applyAction i s' act) := by
  constructor
  case soft =>
    refine SoftTables.ext_get fun r => ?_
    cases htarget : targets r act with
    | false =>
      rw [applyAction_get_of_not_target i s htarget, applyAction_get_of_not_target i s' htarget, h.soft]
    | true =>
      obtain ⟨l, m, o, rfl⟩ := eq_soft_of_targets htarget
      rw [applyAction_soft_get_self, applyAction_soft_get_self, h.soft, h.region]
  case flat => rw [applyAction_flat_list, applyAction_flat_list, h.flat, actionEntries_congr h.region]
  case mwi => rw [applyAction_mwi, applyAction_mwi, h.mwi, actionCount_congr h.region]
  case region => rw [applyAction_regs, applyAction_regs, h.region]

theorem sameMap_foldl (l : List (Fin 8 × SlotAction)) {s s' : State} (h : SameMap s s') :
    SameMap (l.foldl (fun s p => applyAction p.1 s p.2) s) (l.foldl (fun s p => applyAction p.1 s p.2) s') := by
  induction l generalizing s s' with
  | nil => exact h
  | cons p l ih => exact ih (sameMap_applyAction h p.1 p.2)

theorem recompute_of_no_table {s : State} (h : s.cfg.table = none) : recompute s = s.cleared := by
  unfold recompute
  rw [h]

/-- RECOMPUTE asks for the slot table and the regions of the descriptors, and nothing else (10_state.md R38). -/
theorem sameMap_recompute {s s' : State} (htable : s.cfg.table = s'.cfg.table)
    (hregion : computeSlot s.regs = computeSlot s'.regs) : SameMap (recompute s) (recompute s') := by
  have hcleared : SameMap s.cleared s'.cleared := ⟨rfl, rfl, rfl, hregion⟩
  cases ht : s'.cfg.table with
  | none => rwa [recompute_of_no_table ht, recompute_of_no_table (htable.trans ht)]
  | some t =>
    rw [recompute_of_table ht, recompute_of_table (htable.trans ht)]
    exact sameMap_foldl _ hcleared

/-- A slot's regions read its two descriptor bytes (40_region_calculator.md R120). -/
theorem computeSlot_congr {s s' : State} (h : ∀ o : RegOff, 0x10#5 ≤ o → s.reg o = s'.reg o) :
    computeSlot s.regs = computeSlot s'.regs := by
  have hdesc : ∀ n, (hn : n < 32) → 16 ≤ n → s.regs[n] = s'.regs[n] := by
    intro n hn hlow
    rw [← RegionCalculator.reg_ofNat s hn, ← RegionCalculator.reg_ofNat s' hn]
    refine h _ ?_
    rw [BitVec.le_def, BitVec.toNat_ofNat, BitVec.toNat_ofNat, Nat.mod_eq_of_lt hn]
    exact hlow
  funext slot l m o
  have hsize : sizeByteOf s.regs slot = sizeByteOf s'.regs slot := hdesc _ _ (by omega)
  have hbase : baseByteOf s.regs slot = baseByteOf s'.regs slot := hdesc _ _ (by omega)
  rw [computeSlot, computeSlot, hsize, hbase]

/-- Settles O22: the descriptor bytes give the regions, and these and the slot table give the mapping. -/
theorem mapDependsOnDescriptorsAlone : Obligations.MapDependsOnDescriptorsAlone := by
  intro s s' t t' htable hdesc h h'
  obtain ⟨-, hnext⟩ := requireLive_next h
  obtain ⟨-, hnext'⟩ := requireLive_next h'
  cases hnext
  cases hnext'
  obtain ⟨hsoft, hflat, hmwi, -⟩ := sameMap_recompute htable (computeSlot_congr hdesc)
  exact ⟨hsoft, hflat, hmwi, by simp⟩

/-- The state RECOMPUTE leaves, as an operation. -/
def recomputed (s : State) : State := (recompute s).setQ .none

theorem exec_recompute_eq {s : State} (h : s.Ready) : exec .recompute s = .next (recomputed s) :=
  MappingManager.exec_recompute_of_ready h

theorem recomputed_frame (s : State) :
    recomputed s =
      { s with soft := (recomputed s).soft, mwi := (recomputed s).mwi, flat := (recomputed s).flat, built := true,
               q := .none } := by
  have hframe : recompute s = _ := recompute_frame s
  rw [recompute_built] at hframe
  exact congrArg (State.setQ · .none) hframe

theorem ready_recomputed {s : State} (h : s.Ready) : (recomputed s).Ready := by
  simpa [recomputed, State.Ready] using h

/-- A mapping that comes out as it stood is no change. -/
theorem eq_of_mapFrame {s t : State} (h : MapFrame s t) (hsoft : t.soft = s.soft) (hmwi : t.mwi = s.mwi)
    (hflat : t.flat = s.flat) (hbuilt : t.built = s.built) : t = s := by
  rw [h, hsoft, hmwi, hflat, hbuilt]

/-- A recompute from the state a recompute has left builds the mapping that stands (42_mapping_manager.md R159). -/
theorem recompute_recomputed (s : State) : recompute (recomputed s) = recomputed s := by
  obtain ⟨hsoft, hflat, hmwi, -⟩ : SameMap (recompute (recomputed s)) (recompute s) :=
    sameMap_recompute (by simp [recomputed]) (by simp [recomputed])
  exact eq_of_mapFrame (recompute_frame _) hsoft hmwi hflat (by simp [recomputed])

/-- Settles O21: a recompute keeps what a recompute asks for, so the second builds the mapping that stands. -/
theorem recomputeIsIdempotent : Obligations.RecomputeIsIdempotent := by
  intro s h
  refine ⟨recomputed s, exec_recompute_eq h, ?again, recomputed_frame s⟩
  case again =>
    rw [exec_recompute_eq (ready_recomputed h), recomputed, recompute_recomputed]
    rfl

/-! ### The flat list -/

/-- The fold's effect on the registers: none. -/
theorem foldl_regs (l : List (Fin 8 × SlotAction)) (s : State) :
    (l.foldl (fun s p => applyAction p.1 s p.2) s).regs = s.regs := by
  induction l generalizing s with
  | nil => rfl
  | cons p l ih => rw [List.foldl_cons, ih, applyAction_regs]

theorem foldl_flat (l : List (Fin 8 × SlotAction)) (s : State) :
    (l.foldl (fun s p => applyAction p.1 s p.2) s).flat = s.flat ++ l.flatMap fun p => actionEntries s.regs p.1 p.2 := by
  induction l generalizing s with
  | nil => simp
  | cons p l ih => rw [List.foldl_cons, ih, applyAction_flat_list, applyAction_regs, List.flatMap_cons, List.append_assoc]

/-- The flat mappings one slot installs, in list order. -/
def slotEntries (regs : Vector Byte 32) (t : SlotTable) (i : Fin 8) : List FlatEntry :=
  (t[i]).flatMap (actionEntries regs i)

theorem flatMap_actionsInOrder (t : SlotTable) {β : Type} (g : Fin 8 → SlotAction → List β) :
    (actionsInOrder t).flatMap (fun p => g p.1 p.2) = slotOrder.flatMap fun i => (t[i]).flatMap (g i) := by
  rw [actionsInOrder, List.flatMap_assoc]
  simp only [List.flatMap_map]

theorem recompute_flat_of_table {s : State} {t : SlotTable} (h : s.cfg.table = some t) :
    (recompute s).flat = slotOrder.flatMap (slotEntries s.regs t) := by
  rw [recompute_of_table h, foldl_flat, cleared_flat, cleared_regs, List.nil_append, flatMap_actionsInOrder]
  rfl

/-- Settles O25: the fold appends each action's entries, in the order of the slots and of each slot's list. -/
theorem recomputeInstallsFlatMappings : Obligations.RecomputeInstallsFlatMappings := by
  intro s tbl h htable
  exact ⟨_, exec_recompute_eq h, recompute_flat_of_table htable⟩

theorem mem_slotEntries {regs : Vector Byte 32} {t : SlotTable} {i : Fin 8} {e : FlatEntry} :
    e ∈ slotEntries regs t i ↔ ∃ act ∈ t[i], e ∈ actionEntries regs i act := List.mem_flatMap

/-- Where an action's entries come from: its window, or one of its aliases. -/
theorem of_mem_actionEntries {regs : Vector Byte 32} {i : Fin 8} {act : SlotAction} {e : FlatEntry}
    (h : e ∈ actionEntries regs i act) : ∃ b k l m o, act = .flat b k l m o ∧ e.backing = b ∧ e.kinds = k ∧
      ∃ x, x &&& ~~~(computeSlot regs i l m o).mirrorMask = 0 ∧ e.start = (computeSlot regs i l m o).start + x ∧
        e.stop = (computeSlot regs i l m o).stop + x := by
  cases act with
  | soft => cases h
  | flat b k l m o =>
    refine ⟨b, k, l, m, o, rfl, ?_⟩
    rcases List.mem_cons.mp h with rfl | hmem
    · exact ⟨rfl, rfl, 0, by simp, by simp, by simp⟩
    · obtain ⟨-, x, hx, rfl⟩ := MirrorExpansion.mem_installedEntries.mp hmem
      exact ⟨rfl, rfl, x, hx, rfl, rfl⟩

/-- The slots above `i` are processed before the others. -/
theorem slotOrder_split (i : Fin 8) :
    slotOrder = slotOrder.filter (fun j => i < j) ++ slotOrder.filter (fun j => j ≤ i) := by
  revert i; decide

theorem mem_slots_upto (i : Fin 8) : i ∈ slotOrder.filter fun j => j ≤ i := by revert i; decide

/-- A lookup over a list that holds an entry which serves finds one, and in that list. -/
theorem flatLookup_append_of_serves {k : Kind} {a : Addr} (l : List FlatEntry) {m : List FlatEntry} {e : FlatEntry}
    (he : e ∈ m) (hs : serves k a e = true) : ∃ x ∈ m, flatLookup k a (l ++ m) = some x := by
  cases hm : flatLookup k a m with
  | none => exact absurd hs (by simp [flatLookup_eq_none_iff.mp hm e he])
  | some x => exact ⟨x, (flatLookup_some hm).1, by rw [flatLookup_append, hm, Option.some_or]⟩

/-- Settles O26: the entries of the slots up to `i` stand last in the list, and one of them serves the access. -/
theorem lowerSlotWinsOverlap : Obligations.LowerSlotWinsOverlap := by
  intro s tbl i b k l m o a kind h htable hact hkind hlow hhigh
  have hprimary : FlatEntry.mk (computeSlot s.regs i l m o).start (computeSlot s.regs i l m o).stop b k ∈
      (slotOrder.filter fun j => j ≤ i).flatMap (slotEntries s.regs tbl) :=
    List.mem_flatMap.mpr ⟨i, mem_slots_upto i, mem_slotEntries.mpr ⟨_, hact, List.mem_cons_self⟩⟩
  obtain ⟨e, he, hfound⟩ := flatLookup_append_of_serves
    ((slotOrder.filter fun j => i < j).flatMap (slotEntries s.regs tbl)) hprimary
    (MirrorExpansion.serves_iff.mpr ⟨hkind, hlow, hhigh⟩)
  obtain ⟨j, hj, hej⟩ := List.mem_flatMap.mp he
  obtain ⟨act, hact', hent⟩ := mem_slotEntries.mp hej
  obtain ⟨b', k', l', m', o', rfl, hb, hk, hx⟩ := of_mem_actionEntries hent
  refine ⟨_, e, exec_recompute_eq h, ?found, j, b', k', l', m', o', ?lower, hact', hb, hk, hx⟩
  case found =>
    rw [recomputed, setQ_flat, recompute_flat_of_table htable, slotOrder_split i, List.flatMap_append]
    exact hfound
  case lower => simpa using (List.mem_filter.mp hj).2

/-! ### The write index -/

/-- The fold leaves the last count, or the index as it was. -/
theorem foldl_mwi (l : List (Fin 8 × SlotAction)) (s : State) :
    (l.foldl (fun s p => applyAction p.1 s p.2) s).mwi =
      ((l.filterMap fun p => actionCount s.regs p.1 p.2).getLast?).getD s.mwi := by
  induction l generalizing s with
  | nil => rfl
  | cons p l ih =>
    rw [List.foldl_cons, ih, applyAction_mwi, applyAction_regs, List.filterMap_cons]
    cases actionCount s.regs p.1 p.2 with
    | none => rfl
    | some n => rw [List.getLast?_cons]; rfl

theorem filterMap_actionsInOrder (t : SlotTable) {β : Type} (g : Fin 8 → SlotAction → Option β) :
    (actionsInOrder t).filterMap (fun p => g p.1 p.2) = slotOrder.flatMap fun i => (t[i]).filterMap (g i) := by
  rw [actionsInOrder, List.filterMap_flatMap]
  simp only [List.filterMap_map, Function.comp_def]

theorem recompute_mwi_of_table {s : State} {t : SlotTable} (h : s.cfg.table = some t) :
    (recompute s).mwi =
      ((slotOrder.flatMap fun i => (t[i]).filterMap (actionCount s.regs i)).getLast?).getD 0 := by
  rw [recompute_of_table h, foldl_mwi, cleared_mwi, cleared_regs, filterMap_actionsInOrder]

/-- Settles O27: every recording sets the index to its own count, so the last one's stands. -/
theorem writeIndexCountsLastRecording : Obligations.WriteIndexCountsLastRecording := by
  intro s tbl h htable
  exact ⟨_, exec_recompute_eq h, recompute_mwi_of_table htable⟩

/-! ### The soft regions -/

theorem foldl_get_of_not_target {r : SoftId} {l : List (Fin 8 × SlotAction)} (h : ∀ p ∈ l, targets r p.2 = false)
    (s : State) : (l.foldl (fun s p => applyAction p.1 s p.2) s).soft.get r = s.soft.get r := by
  induction l generalizing s with
  | nil => rfl
  | cons p l ih =>
    rw [List.foldl_cons, ih fun q hq => h q (List.mem_cons_of_mem _ hq),
      applyAction_get_of_not_target _ _ (h p List.mem_cons_self)]

/-- In a list at most one of whose elements satisfies `p`, one that does stands alone. -/
theorem split_of_countP_le_one {α : Type} {p : α → Bool} {l : List α} (h : l.countP p ≤ 1) {x : α} (hx : x ∈ l)
    (hp : p x = true) : ∃ pre post, l = pre ++ x :: post ∧ (∀ y ∈ pre, p y = false) ∧ ∀ y ∈ post, p y = false := by
  obtain ⟨pre, post, rfl⟩ := List.append_of_mem hx
  rw [List.countP_append, List.countP_cons, if_pos hp] at h
  have hpre : pre.countP p = 0 := by omega
  have hpost : post.countP p = 0 := by omega
  exact ⟨pre, post, rfl, by simpa using List.countP_eq_zero.mp hpre, by simpa using List.countP_eq_zero.mp hpost⟩

/-- The actions of a table in either order are the same actions. -/
theorem actionsInOrder_perm (t : SlotTable) : ((actionsInOrder t).map Prod.snd).Perm t.toList.flatten := by
  have hslots : t.toList = (List.finRange 8).map fun i => t[i] := by
    apply List.ext_getElem <;> simp
  have horder : slotOrder.Perm (List.finRange 8) := by decide
  have hmap : (actionsInOrder t).map Prod.snd = slotOrder.flatMap fun i => t[i] := by
    simp [actionsInOrder, List.map_flatMap, Function.comp_def]
  rw [hmap, hslots, ← List.flatMap_def]
  exact horder.flatMap_right _

theorem slotTableOk_of_table {c : Config} {t : SlotTable} (hc : c.wf = true) (h : c.table = some t) :
    slotTableOk t = true := by
  obtain ⟨p, hp, rfl⟩ := Option.map_eq_some_iff.mp h
  exact List.all_eq_true.mp (Bool.and_eq_true_iff.mp hc).2 p (List.mem_of_find?_eq_some hp)

/-- In an accepted configuration at most one action fills a region (42_mapping_manager.md R156). -/
theorem countP_targets_le {c : Config} {t : SlotTable} (hc : c.wf = true) (h : c.table = some t) (r : SoftId) :
    (actionsInOrder t).countP (fun p => targets r p.2) ≤ 1 := by
  have hall := (Bool.and_eq_true_iff.mp (slotTableOk_of_table hc h)).2
  have hr : r ∈ softIds := by cases r <;> decide
  have hcount : t.toList.flatten.countP (targets r) ≤ 1 := by simpa using List.all_eq_true.mp hall r hr
  rw [← (actionsInOrder_perm t).countP_eq, List.countP_map] at hcount
  exact hcount

theorem recompute_get_of_soft {s : State} {t : SlotTable} (hc : s.cfg.wf = true) (h : s.cfg.table = some t)
    {i : Fin 8} {r : SoftId} {l m o : Addr} (hact : SlotAction.soft r l m o ∈ t[i]) :
    (recompute s).soft.get r = filledRegion emptyRegion (computeSlot s.regs i l m o) := by
  obtain ⟨pre, post, hsplit, hpre, hpost⟩ := split_of_countP_le_one (countP_targets_le hc h r)
    (mem_actionsInOrder.mpr hact) (by simp [targets])
  rw [recompute_of_table h, hsplit, List.foldl_append, List.foldl_cons, foldl_get_of_not_target hpost,
    applyAction_soft_get_self, foldl_get_of_not_target hpre, foldl_regs, cleared_soft, emptyTables_get, cleared_regs]

theorem recompute_get_of_no_action {s : State} {t : SlotTable} (h : s.cfg.table = some t) {r : SoftId}
    (hact : ∀ i : Fin 8, ∀ act ∈ t[i], targets r act = false) : (recompute s).soft.get r = emptyRegion := by
  rw [recompute_of_table h, foldl_get_of_not_target, cleared_soft, emptyTables_get]
  exact fun p hp => hact p.1 p.2 (mem_actionsInOrder.mp hp)

/-- An empty region filled, in the obligation's spelling. -/
theorem filledRegion_empty (c : ComputedRegion) :
    filledRegion emptyRegion c =
      { start := c.start, stop := c.stop,
        mir := Vector.ofFn fun n : Fin 32 =>
          if c.mirrorMask = 0 then ⟨0, 0⟩ else (aliases c).getD n.val ⟨0, 0⟩ } := by
  have hempty (n : Nat) (hn : n < 32) : emptyRegion.mir[n] = ⟨0, 0⟩ := Vector.getElem_replicate hn
  rw [filledRegion, SoftRegion.mk.injEq]
  refine ⟨rfl, rfl, Vector.ext fun n hn => ?_⟩
  rw [Vector.getElem_ofFn]
  split
  · exact hempty n hn
  · refine (MirrorExpansion.recordedTable_zero_getElem emptyRegion.mir (aliases c) ⟨n, hn⟩).trans ?_
    exact congrArg _ (hempty n hn)

/-- Settles O24: at most one action fills a region, and before it the region stood cleared. -/
theorem recomputeFillsSoftRegions : Obligations.RecomputeFillsSoftRegions := by
  intro s tbl h htable
  refine ⟨_, exec_recompute_eq h, fun r i l m o hact => ?_, fun r hact => recompute_get_of_no_action htable hact⟩
  exact (recompute_get_of_soft h.1 htable hact).trans (filledRegion_empty _)

/-! ### The bounds of a mapping -/

/-- The bounds of a window or an alias: ordered, and below the highest end an alias can have (41_mirror_expander.md
R143). -/
def BoundsOk (start stop : Addr) : Prop := start.toNat ≤ stop.toNat ∧ stop.toNat ≤ 0x13FFFFD

/-- Every range of a soft region is in bounds. -/
def RegionOk (x : SoftRegion) : Prop := BoundsOk x.start x.stop ∧ ∀ b ∈ x.mir.toList, BoundsOk b.start b.stop

/-- Every range of a mapping is in bounds (10_state.md R35). -/
structure MapOk (s : State) : Prop where
  flat : ∀ e ∈ s.flat, BoundsOk e.start e.stop
  soft : ∀ r, RegionOk (s.soft.get r)

theorem regionOk_empty : RegionOk emptyRegion := by
  refine ⟨⟨Nat.le_refl _, Nat.zero_le _⟩, fun b hb => ?_⟩
  rw [emptyRegion, Vector.toList_replicate] at hb
  rw [List.eq_of_mem_replicate hb]
  exact ⟨Nat.le_refl _, Nat.zero_le _⟩

theorem mapOk_of_empty {s : State} (hflat : s.flat = []) (hsoft : s.soft = emptyTables) : MapOk s := by
  refine ⟨by simp [hflat], fun r => ?_⟩
  rw [hsoft, emptyTables_get]
  exact regionOk_empty

theorem boundsOk_alias {regs : Vector Byte 32} {i : Fin 8} {l m o x : Addr}
    (hx : x &&& ~~~(computeSlot regs i l m o).mirrorMask = 0) :
    BoundsOk ((computeSlot regs i l m o).start + x) ((computeSlot regs i l m o).stop + x) := by
  obtain ⟨hstart, hstop, hordered, hle⟩ := MirrorExpansion.computeRaw_alias_exact _ _ l m o hx
  refine ⟨?_, hle⟩
  rw [computeSlot, hstart, hstop]
  exact Nat.add_le_add_right hordered _

theorem boundsOk_primary (regs : Vector Byte 32) (i : Fin 8) (l m o : Addr) :
    BoundsOk (computeSlot regs i l m o).start (computeSlot regs i l m o).stop := by
  have h := boundsOk_alias (regs := regs) (i := i) (l := l) (m := m) (o := o) (x := 0#32) (by simp)
  rwa [BitVec.add_zero, BitVec.add_zero] at h

theorem regionOk_filledRegion {x : SoftRegion} (h : RegionOk x) (regs : Vector Byte 32) (i : Fin 8) (l m o : Addr) :
    RegionOk (filledRegion x (computeSlot regs i l m o)) := by
  refine ⟨boundsOk_primary regs i l m o, fun b hb => ?_⟩
  unfold filledRegion at hb
  split at hb
  · exact h.2 b hb
  · obtain ⟨n, hn, rfl⟩ := List.getElem_of_mem hb
    rw [Vector.length_toList] at hn
    have hentry := MirrorExpansion.recordedTable_zero_getElem x.mir (aliases (computeSlot regs i l m o)) ⟨n, hn⟩
    simp only [Fin.getElem_fin] at hentry
    simp only [Vector.getElem_toList, hentry, List.getD_eq_getElem?_getD]
    cases hget : (aliases (computeSlot regs i l m o))[n]? with
    | none => exact h.2 _ (by simp)
    | some b =>
      obtain ⟨y, hy, rfl⟩ := MirrorExpansion.mem_aliases.mp (List.mem_of_getElem? hget)
      exact boundsOk_alias hy

theorem mapOk_applyAction {s : State} (h : MapOk s) (i : Fin 8) (act : SlotAction) : MapOk (applyAction i s act) := by
  constructor
  case flat =>
    intro e he
    rw [applyAction_flat_list] at he
    rcases List.mem_append.mp he with hold | hnew
    · exact h.flat e hold
    · obtain ⟨b, k, l, m, o, -, -, -, x, hx, hstart, hstop⟩ := of_mem_actionEntries hnew
      rw [hstart, hstop]
      exact boundsOk_alias hx
  case soft =>
    intro r
    cases htarget : targets r act with
    | false => rw [applyAction_get_of_not_target i s htarget]; exact h.soft r
    | true =>
      obtain ⟨l, m, o, rfl⟩ := eq_soft_of_targets htarget
      rw [applyAction_soft_get_self]
      exact regionOk_filledRegion (h.soft r) s.regs i l m o

/-- Every mapping RECOMPUTE builds is in bounds. -/
theorem mapOk_recompute (s : State) : MapOk (recompute s) := by
  have hcleared : MapOk s.cleared := mapOk_of_empty rfl rfl
  cases ht : s.cfg.table with
  | none => rwa [recompute_of_no_table ht]
  | some t =>
    rw [recompute_of_table ht]
    exact List.foldlRecOn _ _ hcleared fun s hs p _ => mapOk_applyAction hs p.1 p.2

end Sys2Proof.Proofs.Recompute
end

