-- ==== Sys2Proof/Proofs/BusRouterRead.lean ====
section
/-! PROOFS. The reads (spec/20_memory.md R55 to R66, spec/43_bus_router_read.md R175 to R188, spec/45_register_commands.md
R232, R234): what each lookup answers, which one takes a read, what the open-bus read adds, and that a read is at most two
draws. -/

namespace Sys2Proof.Proofs.BusRouterRead

open Sys2Proof Sys2Proof.Machine

/-! ### The lookups of a soft region -/

theorem inside_iff_toNat {a st e : Addr} : inside a st e = true ↔ st.toNat ≤ a.toNat ∧ a.toNat ≤ e.toNat :=
  inside_iff

/-- The entry a mirror lookup looks for (43_bus_router_read.md R176). -/
def entryHolds (a : Addr) (b : Bounds) : Bool := decide (b.start ≠ 0) && inside a b.start b.stop

theorem entryHolds_iff {a : Addr} {b : Bounds} :
    entryHolds a b = true ↔ b.start ≠ 0 ∧ b.start.toNat ≤ a.toNat ∧ a.toNat ≤ b.stop.toNat := by
  rw [entryHolds, Bool.and_eq_true, decide_eq_true_eq, inside_iff_toNat]

theorem entryHolds_eq_false_iff {a : Addr} {b : Bounds} :
    entryHolds a b = false ↔ ¬(b.start ≠ 0 ∧ b.start.toNat ≤ a.toNat ∧ a.toNat ≤ b.stop.toNat) := by
  rw [← entryHolds_iff, Bool.not_eq_true]

theorem hitMirror_of_active {x : SoftRegion} (h : x.start ≠ 0) (a : Addr) :
    hitMirror x a = (x.mir.toList.find? (entryHolds a)).map (·.start) :=
  if_neg h

/-- The first entry of a table that holds the address, by its index. -/
theorem find_entryHolds_iff {mir : Vector Bounds 32} {a : Addr} {b : Bounds} :
    mir.toList.find? (entryHolds a) = some b ↔ ∃ i : Fin 32, b = mir[i] ∧ entryHolds a mir[i] = true ∧
      ∀ j : Fin 32, j < i → entryHolds a mir[j] = false := by
  rw [List.find?_eq_some_iff_getElem]
  simp only [Vector.length_toList, Vector.getElem_toList, Bool.not_eq_true']
  constructor
  · rintro ⟨hb, i, hi, rfl, hfirst⟩
    exact ⟨⟨i, hi⟩, rfl, hb, fun j hj => hfirst j.val hj⟩
  · rintro ⟨i, rfl, hb, hfirst⟩
    exact ⟨hb, i.val, i.isLt, rfl, fun j hj => hfirst ⟨j, by omega⟩ hj⟩

theorem hitMirror_eq_some_iff {x : SoftRegion} {a st : Addr} :
    hitMirror x a = some st ↔ x.start ≠ 0 ∧ ∃ i : Fin 32, st = x.mir[i].start ∧ entryHolds a x.mir[i] = true ∧
      ∀ j : Fin 32, j < i → entryHolds a x.mir[j] = false := by
  by_cases hactive : x.start = 0
  · have hmiss : hitMirror x a = none := if_pos hactive
    simp [hmiss, hactive]
  · rw [hitMirror_of_active hactive, Option.map_eq_some_iff]
    simp only [find_entryHolds_iff]
    constructor
    · rintro ⟨b, ⟨i, rfl, hi⟩, rfl⟩
      exact ⟨hactive, i, rfl, hi⟩
    · rintro ⟨-, i, rfl, hi⟩
      exact ⟨_, ⟨i, rfl, hi⟩, rfl⟩

/-- Settles O29: the primary is one comparison, the mirror a search for the first entry that holds the address. -/
theorem softLookupsSkipInactiveAndTakeFirst : Obligations.SoftLookupsSkipInactiveAndTakeFirst := by
  intro x a
  refine ⟨fun h => ⟨hitPart_inactive h a .primary, hitPart_inactive h a .mirror⟩, fun st => ?primary, fun st => ?mirror⟩
  case primary =>
    rw [hitPrimary_eq_some, inside_iff_toNat]
    tauto
  case mirror => simp only [hitMirror_eq_some_iff, entryHolds_iff, entryHolds_eq_false_iff]

/-! ### Which lookup takes a read -/

/-- The ports of a word read, in order (43_bus_router_read.md R178). -/
def readPorts : List ReadPort := [.io, .math1, .math2]

/-- A word read asks every primary before any mirror (43_bus_router_read.md R179). -/
theorem readProbes_word : readProbes .word = readPorts.map (·, Part.primary) ++ readPorts.map (·, Part.mirror) := rfl

/-- A byte read asks the IO region alone (43_bus_router_read.md R175). -/
theorem readHit_byte (t : SoftTables) (a : Addr) :
    readHit t .byte a = (hitRegion t.io a).map fun st => (.io, st) := by
  simp only [readHit, readProbes, List.findSome?_cons, List.findSome?_nil, hitPart, readPortRegion, SoftTables.get,
    hitRegion]
  cases hitPrimary t.io a with
  | some st => rfl
  | none => cases hitMirror t.io a <;> rfl

/-- A word read goes to the first of its lookups that hits. -/
theorem readHit_word_of_first {t : SoftTables} {a st : Addr} {before after : List (ReadPort × Part)} {p : ReadPort}
    {part : Part} (horder : readProbes .word = before ++ (p, part) :: after)
    (hbefore : ∀ x ∈ before, hitPart (t.get (readPortRegion x.1)) a x.2 = none)
    (hit : hitPart (t.get (readPortRegion p)) a part = some st) : readHit t .word a = some (p, st) := by
  rw [readHit, horder, List.findSome?_append, List.findSome?_eq_none_iff.mpr, Option.none_or, List.findSome?_cons, hit]
  · rfl
  · exact fun x hx => Option.map_eq_none_iff.mpr (hbefore x hx)

theorem hitRegion_eq_none_iff {x : SoftRegion} {a : Addr} :
    hitRegion x a = none ↔ hitPrimary x a = none ∧ hitMirror x a = none :=
  Option.or_eq_none_iff

/-- A read hits nothing where no port's region does. -/
theorem readHit_of_miss {t : SoftTables} {a : Addr} (h : ∀ p, hitRegion (t.get (readPortRegion p)) a = none)
    (n : Width) : readHit t n a = none := by
  refine List.findSome?_eq_none_iff.mpr fun x _ => Option.map_eq_none_iff.mpr ?_
  obtain ⟨hprimary, hmirror⟩ := hitRegion_eq_none_iff.mp (h x.1)
  cases x.2 with
  | primary => exact hprimary
  | mirror => exact hmirror

/-! ### A read by what takes it -/

theorem readDispatch_io (a st : Addr) (n : Width) (s : State) :
    readDispatch .io a st n s = drawDatum n (readEvent s .io a st n) s := by
  simp only [readDispatch, ioRead, readEvent, bridgeOffset]
  split <;> rfl

theorem readDispatch_word_eq (p : ReadPort) (a st : Addr) (s : State) :
    readDispatch p a st .word s = drawDatum .word (readEvent s p a st .word) s := by
  cases p with
  | io => exact readDispatch_io a st .word s
  | math1 | math2 => rfl

section
variable {ob : State → Datum × State} {k : Kind} {a st : Addr} {s : State}

theorem accessRead_of_flat {e : FlatEntry} (h : flatLookup k a s.flat = some e) (n : Width) :
    accessRead ob k a n s = drawDatum n (.flatAccess k e.backing (a - e.start) n none) s := by
  simp only [accessRead, h]

theorem accessRead_of_no_flat (h : flatLookup k a s.flat = none) (n : Width) :
    accessRead ob k a n s = routeRead ob a n s := by
  simp only [accessRead, h]

theorem routeRead_of_hit {p : ReadPort} {n : Width} (h : readHit s.soft n a = some (p, st)) :
    routeRead ob a n s = readDispatch p a st n s := by
  simp only [routeRead, h]

theorem routeRead_of_miss {n : Width} (h : readHit s.soft n a = none) : routeRead ob a n s = readMiss ob a n s := by
  simp only [routeRead, h]

theorem accessRead_byte_of_hit (hflat : flatLookup k a s.flat = none) (hio : hitRegion s.soft.io a = some st) :
    accessRead ob k a .byte s = drawDatum .byte (readEvent s .io a st .byte) s := by
  have hhit : readHit s.soft .byte a = some (.io, st) := by rw [readHit_byte, hio]; rfl
  rw [accessRead_of_no_flat hflat, routeRead_of_hit hhit, readDispatch_io]

theorem accessRead_byte_of_miss (hflat : flatLookup k a s.flat = none) (hio : hitRegion s.soft.io a = none) :
    accessRead ob k a .byte s = (.byte ((regRead s (selectReg s.cfg.regSel a)).getD 0xFF), s) := by
  have hmiss : readHit s.soft .byte a = none := by rw [readHit_byte, hio]; rfl
  rw [accessRead_of_no_flat hflat, routeRead_of_miss hmiss, readMiss_byte]

theorem accessRead_word_of_hit {p : ReadPort} (hflat : flatLookup k a s.flat = none)
    (hhit : readHit s.soft .word a = some (p, st)) :
    accessRead ob k a .word s = drawDatum .word (readEvent s p a st .word) s := by
  rw [accessRead_of_no_flat hflat, routeRead_of_hit hhit, readDispatch_word_eq]

theorem accessRead_word_of_register {v : Byte} (hflat : flatLookup k a s.flat = none)
    (hmiss : readHit s.soft .word a = none) (hreg : regRead s (selectReg s.cfg.regSel a) = some v) :
    accessRead ob k a .word s = (.word (s.cfg.regWordHi ++ v), s) := by
  rw [accessRead_of_no_flat hflat, routeRead_of_miss hmiss, readMiss_word_some hreg]

theorem accessRead_word_of_open (hflat : flatLookup k a s.flat = none) (hmiss : readHit s.soft .word a = none)
    (hreg : regRead s (selectReg s.cfg.regSel a) = none) : accessRead ob k a .word s = ob s := by
  rw [accessRead_of_no_flat hflat, routeRead_of_miss hmiss, readMiss_word_none hreg]

end

/-! ### The transactions in a built state -/

theorem exec_rdb_of_routed {s : State} (h : s.Routed) (a : Addr) :
    exec (.rdb a) s = readResult (accessRead openBus .R a .byte s) :=
  requireBuilt_eq h

theorem exec_rdw_of_routed {s : State} (h : s.Routed) (a : Addr) :
    exec (.rdw a) s = readResult (accessRead openBus .R a .word s) :=
  requireBuilt_eq h

theorem exec_ftw_of_routed {s : State} (h : s.Routed) (a : Addr) :
    exec (.ftw a) s = readResult (accessRead openBus .F a .word s) :=
  requireBuilt_eq h

theorem exec_openbus_of_routed {s : State} (h : s.Routed) : exec .openbus s = readResult (openBus s) :=
  requireBuilt_eq h

theorem exec_regrd_of_routed {s : State} (h : s.Routed) (o : RegOff) :
    exec (.regrd o) s = .next (s.setQ (.view (regRead s o))) :=
  requireBuilt_eq h

theorem accessWrite_of_flat {s : State} {a : Addr} {e : FlatEntry} (h : flatLookup .W a s.flat = some e) (d : Datum) :
    accessWrite a d s = s.emit (.flatAccess .W e.backing (a - e.start) (datumWidth d) (some d)) := by
  simp only [accessWrite, h]

/-- Settles O30: the flat lookup is asked first, so its entry takes the access whatever the regions hold. -/
theorem flatMappingServesAccess : Obligations.FlatMappingServesAccess := by
  intro s a e h
  refine ⟨fun hflat => ⟨?rdb, ?rdw⟩, fun hflat => ?ftw, fun hflat d w => ⟨?wrb, ?wrw⟩⟩
  case rdb => rw [exec_rdb_of_routed h, accessRead_of_flat hflat]; rfl
  case rdw => rw [exec_rdw_of_routed h, accessRead_of_flat hflat]; rfl
  case ftw => rw [exec_ftw_of_routed h, accessRead_of_flat hflat]; rfl
  case wrb => rw [BusRouterWrite.exec_wrb_of_routed h, accessWrite_of_flat hflat]; rfl
  case wrw => rw [BusRouterWrite.exec_wrw_of_routed h, accessWrite_of_flat hflat]; rfl

/-- Settles O31: a byte read asks the IO region, and falls to the register file. -/
theorem byteReadRoutes : Obligations.ByteReadRoutes := by
  intro s a h hflat
  refine ⟨fun st hio => ?hit, fun hio => ?miss⟩
  case hit => rw [exec_rdb_of_routed h, accessRead_byte_of_hit hflat hio]; rfl
  case miss =>
    rw [exec_rdb_of_routed h, accessRead_byte_of_miss hflat hio]
    cases regRead s (selectReg s.cfg.regSel a) <;> rfl

/-- Settles O32: the search stops at the first lookup that hits, and that port's bridge is drawn from once. -/
theorem wordReadRoutesInOrder : Obligations.WordReadRoutesInOrder := by
  intro s a before after p part st h horder hbefore hit
  have hhit : readHit s.soft .word a = some (p, st) := readHit_word_of_first horder hbefore hit
  refine ⟨fun hflat => ?rdw, fun hflat => ?ftw⟩
  case rdw => rw [exec_rdw_of_routed h, accessRead_word_of_hit hflat hhit]; rfl
  case ftw => rw [exec_ftw_of_routed h, accessRead_word_of_hit hflat hhit]; rfl

/-- The word of a register read: two bytes side by side (45_register_commands.md R234). -/
theorem append_eq_shiftLeft_or (hi lo : Byte) : (hi ++ lo : Word) = (hi.setWidth 16 <<< 8) ||| lo.setWidth 16 := by
  apply BitVec.eq_of_toNat_eq
  have := hi.isLt
  rw [BitVec.toNat_append, BitVec.toNat_or, BitVec.toNat_shiftLeft, BitVec.toNat_setWidth, BitVec.toNat_setWidth,
    Nat.mod_eq_of_lt (by omega : hi.toNat < 2 ^ 16), Nat.mod_eq_of_lt (by omega : lo.toNat < 2 ^ 16),
    Nat.mod_eq_of_lt (by rw [Nat.shiftLeft_eq]; omega)]

/-- Settles O33: with every region missed a word read is a register's word or the open-bus read itself. -/
theorem wordReadMissFallsThrough : Obligations.WordReadMissFallsThrough := by
  intro s a h hregions i hi
  have hmiss := readHit_of_miss hregions .word
  obtain ⟨k, hflat, hexec⟩ : ∃ k, flatLookup k a s.flat = none ∧
      exec i s = readResult (accessRead openBus k a .word s) := by
    rcases hi with ⟨rfl, hflat⟩ | ⟨rfl, hflat⟩
    · exact ⟨.R, hflat, exec_rdw_of_routed h a⟩
    · exact ⟨.F, hflat, exec_ftw_of_routed h a⟩
  refine ⟨fun v hreg => ?register, fun hreg => ⟨?opens, _, hexec⟩⟩
  case register => rw [hexec, accessRead_word_of_register hflat hmiss hreg, append_eq_shiftLeft_or]; rfl
  case opens => rw [hexec, accessRead_word_of_open hflat hmiss hreg, exec_openbus_of_routed h]

/-! ### The open-bus read -/

/-- The state of the nested read: the `PcQuery` drawn and the guard set (43_bus_router_read.md R186). -/
def queried (s : State) : State := (s.setGuard true).drawn .pcQuery

/-- OPENBUS with the guard clear, over that state. -/
theorem openBus_eq_queried {s : State} (h : s.guard = false) :
    openBus s =
      ((accessRead reenteredOpenBus .R s.answer .word (queried s)).1,
       (accessRead reenteredOpenBus .R s.answer .word (queried s)).2.setGuard false) :=
  openBus_of_clear h

theorem routed_queried {s : State} (h : s.Routed) : (queried s).Routed := h

/-- Settles O34: under the guard the nested read's own open-bus read is the sentinel, which is what RDW finds there. -/
theorem openBusIsNestedWordRead : Obligations.OpenBusIsNestedWordRead := by
  intro s h hguard
  have hnested : accessRead openBus .R s.answer .word (queried s) =
      accessRead reenteredOpenBus .R s.answer .word (queried s) :=
    accessRead_congr (openBus_of_set rfl) .R s.answer .word
  refine ⟨_, exec_rdw_of_routed (routed_queried h) s.answer, ?_⟩
  rw [exec_openbus_of_routed h, openBus_eq_queried hguard, hnested]
  rfl

/-- A read that nothing answers gives the sentinel after the one query (43_bus_router_read.md R187). -/
theorem openBus_of_nothing {s : State} (hguard : s.guard = false) (hflat : flatLookup .R s.answer s.flat = none)
    (hregions : ∀ p, hitRegion (s.soft.get (readPortRegion p)) s.answer = none)
    (hreg : regRead s (selectReg s.cfg.regSel s.answer) = none) :
    openBus s = (.word 0xFFFF, (queried s).setGuard false) := by
  have hopen : accessRead reenteredOpenBus .R s.answer .word (queried s) = (.word 0xFFFF, queried s) :=
    accessRead_word_of_open (s := queried s) hflat (readHit_of_miss hregions .word) hreg
  rw [openBus_eq_queried hguard, hopen]

/-! ### A read is at most two draws -/

/-- The state after drawing the answers of a list of events. -/
def drawnAll (es : List Event) (s : State) : State :=
  { s with out := s.out ++ es, answers := s.answers.drop es.length, draws := s.draws + es.length }

theorem drawnAll_nil (s : State) : drawnAll [] s = s := by simp [drawnAll]

theorem drawn_eq_drawnAll (s : State) (e : Event) : s.drawn e = drawnAll [e] s := by
  simp [drawnAll, State.drawn]

theorem drawn_drawn_eq_drawnAll (s : State) (e e' : Event) : (s.drawn e).drawn e' = drawnAll [e, e'] s := by
  have htail : s.answers.tail.tail = s.answers.drop 2 := by rw [← List.drop_one, ← List.drop_one, List.drop_drop]
  simp [drawnAll, State.drawn, htail]

/-- The reads a buffer or a bridge answers (00_scope.md R9). -/
def IsDeviceRead : Event → Prop
  | .flatAccess _ _ _ _ none => True
  | .ioRead _ _ _ => True
  | .ioHookRead _ _ _ => True
  | .mathRead _ _ => True
  | _ => False

theorem isDeviceRead_readEvent (s : State) (p : ReadPort) (a st : Addr) (n : Width) :
    IsDeviceRead (readEvent s p a st n) := by
  cases p with
  | io => simp only [readEvent]; split <;> trivial
  | math1 | math2 => trivial

/-- All that a read can be: one draw from a device, a register or 0xFF, or, for a word, the open-bus read. -/
theorem accessRead_cases (ob : State → Datum × State) (k : Kind) (a : Addr) (n : Width) (s : State) :
    (∃ e, IsDeviceRead e ∧ accessRead ob k a n s = drawDatum n e s) ∨
    (∃ d, datumWidth d = n ∧ accessRead ob k a n s = (d, s)) ∨
    (n = .word ∧ accessRead ob k a n s = ob s) := by
  cases hflat : flatLookup k a s.flat with
  | some e =>
    have hdevice : IsDeviceRead (.flatAccess k e.backing (a - e.start) n none) := trivial
    exact .inl ⟨_, hdevice, accessRead_of_flat hflat n⟩
  | none =>
    cases n with
    | byte =>
      cases hio : hitRegion s.soft.io a with
      | some st => exact .inl ⟨_, isDeviceRead_readEvent .., accessRead_byte_of_hit hflat hio⟩
      | none => exact .inr (.inl ⟨_, rfl, accessRead_byte_of_miss hflat hio⟩)
    | word =>
      cases hhit : readHit s.soft .word a with
      | some p => exact .inl ⟨_, isDeviceRead_readEvent .., accessRead_word_of_hit hflat hhit⟩
      | none =>
        cases hreg : regRead s (selectReg s.cfg.regSel a) with
        | some v => exact .inr (.inl ⟨_, rfl, accessRead_word_of_register hflat hhit hreg⟩)
        | none => exact .inr (.inr ⟨rfl, accessRead_word_of_open hflat hhit hreg⟩)

/-- The events a read can emit: a device's, and before it the one query (43_bus_router_read.md R186, R187). -/
inductive ReadTrace : List Event → Prop where
  | silent : ReadTrace []
  | device {e : Event} (h : IsDeviceRead e) : ReadTrace [e]
  | query : ReadTrace [.pcQuery]
  | queryDevice {e : Event} (h : IsDeviceRead e) : ReadTrace [.pcQuery, e]

theorem ReadTrace.length_le {es : List Event} (h : ReadTrace es) : es.length ≤ 2 := by
  cases h <;> simp

theorem not_pcQuery_of_isDeviceRead {e : Event} (h : IsDeviceRead e) : e ≠ .pcQuery := by
  rintro rfl; exact h

theorem ReadTrace.count_pcQuery_le {es : List Event} (h : ReadTrace es) : es.count .pcQuery ≤ 1 := by
  cases h with
  | silent => simp
  | device h => simp [not_pcQuery_of_isDeviceRead h]
  | query => simp
  | queryDevice h => simp [not_pcQuery_of_isDeviceRead h]

theorem ReadTrace.mem {es : List Event} (h : ReadTrace es) {e : Event} (he : e ∈ es) :
    IsDeviceRead e ∨ e = .pcQuery := by
  cases h with
  | silent => cases he
  | device h => obtain rfl := List.mem_singleton.mp he; exact .inl h
  | query => exact .inr (List.mem_singleton.mp he)
  | queryDevice h =>
    rcases List.mem_cons.mp he with rfl | he
    · exact .inr rfl
    · obtain rfl := List.mem_singleton.mp he; exact .inl h

/-- `r` is a read's answer: a datum of the width asked for, and the state after the read's draws. -/
def IsReadOf (n : Width) (s : State) (r : Datum × State) : Prop :=
  datumWidth r.1 = n ∧ ∃ es, ReadTrace es ∧ r.2 = drawnAll es s

theorem isReadOf_drawDatum (n : Width) {e : Event} (he : IsDeviceRead e) (s : State) :
    IsReadOf n s (drawDatum n e s) :=
  ⟨datumWidth_datumOf n s.answer, [e], .device he, drawn_eq_drawnAll s e⟩

theorem isReadOf_still {n : Width} {d : Datum} (hd : datumWidth d = n) (s : State) : IsReadOf n s (d, s) :=
  ⟨hd, [], .silent, (drawnAll_nil s).symm⟩

/-- The query and the nested read, with the guard clear again. -/
theorem queried_setGuard {s : State} (h : s.guard = false) : (queried s).setGuard false = s.drawn .pcQuery := by
  cases s; cases h; rfl

theorem queried_drawn_setGuard {s : State} (h : s.guard = false) (e : Event) :
    ((queried s).drawn e).setGuard false = (s.drawn .pcQuery).drawn e := by
  cases s; cases h; rfl

theorem isReadOf_openBus (s : State) : IsReadOf .word s (openBus s) := by
  cases hguard : s.guard with
  | true => rw [openBus_of_set hguard]; exact isReadOf_still rfl s
  | false =>
    have hquery : (queried s).setGuard false = drawnAll [.pcQuery] s :=
      (queried_setGuard hguard).trans (drawn_eq_drawnAll s _)
    rw [openBus_eq_queried hguard]
    rcases accessRead_cases reenteredOpenBus .R s.answer .word (queried s) with
      ⟨e, he, h⟩ | ⟨d, hd, h⟩ | ⟨-, h⟩ <;> rw [h]
    · refine ⟨rfl, [.pcQuery, e], .queryDevice he, ?_⟩
      exact (queried_drawn_setGuard hguard e).trans (drawn_drawn_eq_drawnAll s _ e)
    · exact ⟨hd, [.pcQuery], .query, hquery⟩
    · exact ⟨rfl, [.pcQuery], .query, hquery⟩

theorem isReadOf_accessRead (k : Kind) (a : Addr) (n : Width) (s : State) :
    IsReadOf n s (accessRead openBus k a n s) := by
  rcases accessRead_cases openBus k a n s with ⟨e, he, h⟩ | ⟨d, hd, h⟩ | ⟨rfl, h⟩ <;> rw [h]
  · exact isReadOf_drawDatum n he s
  · exact isReadOf_still hd s
  · exact isReadOf_openBus s

/-- The operations that are reads answering a datum, and its width. -/
def readWidth : Instr → Option Width
  | .rdb _ => some .byte
  | .rdw _ => some .word
  | .ftw _ => some .word
  | .openbus => some .word
  | _ => none

/-- All that a completed read leaves: its draws, and its datum on the result port. -/
theorem exec_read_next {i : Instr} {n : Width} (hi : readWidth i = some n) {s t : State} (h : exec i s = .next t) :
    ∃ es d, ReadTrace es ∧ datumWidth d = n ∧ t = (drawnAll es s).setQ (.data d) := by
  obtain ⟨r, hread, hnext⟩ : ∃ r, IsReadOf n s r ∧ readResult r = .next t := by
    cases i with
    | rdb a => cases hi; exact ⟨_, isReadOf_accessRead .R a .byte s, (requireBuilt_next h).2⟩
    | rdw a => cases hi; exact ⟨_, isReadOf_accessRead .R a .word s, (requireBuilt_next h).2⟩
    | ftw a => cases hi; exact ⟨_, isReadOf_accessRead .F a .word s, (requireBuilt_next h).2⟩
    | openbus => cases hi; exact ⟨_, isReadOf_openBus s, (requireBuilt_next h).2⟩
    | _ => cases hi
  obtain ⟨hwidth, es, htrace, hstate⟩ := hread
  refine ⟨es, r.1, htrace, hwidth, ?_⟩
  rw [← hstate]
  exact (Host.Outcome.next.inj hnext).symm

/-- Settles O35: the guard turns the open-bus read into the sentinel, and a read's trace has room for one query. -/
theorem reenteredOpenBusIsAllOnes : Obligations.ReenteredOpenBusIsAllOnes := by
  refine ⟨fun s h hguard => ?reentered, fun s h hguard hflat hregions hreg => ?nothing, fun s t h => ?bound⟩
  case reentered => rw [exec_openbus_of_routed h, openBus_of_set hguard]; rfl
  case nothing =>
    rw [exec_openbus_of_routed h, openBus_of_nothing hguard hflat hregions hreg, queried_setGuard hguard]
    rfl
  case bound =>
    obtain ⟨es, d, htrace, -, rfl⟩ := exec_read_next rfl h
    exact ⟨es, rfl, htrace.length_le, htrace.count_pcQuery_le⟩

/-- Settles O36: a read is its draws and its datum, and draws write the trace and the oracle's place alone. -/
theorem readsChangeNoDecoderState : Obligations.ReadsChangeNoDecoderState := by
  refine ⟨fun i s t hi hwrb hwrw h => ?reads, fun s t o h => ?regrd⟩
  case reads =>
    obtain ⟨n, hwidth, hmatch⟩ : ∃ n, readWidth i = some n ∧ n = match i with | .rdb _ => .byte | _ => .word := by
      cases i with
      | rdb | rdw | ftw | openbus => exact ⟨_, rfl, rfl⟩
      | wrb a d => exact absurd rfl (hwrb a d)
      | wrw a d => exact absurd rfl (hwrw a d)
      | _ => rcases hi with hi | hi <;> cases hi
    obtain ⟨es, d, htrace, hd, rfl⟩ := exec_read_next hwidth h
    exact ⟨rfl, Nat.add_le_add_left htrace.length_le _, d, rfl, (hd.trans hmatch).trans (by cases i <;> rfl)⟩
  case regrd =>
    obtain ⟨-, hnext⟩ := requireBuilt_next h
    cases hnext
    rfl

/-! ### Register reads -/

theorem referenceView_getElem (o : RegOff) :
    referenceView[o.toFin] =
      if o = 0x00 then some (.stored 0x00) else if o = 0x01 then some (.stored 0x01)
      else if o = 0x02 then some (.ifField 0x02 0x03 0x03 (.const 0x00) (.const 0x0F)) else none := by
  revert o; decide

/-- The mode bits, masked or cut out. -/
theorem and_three_eq_iff (v : Byte) : v &&& 0x03 = 0x03 ↔ v.extractLsb' 0 2 = 3#2 := by
  revert v; decide

theorem regRead_of_referenceView {s : State} (h : s.cfg.regReadView = REFCFG.regReadView) (o : RegOff) :
    regRead s o =
      if o = 0x00 then some (s.reg 0x00) else if o = 0x01 then some (s.reg 0x01)
      else if o = 0x02 then some (if (s.reg 0x02).extractLsb' 0 2 = 3#2 then 0x00 else 0x0F) else none := by
  have hview : s.cfg.readView o = referenceView[o.toFin] := by rw [Config.readView, h]; rfl
  rw [regRead, hview, referenceView_getElem]
  split_ifs with h0 h1 h2 h3
  · rfl
  · rfl
  · exact congrArg some (if_pos ((and_three_eq_iff _).mpr h3))
  · exact congrArg some (if_neg (mt (and_three_eq_iff _).mp h3))
  · rfl

/-- Settles O46: REGRD is the register read, and the reference view recognises three offsets. -/
theorem registerReadFollowsView : Obligations.RegisterReadFollowsView := by
  refine ⟨fun s o h => exec_regrd_of_routed h o, fun s o h hview => ?_⟩
  rw [exec_regrd_of_routed h, regRead_of_referenceView hview]
  rfl

/-! ### Nothing mapped -/

theorem hitRegion_emptyRegion (a : Addr) : hitRegion emptyRegion a = none := by
  rw [hitRegion_eq_none_iff]
  exact ⟨hitPart_inactive rfl a .primary, hitPart_inactive rfl a .mirror⟩

/-- Settles O23: the clearing is the whole recompute, and in what it leaves every lookup misses. -/
theorem unsupportedProfileMapsNothing : Obligations.UnsupportedProfileMapsNothing := by
  intro s h htable
  have hcleared : Recompute.recomputed s = s.cleared.setQ .none := by
    rw [Recompute.recomputed, Recompute.recompute_of_no_table htable]
  refine ⟨s.cleared.setQ .none, hcleared ▸ Recompute.exec_recompute_eq h, rfl, fun r => emptyTables_get r, rfl, rfl,
    fun a d w => ?accesses⟩
  case accesses =>
    generalize ht : s.cleared.setQ .none = t
    have hrouted : t.Routed := by subst ht; exact ⟨h.1, h.2, rfl⟩
    have hflat (k : Kind) : flatLookup k a t.flat = none := by subst ht; rfl
    have hregions (r : SoftId) : hitRegion (t.soft.get r) a = none := by
      subst ht
      rw [setQ_soft, cleared_soft, emptyTables_get, hitRegion_emptyRegion]
    have hmiss := readHit_of_miss (fun p => hregions (readPortRegion p)) .word
    obtain ⟨hwrb, hwrw, -, -⟩ := BusRouterWrite.unroutedWriteIsRegisterCommand t a hrouted (hflat .W) hregions d w
    refine ⟨?rdb, fun v hreg => ⟨?rdw, ?ftw⟩, fun hreg => ⟨?rdwOpen, ?ftwOpen⟩, hwrb, hwrw⟩
    case rdb => rw [exec_rdb_of_routed hrouted, accessRead_byte_of_miss (hflat .R) (hregions .io)]; rfl
    case rdw => rw [exec_rdw_of_routed hrouted, accessRead_word_of_register (hflat .R) hmiss hreg]; rfl
    case ftw => rw [exec_ftw_of_routed hrouted, accessRead_word_of_register (hflat .F) hmiss hreg]; rfl
    case rdwOpen =>
      rw [exec_rdw_of_routed hrouted, accessRead_word_of_open (hflat .R) hmiss hreg, exec_openbus_of_routed hrouted]
    case ftwOpen =>
      rw [exec_ftw_of_routed hrouted, accessRead_word_of_open (hflat .F) hmiss hreg, exec_openbus_of_routed hrouted]

/-! ### A mirror behaves as its primary -/

/-- The offset from the start of the range that matched (46_device_bridges.md R240). -/
theorem add_sub_add_cancel (a st o : Addr) : (a + o) - (st + o) = a - st := by
  rw [BitVec.sub_eq_iff_eq_add]
  rw [← BitVec.add_assoc, BitVec.sub_add_cancel]

theorem readEvent_alias {s : State} {p : ReadPort} (hook : p = .io → s.hookR = false) (a st o : Addr) (n : Width) :
    readEvent s p (a + o) (st + o) n = readEvent s p a st n := by
  cases p with
  | io => simp only [readEvent, hook rfl, add_sub_add_cancel, Bool.false_eq_true, if_false]
  | math1 | math2 => simp only [readEvent, add_sub_add_cancel]

theorem writeEvent_alias {s : State} {r : SoftId} (hook : r = .io → s.hookW = false) (a st o : Addr) (d : Datum) :
    writeEvent s r (a + o) (st + o) d = writeEvent s r a st d := by
  cases r with
  | io => simp only [writeEvent, hook rfl, add_sub_add_cancel, Bool.false_eq_true, if_false]
  | _ => simp only [writeEvent, add_sub_add_cancel]

theorem hitRegion_of_primary {x : SoftRegion} {a st : Addr} (h : hitPrimary x a = some st) :
    hitRegion x a = some st := by
  rw [hitRegion, h, Option.some_or]

theorem hitRegion_of_mirror {x : SoftRegion} {a st : Addr} (hp : hitPrimary x a = none) (h : hitMirror x a = some st) :
    hitRegion x a = some st := by
  rw [hitRegion, hp, h, Option.none_or]

/-- A word read hits a primary before which no primary hits. -/
theorem readHit_word_of_primary {t : SoftTables} {a st : Addr} {before after : List ReadPort} {p : ReadPort}
    (horder : readPorts = before ++ p :: after)
    (hbefore : ∀ p' ∈ before, hitPrimary (t.get (readPortRegion p')) a = none)
    (hit : hitPrimary (t.get (readPortRegion p)) a = some st) : readHit t .word a = some (p, st) := by
  refine readHit_word_of_first (before := before.map (·, Part.primary))
    (after := after.map (·, Part.primary) ++ readPorts.map (·, Part.mirror)) (part := .primary) ?_ ?_ hit
  · rw [readProbes_word]
    conv_lhs => arg 1; rw [horder]
    simp
  · rintro x hx
    obtain ⟨p', hp', rfl⟩ := List.mem_map.mp hx
    exact hbefore p' hp'

/-- A word read hits a mirror before which no mirror hits, where every primary misses. -/
theorem readHit_word_of_mirror {t : SoftTables} {a st : Addr} {before after : List ReadPort} {p : ReadPort}
    (horder : readPorts = before ++ p :: after) (hprimary : ∀ p', hitPrimary (t.get (readPortRegion p')) a = none)
    (hbefore : ∀ p' ∈ before, hitMirror (t.get (readPortRegion p')) a = none)
    (hit : hitMirror (t.get (readPortRegion p)) a = some st) : readHit t .word a = some (p, st) := by
  refine readHit_word_of_first (before := readPorts.map (·, Part.primary) ++ before.map (·, Part.mirror))
    (after := after.map (·, Part.mirror)) (part := .mirror) ?_ ?_ hit
  · rw [readProbes_word]
    conv_lhs => arg 2; rw [horder]
    simp
  · rintro x hx
    rcases List.mem_append.mp hx with hx | hx
    · obtain ⟨p', -, rfl⟩ := List.mem_map.mp hx
      exact hprimary p'
    · obtain ⟨p', hp', rfl⟩ := List.mem_map.mp hx
      exact hbefore p' hp'

theorem accessWrite_alias {s : State} {r : SoftId} {a o st : Addr} (hook : r = .io → s.hookW = false)
    (hflat : flatLookup .W a s.flat = none) (hflat' : flatLookup .W (a + o) s.flat = none)
    (hhit : writeHit s.soft a = some (r, st)) (hhit' : writeHit s.soft (a + o) = some (r, st + o)) (d : Datum) :
    accessWrite a d s = accessWrite (a + o) d s := by
  rw [BusRouterWrite.accessWrite_of_hit hflat hhit, BusRouterWrite.accessWrite_of_hit hflat' hhit',
    writeEvent_alias hook]

/-- Settles O39: both addresses go to the same bridge, at the same offset from the range that matched. -/
theorem aliasBehavesAsPrimary : Obligations.AliasBehavesAsPrimary := by
  refine ⟨?byte, ?word, ?write⟩
  case byte =>
    intro s a o st h hook hflat hflat' hit hmiss hit'
    refine ⟨?_, _, exec_rdb_of_routed h a⟩
    rw [exec_rdb_of_routed h, exec_rdb_of_routed h, accessRead_byte_of_hit hflat (hitRegion_of_primary hit),
      accessRead_byte_of_hit hflat' (hitRegion_of_mirror hmiss hit'), readEvent_alias fun _ => hook]
  case word =>
    intro s a o st before after p h hook horder hbefore hprimary hit hit'
    have hhit := readHit_word_of_primary horder (fun p' hp' => (hbefore p' hp').1) hit
    have hhit' := readHit_word_of_mirror horder hprimary (fun p' hp' => (hbefore p' hp').2) hit'
    have halias (k : Kind) (hflat : flatLookup k a s.flat = none) (hflat' : flatLookup k (a + o) s.flat = none) :
        accessRead openBus k a .word s = accessRead openBus k (a + o) .word s := by
      rw [accessRead_word_of_hit hflat hhit, accessRead_word_of_hit hflat' hhit', readEvent_alias hook]
    refine ⟨fun hflat hflat' => ⟨?_, _, exec_rdw_of_routed h a⟩, fun hflat hflat' => ⟨?_, _, exec_ftw_of_routed h a⟩⟩
    · rw [exec_rdw_of_routed h, exec_rdw_of_routed h, halias .R hflat hflat']
    · rw [exec_ftw_of_routed h, exec_ftw_of_routed h, halias .F hflat hflat']
  case write =>
    intro s a o st before after r h hook hflat hflat' horder hbefore hit hmiss hit' d w
    have hhit : writeHit s.soft a = some (r, st) := BusRouterWrite.writeHit_eq_some_iff.mpr
      ⟨before, after, horder, hitRegion_of_primary hit, fun r' hr' => (hbefore r' hr').1⟩
    have hhit' : writeHit s.soft (a + o) = some (r, st + o) := BusRouterWrite.writeHit_eq_some_iff.mpr
      ⟨before, after, horder, hitRegion_of_mirror hmiss hit', fun r' hr' => (hbefore r' hr').2⟩
    refine ⟨?_, ?_, ⟨_, BusRouterWrite.exec_wrb_of_routed h a d⟩, _, BusRouterWrite.exec_wrw_of_routed h a w⟩
    · rw [BusRouterWrite.exec_wrb_of_routed h, BusRouterWrite.exec_wrb_of_routed h,
        accessWrite_alias hook hflat hflat' hhit hhit']
    · rw [BusRouterWrite.exec_wrw_of_routed h, BusRouterWrite.exec_wrw_of_routed h,
        accessWrite_alias hook hflat hflat' hhit hhit']

end Sys2Proof.Proofs.BusRouterRead
end

