-- ==== Sys2Proof/Proofs/Operations.lean ====
section
/-! PROOFS. What every operation keeps (spec/00_scope.md R9, R10, spec/10_state.md R24, R33, spec/60_exceptions.md R283 to
R285, spec/45_register_commands.md R220): the parameters, the growing trace, the register file outside its writers, and the
interrupt lines and machine resets read off the trace. -/

namespace Sys2Proof.Proofs.Operations

open Sys2Proof Sys2Proof.Machine Sys2Proof.Proofs.BusRouterRead Sys2Proof.Proofs.Recompute

/-! ### The operations that write -/

/-- The state a bus write or a register command leaves before the result port is emptied; other operations are set
aside. -/
def writeResult (i : Instr) (s : State) : State :=
  match i with
  | .wrb a d => accessWrite a (.byte d) s
  | .wrw a w => accessWrite a (.word w) s
  | .regwrDesc j v => descEffect (s.reg (descOffset j)) v (s.setReg (descOffset j) v)
  | .regwrMode v => modeEffect (s.reg s.cfg.regMode) v (s.setReg s.cfg.regMode v)
  | .regwrSndlatch v => sndlatchEffect v (s.setReg s.cfg.regSndlatch v)
  | .regwrIrq v => irqEffect v (s.setReg s.cfg.regIrq v)
  | .regwrDma v => dmaEffect v (s.setReg s.cfg.regDma v)
  | .regwrPlain o v => s.setReg (lowOffset o) v
  | _ => s

/-- The bus writes and the register commands. -/
def IsWrite : Instr → Prop
  | .wrb _ _ => True
  | .wrw _ _ => True
  | .regwrDesc _ _ => True
  | .regwrMode _ => True
  | .regwrSndlatch _ => True
  | .regwrIrq _ => True
  | .regwrDma _ => True
  | .regwrPlain _ _ => True
  | _ => False

theorem eq_writeResult_of_exec_next {i : Instr} (hi : IsWrite i) {s t : State} (h : exec i s = .next t) :
    t = (writeResult i s).setQ .none := by
  cases i with
  | wrb | wrw | regwrDesc | regwrMode | regwrSndlatch | regwrIrq | regwrDma | regwrPlain =>
    exact (Host.Outcome.next.inj (requireBuilt_next h).2).symm
  | _ => cases hi

theorem writeFrame_writeResult {i : Instr} (hi : IsWrite i) (s : State) : WriteFrame s (writeResult i s) := by
  have hstore := writeFrame_setReg s
  cases i with
  | wrb a d => exact writeFrame_accessWrite a (.byte d) s
  | wrw a w => exact writeFrame_accessWrite a (.word w) s
  | regwrDesc j v => exact (hstore _ v).trans (Lifecycle.writeFrame_descEffect _ v _)
  | regwrMode v => exact (hstore _ v).trans (Lifecycle.writeFrame_modeEffect _ v _)
  | regwrSndlatch v => exact (hstore _ v).trans (Lifecycle.writeFrame_sndlatchEffect v _)
  | regwrIrq v => exact (hstore _ v).trans (Lifecycle.writeFrame_irqEffect v _)
  | regwrDma v => exact hstore _ v
  | regwrPlain o v => exact hstore _ v
  | _ => cases hi

/-! ### The operations that only compute or rebuild -/

/-- The operations that write the mapping and the result port at most: REGRD and the internal procedures but OPENBUS. -/
def IsMapping : Instr → Prop
  | .regrd _ => True
  | .compute _ _ _ _ => True
  | .expandI _ _ _ => True
  | .expandR _ _ => True
  | .recompute => True
  | _ => False

theorem mapFrame_of_exec_next {i : Instr} (hi : IsMapping i) {s t : State} (h : exec i s = .next t) :
    ∃ u q, MapFrame s u ∧ t = u.setQ q := by
  cases i with
  | regrd o => exact ⟨s, _, .refl s, (Host.Outcome.next.inj (requireBuilt_next h).2).symm⟩
  | compute slot l m o =>
    obtain ⟨-, hbody⟩ := requireLive_next h
    split at hbody
    · exact ⟨s, _, .refl s, (Host.Outcome.next.inj hbody).symm⟩
    · cases hbody
  | expandI c b k =>
    rw [Lifecycle.eq_of_requireLive_next h, expandInstalling_eq]
    exact ⟨_, _, mapFrame_addFlat s _, rfl⟩
  | expandR c r => exact ⟨_, _, expandRecording_frame c r s, Lifecycle.eq_of_requireLive_next h⟩
  | recompute => exact ⟨_, _, recompute_frame s, Lifecycle.eq_of_requireLive_next h⟩
  | _ => cases hi

/-- Every operation that completes is one of four kinds. -/
theorem kind_of_exec_next {i : Instr} {s t : State} (h : exec i s = .next t) :
    (∃ n, readWidth i = some n) ∨ IsWrite i ∨ i.opClass = .host ∨ IsMapping i := by
  cases i with
  | rdb | rdw | ftw | openbus => exact .inl ⟨_, rfl⟩
  | wrb | wrw | regwrDesc | regwrMode | regwrSndlatch | regwrIrq | regwrDma | regwrPlain => exact .inr (.inl trivial)
  | init | exit | rst | cfg | sethook | save | restore => exact .inr (.inr (.inl rfl))
  | regrd | compute | expandI | expandR | recompute => exact .inr (.inr (.inr trivial))
  | reserved5 | reserved6 | reserved7 | reservedF => cases h

/-! ### Parameters, stimuli, trace and oracle -/

/-- What every operation keeps of the parameters, the queue, the trace and the oracle (00_scope.md R9, R10). -/
structure OutsideFrame (s t : State) : Prop where
  cfg : t.cfg = s.cfg
  pending : t.pending = s.pending
  out : s.out <+: t.out
  draws : s.draws ≤ t.draws
  answers : t.answers = s.answers.drop (t.draws - s.draws)

/-- No draw uses up no answer. -/
theorem outsideFrame_of_no_draw {s t : State} (hcfg : t.cfg = s.cfg) (hpending : t.pending = s.pending)
    (hout : s.out <+: t.out) (hanswers : t.answers = s.answers) (hdraws : t.draws = s.draws) : OutsideFrame s t :=
  ⟨hcfg, hpending, hout, hdraws.ge, by rw [hanswers, hdraws, Nat.sub_self, List.drop_zero]⟩

theorem outsideFrame_drawnAll (es : List Event) (s : State) (q : QPort) : OutsideFrame s ((drawnAll es s).setQ q) :=
  ⟨rfl, rfl, List.prefix_append _ _, Nat.le_add_right _ _, by simp [drawnAll]⟩

theorem afterRst_outside (s : State) :
    (Lifecycle.afterRst s).cfg = s.cfg ∧ (Lifecycle.afterRst s).pending = s.pending := by
  simp [Lifecycle.afterRst, Lifecycle.loaded]

theorem afterCfg_outside (block : Block) (s : State) :
    (MappingManager.afterCfg block s).cfg = s.cfg ∧ (MappingManager.afterCfg block s).pending = s.pending := by
  simp [MappingManager.afterCfg]

theorem afterRestore_outside (snap : Snapshot) (s : State) :
    (Lifecycle.afterRestore snap s).cfg = s.cfg ∧ (Lifecycle.afterRestore snap s).pending = s.pending := by
  simp [Lifecycle.afterRestore, Lifecycle.loaded]

theorem hostResult_outside {i : Instr} (hi : i.opClass = .host) (s : State) :
    (Lifecycle.hostResult i s).cfg = s.cfg ∧ (Lifecycle.hostResult i s).pending = s.pending := by
  cases i with
  | rst => exact afterRst_outside s
  | cfg block => exact afterCfg_outside block s
  | restore snap => exact afterRestore_outside snap s
  | init | exit | sethook | save => exact ⟨rfl, rfl⟩
  | _ => cases hi

/-- Settles O57: a read is a list of draws, a write draws nothing, and the host and the mapping leave the trace. -/
theorem parametersFixedAndTraceGrows : Obligations.ParametersFixedAndTraceGrows := by
  intro i s t h
  obtain ⟨hcfg, hpending, hout, hdraws, hanswers⟩ : OutsideFrame s t := by
    rcases kind_of_exec_next h with ⟨n, hread⟩ | hwrite | hhost | hmapping
    · obtain ⟨es, d, -, -, rfl⟩ := exec_read_next hread h
      exact outsideFrame_drawnAll es s _
    · rw [eq_writeResult_of_exec_next hwrite h]
      have hframe := writeFrame_writeResult hwrite s
      exact outsideFrame_of_no_draw hframe.cfg hframe.pending hframe.out hframe.answers hframe.draws
    · obtain ⟨hcfg, hpending⟩ := hostResult_outside hhost s
      obtain ⟨hout, hanswers, hdraws⟩ := Lifecycle.hostResult_silent hhost s
      rw [Lifecycle.eq_hostResult_of_exec_next hhost h]
      exact outsideFrame_of_no_draw hcfg hpending (hout.symm ▸ List.prefix_rfl) hanswers hdraws
    · obtain ⟨u, q, hframe, rfl⟩ := mapFrame_of_exec_next hmapping h
      obtain ⟨hcfg, -, -, -, -, -, hout, -, hpending, hanswers, hdraws⟩ := hframe.fields
      exact outsideFrame_of_no_draw hcfg hpending (hout.symm ▸ List.prefix_rfl) hanswers hdraws
  exact ⟨hcfg, hpending, hout, hdraws, hanswers⟩

/-! ### The register file -/

/-- Settles O48: reads and mapping operations leave the registers, and every other writer is on the list. -/
theorem onlyListedOperationsWriteRegisters : Obligations.OnlyListedOperationsWriteRegisters := by
  intro i s t h hregs
  have hread (n : Width) : readWidth i ≠ some n := by
    intro hi
    obtain ⟨es, d, -, -, rfl⟩ := exec_read_next hi h
    exact hregs rfl
  have hmapping : ¬IsMapping i := by
    intro hi
    obtain ⟨u, q, hframe, rfl⟩ := mapFrame_of_exec_next hi h
    obtain ⟨-, hkept, -⟩ := hframe.fields
    exact hregs hkept
  cases i with
  | rdb | rdw | ftw | openbus => exact absurd rfl (hread _)
  | regrd | compute | expandI | expandR | recompute => exact absurd trivial hmapping
  | reserved5 | reserved6 | reserved7 | reservedF => cases h
  | sethook r w =>
    rw [Lifecycle.eq_of_requireLive_next h] at hregs
    exact absurd rfl hregs
  | save =>
    rw [Lifecycle.eq_of_requireLive_next h] at hregs
    exact absurd rfl hregs
  | wrb | wrw | cfg | rst | init | exit | restore | regwrDesc | regwrMode | regwrSndlatch | regwrIrq | regwrDma
  | regwrPlain => simp

theorem exec_regwrDma_of_routed {s : State} (h : s.Routed) (v : Byte) :
    exec (.regwrDma v) s = .next ((s.setReg s.cfg.regDma v).setQ .none) :=
  requireBuilt_eq h

/-- Settles O44: the stub's effect is none, so the store is the whole command. -/
theorem dmaTriggerOnlyStores : Obligations.DmaTriggerOnlyStores := by
  intro s v h
  exact ⟨_, exec_regwrDma_of_routed h v, reg_setReg_self s _ v, fun _ ho => reg_setReg_of_ne s v ho, rfl⟩

/-! ### What a register write emits -/

/-- No event of the list drives an interrupt line. -/
def Quiet (es : List Event) : Prop := ∀ e ∈ es, ∀ l level, e ≠ .irq l level

theorem quiet_nil : Quiet [] := fun _ he => nomatch he

theorem quiet_singleton {e : Event} (h : ∀ l level, e ≠ .irq l level) : Quiet [e] := by
  intro x hx
  obtain rfl := List.mem_singleton.mp hx
  exact h

/-- The trace has grown by events that drive no line. -/
def GrowsQuietly (s t : State) : Prop := ∃ es, Quiet es ∧ t.out = s.out ++ es

theorem growsQuietly_of_out {s t : State} (h : t.out = s.out) : GrowsQuietly s t :=
  ⟨[], quiet_nil, by rw [h, List.append_nil]⟩

theorem growsQuietly_emit (s : State) {e : Event} (h : ∀ l level, e ≠ .irq l level) : GrowsQuietly s (s.emit e) :=
  ⟨[e], quiet_singleton h, rfl⟩

theorem descEffect_out (old v : Byte) (s : State) : (descEffect old v s).out = s.out := by
  unfold descEffect
  split
  · rfl
  · exact recompute_out s

/-- The events of a machine reset request (45_register_commands.md R220). -/
def resetEvents (c : Config) : List Event :=
  if c.profile.encrypted = true then [.decryptReinit, .machineReset] else [.machineReset]

theorem mem_resetEvents {c : Config} {e : Event} (h : e ∈ resetEvents c) : e = .decryptReinit ∨ e = .machineReset := by
  unfold resetEvents at h
  split at h
  · simpa using h
  · exact .inr (List.mem_singleton.mp h)

theorem modeEffect_out (old v : Byte) (s : State) :
    (modeEffect old v s).out =
      s.out ++ if old.extractLsb' 0 2 ≠ 3#2 ∧ v.extractLsb' 0 2 = 3#2 then resetEvents s.cfg else [] := by
  unfold modeEffect
  split
  · split
    · obtain ⟨-, -, -, -, -, -, -, hout, -⟩ := rstBody_fields (requestMachineReset s)
      exact hout
    · rfl
  · exact (List.append_nil _).symm

theorem growsQuietly_modeEffect (old v : Byte) (s : State) : GrowsQuietly s (modeEffect old v s) := by
  refine ⟨_, ?_, modeEffect_out old v s⟩
  split
  · rintro e he l level rfl
    rcases mem_resetEvents he with h | h <;> cases h
  · exact quiet_nil

theorem growsQuietly_sndlatchEffect (v : Byte) (s : State) : GrowsQuietly s (sndlatchEffect v s) := by
  unfold sndlatchEffect
  split
  · exact growsQuietly_of_out rfl
  · exact growsQuietly_emit s nofun

/-- The eight events of an interrupt write (45_register_commands.md R222). -/
def driveEvents (v : Byte) : List Event := irqLines.map fun l => .irq l (RegisterCommands.drivenLevel v l)

/-- The trace has grown by the eight events of an interrupt write. -/
def Drives (s t : State) : Prop := ∃ v : Byte, v.extractLsb' 0 3 ≠ 7#3 ∧ t.out = s.out ++ driveEvents v

theorem irqEffect_cases (v : Byte) (s : State) : GrowsQuietly s (irqEffect v s) ∨ Drives s (irqEffect v s) := by
  by_cases h : v.extractLsb' 0 3 = 7#3
  · rw [RegisterCommands.irqEffect_of_seven h]
    exact .inl (growsQuietly_of_out rfl)
  · rw [RegisterCommands.irqEffect_of_ne_seven h]
    exact .inr ⟨v, h, rfl⟩

/-- A register write drives the lines only at the interrupt register's offset. -/
theorem regWrite_grows (o : RegOff) (v : Byte) (s : State) :
    GrowsQuietly s (regWrite o v s) ∨ (o = s.cfg.regIrq ∧ Drives s (regWrite o v s)) := by
  unfold regWrite
  split
  · exact .inl (growsQuietly_of_out (descEffect_out _ v _))
  split
  · exact .inl (growsQuietly_modeEffect _ v _)
  split
  · rename_i hirq
    exact (irqEffect_cases v (s.setReg o v)).imp_right fun h => ⟨hirq, h⟩
  split
  · exact .inl (growsQuietly_sndlatchEffect v _)
  split
  · exact .inl (growsQuietly_of_out rfl)
  · exact .inl (growsQuietly_of_out rfl)

/-- The address reaches the interrupt register: no flat mapping and no region takes the write. -/
def ReachesIrq (a : Addr) (s : State) : Prop :=
  flatLookup .W a s.flat = none ∧ (∀ r, hitRegion (s.soft.get r) a = none) ∧ selectReg s.cfg.regSel a = s.cfg.regIrq

theorem writeEvent_ne_irq (s : State) (r : SoftId) (a st : Addr) (d : Datum) (l : BitVec 3) (level : Level) :
    writeEvent s r a st d ≠ .irq l level := by
  cases r with
  | io => simp only [writeEvent]; split <;> nofun
  | _ => nofun

theorem accessWrite_grows (a : Addr) (d : Datum) (s : State) :
    GrowsQuietly s (accessWrite a d s) ∨ (ReachesIrq a s ∧ Drives s (accessWrite a d s)) := by
  rcases accessWrite_cases a d s with ⟨e, -, h⟩ | ⟨-, r, st, -, h⟩ | ⟨hflat, hmiss, h⟩
  · rw [h]
    exact .inl (growsQuietly_emit s nofun)
  · rw [h, BusRouterWrite.writeDispatch_eq_emit]
    exact .inl (growsQuietly_emit s (writeEvent_ne_irq s r a st d))
  · rw [h]
    exact (regWrite_grows _ _ s).imp_right fun ⟨hirq, hdrives⟩ =>
      ⟨⟨hflat, BusRouterWrite.writeHit_eq_none_iff.mp hmiss, hirq⟩, hdrives⟩

/-! ### The interrupt lines -/

/-- The operations that reach the interrupt register (60_exceptions.md R283). -/
def WritesIrq (i : Instr) (s : State) : Prop :=
  (∃ v, i = .regwrIrq v) ∨ ∃ a, ((∃ d, i = .wrb a d) ∨ ∃ w, i = .wrw a w) ∧ ReachesIrq a s

theorem writeResult_grows {i : Instr} (hi : IsWrite i) (s : State) :
    GrowsQuietly s (writeResult i s) ∨ (WritesIrq i s ∧ Drives s (writeResult i s)) := by
  cases i with
  | wrb a d => exact (accessWrite_grows a _ s).imp_right (And.imp_left fun h => .inr ⟨a, .inl ⟨d, rfl⟩, h⟩)
  | wrw a w => exact (accessWrite_grows a _ s).imp_right (And.imp_left fun h => .inr ⟨a, .inr ⟨w, rfl⟩, h⟩)
  | regwrDesc j v => exact .inl (growsQuietly_of_out (descEffect_out _ v _))
  | regwrMode v => exact .inl (growsQuietly_modeEffect _ v _)
  | regwrSndlatch v => exact .inl (growsQuietly_sndlatchEffect v _)
  | regwrIrq v => exact (irqEffect_cases v _).imp_right fun h => ⟨.inl ⟨v, rfl⟩, h⟩
  | regwrDma v => exact .inl (growsQuietly_of_out rfl)
  | regwrPlain o v => exact .inl (growsQuietly_of_out rfl)
  | _ => cases hi

theorem quiet_of_readTrace {es : List Event} (h : ReadTrace es) : Quiet es := by
  rintro e he l level rfl
  rcases h.mem he with hdevice | hquery
  · exact hdevice
  · cases hquery

/-- All that an operation does to the lines: nothing, or the eight events of an interrupt write. -/
theorem exec_grows {i : Instr} {s t : State} (h : exec i s = .next t) :
    GrowsQuietly s t ∨ (WritesIrq i s ∧ Drives s t) := by
  rcases kind_of_exec_next h with ⟨n, hread⟩ | hwrite | hhost | hmapping
  · obtain ⟨es, d, htrace, -, rfl⟩ := exec_read_next hread h
    exact .inl ⟨es, quiet_of_readTrace htrace, rfl⟩
  · rw [eq_writeResult_of_exec_next hwrite h]
    exact writeResult_grows hwrite s
  · exact .inl (growsQuietly_of_out (Lifecycle.hostOperationsAreSilent i s t hhost h).1)
  · obtain ⟨u, q, hframe, rfl⟩ := mapFrame_of_exec_next hmapping h
    obtain ⟨-, -, -, -, -, -, hout, -⟩ := hframe.fields
    exact .inl (growsQuietly_of_out hout)

theorem lineLevel_of_quiet {es : List Event} (h : Quiet es) (l : BitVec 3) : lineLevel l es = none := by
  induction es with
  | nil => rfl
  | cons e es ih =>
    have htail : lineLevel l es = none := ih fun x hx => h x (List.mem_cons_of_mem _ hx)
    have hhead := h e List.mem_cons_self
    cases e with
    | irq l' level => exact absurd rfl (hhead l' level)
    | _ => simp only [lineLevel, htail]

theorem lineLevel_of_growsQuietly {s t : State} (h : GrowsQuietly s t) (l : BitVec 3) :
    lineLevel l t.out = lineLevel l s.out := by
  obtain ⟨es, hquiet, hout⟩ := h
  rw [hout, RegisterCommands.lineLevel_append, lineLevel_of_quiet hquiet, Option.none_or]

/-- The eight events set every line. -/
theorem lineLevel_append_driveEvents (l : BitVec 3) (v : Byte) (es : List Event) :
    lineLevel l (es ++ driveEvents v) = some (RegisterCommands.drivenLevel v l) := by
  rw [RegisterCommands.lineLevel_append, driveEvents, RegisterCommands.lineLevel_map_irq,
    if_pos (RegisterCommands.mem_irqLines l), Option.some_or]

/-- Settles O49: an operation whose events drive a line has reached the interrupt register. -/
theorem onlyIrqWritesDriveLines : Obligations.OnlyIrqWritesDriveLines := by
  intro i s t l h hirq hreach
  rcases exec_grows h with hquiet | ⟨⟨v, hv⟩ | ⟨a, hwrite, hflat, hregions, hselect⟩, -⟩
  · exact lineLevel_of_growsQuietly hquiet l
  · exact absurd hv (hirq v)
  · rcases hreach a hwrite with hne | ⟨r, hne⟩ | hne
    · exact absurd hflat hne
    · exact absurd (hregions r) hne
    · exact absurd hselect hne

/-- An interrupt write asserts the complement of its low three bits alone (45_register_commands.md R222). -/
theorem drivenLevel_eq_assert_iff (v : Byte) (l : BitVec 3) :
    some (RegisterCommands.drivenLevel v l) = some .assert ↔ l = assertedLine v := by
  rw [← RegisterCommands.level_eq_drivenLevel]
  split <;> simp [*]

theorem assertedLine_ne_zero {v : Byte} (h : v.extractLsb' 0 3 ≠ 7#3) : assertedLine v ≠ 0 := by
  revert h; revert v; decide

/-- Settles O50: a quiet operation keeps every level, and an interrupt write asserts one line that is not line 0. -/
theorem exactlyOneLineStaysAsserted : Obligations.ExactlyOneLineStaysAsserted := by
  intro i s t h
  rcases exec_grows h with hquiet | ⟨-, v, hv, hout⟩
  · simp only [lineLevel_of_growsQuietly hquiet]
    exact ⟨id, id⟩
  · simp only [hout, lineLevel_append_driveEvents, ne_eq, drivenLevel_eq_assert_iff]
    exact ⟨fun _ => (assertedLine_ne_zero hv).symm, fun _ => ⟨_, assertedLine_ne_zero hv, fun _ => Iff.rfl⟩⟩

/-! ### Machine resets -/

/-- Where a machine reset does not imply RST, a register write stores its byte and no other (45_register_commands.md
R215). -/
theorem regWrite_regs {s : State} (h : s.cfg.mresetImpliesRst = false) (o : RegOff) (v : Byte) :
    (regWrite o v s).regs = (s.setReg o v).regs := by
  unfold regWrite
  split
  · unfold descEffect; split
    · rfl
    · exact recompute_regs _
  split
  · unfold modeEffect; split
    · rw [setReg_cfg, h, if_neg Bool.false_ne_true]; rfl
    · rfl
  split
  · unfold irqEffect; split <;> rfl
  split
  · unfold sndlatchEffect; split <;> rfl
  split
  · rfl
  · rfl

/-- How many machine resets one register write requests (45_register_commands.md R220). -/
def resetsOf (c : Config) (m : BitVec 2) (w : RegOff × Byte) : Nat :=
  if w.1 = c.regMode ∧ m ≠ 3#2 ∧ w.2.extractLsb' 0 2 = 3#2 then 1 else 0

theorem count_resetEvents (c : Config) : (resetEvents c).count .machineReset = 1 := by
  unfold resetEvents
  split <;> rfl

theorem count_driveEvents (v : Byte) : (driveEvents v).count .machineReset = 0 := by
  rw [List.count_eq_zero, driveEvents, List.mem_map]
  rintro ⟨l, -, h⟩
  cases h

theorem count_modeEffect (old v : Byte) (s : State) :
    (modeEffect old v s).out.count .machineReset =
      s.out.count .machineReset + if old.extractLsb' 0 2 ≠ 3#2 ∧ v.extractLsb' 0 2 = 3#2 then 1 else 0 := by
  rw [modeEffect_out, List.count_append]
  split
  · rw [count_resetEvents]
  · rfl

theorem count_irqEffect (v : Byte) (s : State) :
    (irqEffect v s).out.count .machineReset = s.out.count .machineReset := by
  by_cases h : v.extractLsb' 0 3 = 7#3
  · rw [RegisterCommands.irqEffect_of_seven h]
  · rw [RegisterCommands.irqEffect_of_ne_seven h, emits_out, List.count_append]
    exact congrArg _ (count_driveEvents v)

theorem count_sndlatchEffect (v : Byte) (s : State) :
    (sndlatchEffect v s).out.count .machineReset = s.out.count .machineReset := by
  unfold sndlatchEffect
  split
  · rfl
  · simp

theorem count_regWrite {s : State} (hc : s.cfg.wf = true) (o : RegOff) (v : Byte) :
    (regWrite o v s).out.count .machineReset =
      s.out.count .machineReset + resetsOf s.cfg ((s.reg s.cfg.regMode).extractLsb' 0 2) (o, v) := by
  have hnone (ho : o ≠ s.cfg.regMode) :
      resetsOf s.cfg ((s.reg s.cfg.regMode).extractLsb' 0 2) (o, v) = 0 := if_neg fun h => ho h.1
  unfold regWrite
  split
  · rename_i hdesc
    have ho : o ≠ s.cfg.regMode := by
      rintro rfl
      obtain ⟨-, -, -, hlow, -⟩ := offsets_of_wf hc
      exact Bool.false_ne_true ((low_of_lt hlow).symm.trans hdesc)
    rw [descEffect_out, hnone ho]
    rfl
  split
  · rename_i ho
    subst ho
    rw [count_modeEffect]
    simp [resetsOf]
  rename_i ho
  rw [hnone ho, Nat.add_zero]
  split
  · exact count_irqEffect v _
  split
  · exact count_sndlatchEffect v _
  split
  · rfl
  · rfl

/-- The mode register after a register write. -/
theorem reg_regWrite {s : State} (h : s.cfg.mresetImpliesRst = false) (o o' : RegOff) (v : Byte) :
    (regWrite o v s).reg o' = if o = o' then v else s.reg o' := by
  have hreg : (regWrite o v s).reg o' = (s.setReg o v).reg o' := by rw [State.reg, regWrite_regs h]; rfl
  rw [hreg]
  split
  · rename_i heq; subst heq; exact reg_setReg_self s o v
  · rename_i hne; exact reg_setReg_of_ne s v (Ne.symm hne)

/-- The requests of a list are those of its first write and of the rest. -/
theorem resetsRequested_cons (c : Config) (m : BitVec 2) (w : RegOff × Byte) (ws : List (RegOff × Byte)) :
    resetsRequested c m (w :: ws) =
      resetsOf c m w + resetsRequested c (if w.1 = c.regMode then w.2.extractLsb' 0 2 else m) ws := by
  rw [resetsRequested, resetsOf]
  by_cases h : w.1 = c.regMode
  · simp [h]
  · simp [h]

theorem routed_regWrite {s : State} (h : s.Routed) (o : RegOff) (v : Byte) : (regWrite o v s).Routed := by
  obtain ⟨hc, hl, hb⟩ := h
  have hframe := writeFrame_regWrite o v s
  exact ⟨hframe.cfg.symm ▸ hc, hframe.live.trans hl, hframe.built hb⟩

/-- Settles O47: by induction along the list, each write adds its own requests and leaves the mode bits the next one
finds. -/
theorem machineResetOncePerTransition : Obligations.MachineResetOncePerTransition := by
  intro ws
  induction ws with
  | nil => exact fun s h _ => ⟨s, rfl, rfl⟩
  | cons w ws ih =>
    intro s h hm
    have hcfg : ((regWrite w.1 w.2 s).setQ .none).cfg = s.cfg := (writeFrame_regWrite w.1 w.2 s).cfg
    obtain ⟨t, hexec, hcount⟩ := ih ((regWrite w.1 w.2 s).setQ .none) (routed_regWrite h w.1 w.2) (by rw [hcfg]; exact hm)
    rw [hcfg] at hexec hcount
    refine ⟨t, ?runs, ?counts⟩
    case runs =>
      rw [List.map_cons, execAll, BusRouterWrite.exec_registerKey_of_routed h]
      exact hexec
    case counts =>
      have hmode : (((regWrite w.1 w.2 s).setQ .none).reg s.cfg.regMode).extractLsb' 0 2 =
          if w.1 = s.cfg.regMode then w.2.extractLsb' 0 2 else (s.reg s.cfg.regMode).extractLsb' 0 2 := by
        rw [RegisterCommands.reg_setQ, reg_regWrite hm]
        exact apply_ite (BitVec.extractLsb' 0 2) _ _ _
      rw [hcount, hmode, setQ_out, count_regWrite h.1, resetsRequested_cons, Nat.add_assoc]

end Sys2Proof.Proofs.Operations
end

