-- ==== Sys2Proof/Proofs/Invariant.lean ====
section
/-! PROOFS. The invariant between operations (spec/10_state.md section 9): it holds at reset and every step keeps it. An
operation either leaves the mapping and the bytes it is made of, or ends in a recompute; and a mapping a recompute made lies
below the register base the model uses, which is what the round trip of SAVE and RESTORE and the pseudo-operations need. -/

namespace Sys2Proof.Proofs.Invariant

open Sys2Proof Sys2Proof.Machine Sys2Proof.Proofs.Recompute Sys2Proof.Proofs.BusRouterRead

/-! ### The state after reset -/

/-- Settles O1: each field stands written out in `State.reset`. -/
theorem resetHoldsAfterExitValues : Obligations.ResetHoldsAfterExitValues := by
  refine ⟨rfl, fun o => ?reg, fun r => ?region, rfl, rfl, rfl, rfl, rfl, rfl, rfl⟩
  case reg => exact Vector.getElem_replicate o.toFin.isLt
  case region =>
    have hempty : State.reset.soft.get r = emptyRegion := emptyTables_get r
    rw [hempty]
    refine ⟨rfl, rfl, fun b hb => ?_⟩
    rw [emptyRegion, Vector.toList_replicate] at hb
    exact List.eq_of_mem_replicate hb

/-! ### Where the invariant comes from -/

/-- The two clauses on order follow from the bounds of the mapping. -/
theorem ordered_of_mapOk {s : State} (h : MapOk s) :
    (∀ e ∈ s.flat, e.start ≤ e.stop) ∧
    ∀ r, (s.soft.get r).start ≤ (s.soft.get r).stop ∧ ∀ b ∈ (s.soft.get r).mir.toList, b.start ≤ b.stop :=
  ⟨fun e he => (h.flat e he).1, fun r => ⟨(h.soft r).1.1, fun b hb => ((h.soft r).2 b hb).1⟩⟩

/-- With nothing built the state needs no mapping, and DOWN its registers and hooks clear. -/
theorem inv_of_unbuilt {s : State} (hguard : s.guard = false) (hsoft : s.soft = emptyTables) (hflat : s.flat = [])
    (hmwi : s.mwi = 0) (hbuilt : s.built = false)
    (hdown : s.live = false → s.regs = zeroRegs ∧ s.hookR = false ∧ s.hookW = false) : s.Inv := by
  obtain ⟨hflatOrdered, hsoftOrdered⟩ := ordered_of_mapOk (mapOk_of_empty hflat hsoft)
  refine ⟨hguard, by omega, hflatOrdered, hsoftOrdered, fun h => ?_, fun _ => ⟨hsoft, hflat, hmwi⟩, fun hl => ?_⟩
  · exact absurd h (by simp [hbuilt])
  · obtain ⟨hregs, hR, hW⟩ := hdown hl
    exact ⟨hregs, hR, hW, hbuilt⟩

/-- Settles O59: nothing is built at reset. -/
theorem resetMeetsInvariant : Obligations.ResetMeetsInvariant :=
  inv_of_unbuilt rfl rfl rfl rfl rfl fun _ => ⟨rfl, rfl, rfl⟩

theorem mapOk_congr {s t : State} (h : MapOk s) (hsoft : t.soft = s.soft) (hflat : t.flat = s.flat) : MapOk t :=
  ⟨by rw [hflat]; exact h.flat, by rw [hsoft]; exact h.soft⟩

/-- In a live block the invariant is that the mapping is one a recompute has made of the present descriptors. -/
theorem inv_of_rebuilt {s u : State} (hguard : s.guard = false) (hmwi : s.mwi ≤ 32) (hlive : s.live = true)
    (hbuilt : s.built = true) (hsoft : s.soft = (recompute u).soft) (hflat : s.flat = (recompute u).flat)
    (htable : s.cfg.table = u.cfg.table) (hregion : computeSlot s.regs = computeSlot u.regs) : s.Inv := by
  obtain ⟨hflatOrdered, hsoftOrdered⟩ := ordered_of_mapOk (mapOk_congr (mapOk_recompute u) hsoft hflat)
  obtain ⟨hsoft', hflat', -, -⟩ := sameMap_recompute htable hregion
  exact ⟨hguard, hmwi, hflatOrdered, hsoftOrdered, fun _ => ⟨hsoft.trans hsoft'.symm, hflat.trans hflat'.symm⟩,
    fun h => absurd h (by simp [hbuilt]), fun h => absurd h (by simp [hlive])⟩

/-- What an operation may leave of a state for the invariant to carry over: the mapping, the lifecycle, the parameters and
the regions of the descriptors. -/
structure SameDecoder (s t : State) : Prop where
  cfg : t.cfg = s.cfg
  soft : t.soft = s.soft
  flat : t.flat = s.flat
  mwi : t.mwi = s.mwi
  guard : t.guard = s.guard
  live : t.live = s.live
  built : t.built = s.built
  region : computeSlot t.regs = computeSlot s.regs
  down : t.live = false → t.regs = s.regs ∧ t.hookR = s.hookR ∧ t.hookW = s.hookW

theorem inv_of_sameDecoder {s t : State} (hs : s.Inv) (h : SameDecoder s t) : t.Inv := by
  obtain ⟨hsoft, hflat, -, -⟩ := sameMap_recompute (congrArg Config.table h.cfg) h.region
  refine ⟨h.guard.trans hs.guard, h.mwi ▸ hs.mwi, h.flat ▸ hs.flatOrdered, h.soft ▸ hs.softOrdered, fun hb => ?rebuilt,
    fun hb => ?unbuilt, fun hl => ?down⟩
  case rebuilt =>
    obtain ⟨hs₁, hs₂⟩ := hs.rebuilt (h.built.symm.trans hb)
    rw [h.soft, h.flat, hsoft, hflat]
    exact ⟨hs₁, hs₂⟩
  case unbuilt =>
    rw [h.soft, h.flat, h.mwi]
    exact hs.unbuilt (h.built.symm.trans hb)
  case down =>
    obtain ⟨hregs, hR, hW⟩ := h.down hl
    rw [hregs, hR, hW, h.built]
    exact hs.down (h.live.symm.trans hl)

theorem inv_setQ {s : State} (h : s.Inv) (q : QPort) : (s.setQ q).Inv :=
  inv_of_sameDecoder h ⟨rfl, rfl, rfl, rfl, rfl, rfl, rfl, rfl, fun _ => ⟨rfl, rfl, rfl⟩⟩

theorem inv_pending {s : State} (h : s.Inv) (p : List Stimulus) : State.Inv { s with pending := p } :=
  inv_of_sameDecoder h ⟨rfl, rfl, rfl, rfl, rfl, rfl, rfl, rfl, fun _ => ⟨rfl, rfl, rfl⟩⟩

theorem inv_drawnAll {s : State} (h : s.Inv) (es : List Event) : (drawnAll es s).Inv :=
  inv_of_sameDecoder h ⟨rfl, rfl, rfl, rfl, rfl, rfl, rfl, rfl, fun _ => ⟨rfl, rfl, rfl⟩⟩

theorem inv_emits {s : State} (h : s.Inv) (es : List Event) : (s.emits es).Inv :=
  inv_of_sameDecoder h ⟨rfl, rfl, rfl, rfl, rfl, rfl, rfl, rfl, fun _ => ⟨rfl, rfl, rfl⟩⟩

theorem inv_emit {s : State} (h : s.Inv) (e : Event) : (s.emit e).Inv := inv_emits h [e]

theorem inv_setHooks {s : State} (h : s.Inv) (hl : s.live = true) (r w : Bool) : (s.setHooks r w).Inv :=
  inv_of_sameDecoder h ⟨rfl, rfl, rfl, rfl, rfl, rfl, rfl, rfl, fun hd => absurd hd (by simp [hl])⟩

/-- A register below 0x10 is in no descriptor (10_state.md R22). -/
theorem computeSlot_setReg_low (s : State) {o : RegOff} (h : o.getLsbD 4 = false) (v : Byte) :
    computeSlot (s.setReg o v).regs = computeSlot s.regs := by
  refine computeSlot_congr fun o' ho' => reg_setReg_of_ne s v ?_
  rintro rfl
  exact Bool.false_ne_true (h.symm.trans (Encoding.bit4_of_le ho'))

theorem inv_setReg_low {s : State} (h : s.Inv) (hl : s.live = true) {o : RegOff} (ho : o.getLsbD 4 = false) (v : Byte) :
    (s.setReg o v).Inv :=
  inv_of_sameDecoder h ⟨rfl, rfl, rfl, rfl, rfl, rfl, rfl, computeSlot_setReg_low s ho v,
    fun hd => absurd hd (by simp [hl])⟩

/-- A recompute in a live block meets the invariant whatever stood before, and so does any index stored after it. -/
theorem inv_recompute_setMwi {s : State} (hguard : s.guard = false) (hlive : s.live = true) {n : Nat} (hn : n ≤ 32) :
    ((recompute s).setMwi n).Inv :=
  inv_of_rebuilt (u := s) (by simp [hguard]) hn (by simp [hlive]) (by simp) rfl rfl (by simp) (by simp)

theorem inv_recompute {s : State} (hguard : s.guard = false) (hlive : s.live = true) : (recompute s).Inv :=
  inv_recompute_setMwi hguard hlive (recompute_mwi_le s)

/-! ### Writes -/

theorem inv_descEffect {s : State} (h : s.Inv) (hl : s.live = true) (o : RegOff) (v : Byte) :
    (descEffect (s.reg o) v (s.setReg o v)).Inv := by
  by_cases hv : v = s.reg o
  · subst hv
    rw [RegisterCommands.descEffect_same, setReg_self]
    exact h
  · rw [RegisterCommands.descEffect_of_ne hv]
    exact inv_recompute h.guard hl

theorem inv_rstBody {s : State} (hl : s.live = true) : (rstBody s).Inv := by
  rw [Lifecycle.rstBody_eq_recompute_loaded]
  exact inv_recompute rfl hl

theorem inv_modeEffect {s : State} (h : s.Inv) (hl : s.live = true) (old v : Byte) : (modeEffect old v s).Inv := by
  unfold modeEffect
  split
  · split
    · exact inv_rstBody hl
    · exact inv_emits h _
  · exact h

theorem inv_irqEffect {s : State} (h : s.Inv) (v : Byte) : (irqEffect v s).Inv := by
  unfold irqEffect
  split
  · exact h
  · exact inv_emits h _

theorem inv_sndlatchEffect {s : State} (h : s.Inv) (v : Byte) : (sndlatchEffect v s).Inv := by
  unfold sndlatchEffect
  split
  · exact h
  · exact inv_emit h _

/-- A descriptor write recomputes if it changes a byte, and every other command stores a byte no descriptor holds. -/
theorem inv_regWrite {s : State} (h : s.Inv) (hl : s.live = true) (o : RegOff) (v : Byte) : (regWrite o v s).Inv := by
  unfold regWrite
  split
  · exact inv_descEffect h hl o v
  rename_i ho
  have hstore := inv_setReg_low h hl (Bool.eq_false_iff.mpr ho) v
  split
  · exact inv_modeEffect hstore hl _ v
  split
  · exact inv_irqEffect hstore v
  split
  · exact inv_sndlatchEffect hstore v
  split
  · exact hstore
  · exact hstore

theorem inv_accessWrite {s : State} (h : s.Inv) (hl : s.live = true) (a : Addr) (d : Datum) :
    (accessWrite a d s).Inv := by
  rcases accessWrite_cases a d s with ⟨e, -, heq⟩ | ⟨-, r, st, -, heq⟩ | ⟨-, -, heq⟩
  · rw [heq]; exact inv_emit h _
  · rw [heq, BusRouterWrite.writeDispatch_eq_emit]; exact inv_emit h _
  · rw [heq]; exact inv_regWrite h hl _ _

/-! ### Every operation of a bundle -/

/-- INIT and EXIT leave nothing built. -/
theorem inv_zeroed (s : State) (b : Bool) : (s.zeroed.setLive b).Inv :=
  inv_of_unbuilt rfl rfl rfl rfl rfl fun _ => ⟨rfl, rfl, rfl⟩

theorem inv_afterRestore {s : State} (hl : s.live = true) {snap : Snapshot} (h : (snap[32]).toNat ≤ 32) :
    (Lifecycle.afterRestore snap s).Inv :=
  inv_setQ (inv_recompute_setMwi (s := Lifecycle.loaded (snapshotRegs snap) s) rfl hl h) .none

theorem inv_afterRst {s : State} (hl : s.live = true) : (Lifecycle.afterRst s).Inv :=
  inv_setQ (inv_recompute (s := Lifecycle.loaded (Lifecycle.rstRegs s) s) rfl hl) .none

theorem inv_afterCfg {s : State} (h : s.Inv) (hl : s.live = true) (block : Block) :
    (MappingManager.afterCfg block s).Inv := by
  have hrebuilt : (recompute (s.setRegs (storeBlock block s.regs))).Inv :=
    inv_recompute ((setRegs_guard s _).trans h.guard) ((setRegs_live s _).trans hl)
  exact inv_setQ hrebuilt .none

theorem inv_hostResult {i : Instr} {s t : State} (hs : s.Inv) (hi : i.opClass = .host) (h : exec i s = .next t) :
    (Lifecycle.hostResult i s).Inv := by
  have hlive (hinit : i ≠ .init) : s.live = true := Lifecycle.live_of_exec_next hinit h
  cases i with
  | init => exact inv_setQ (inv_zeroed s true) .none
  | exit => exact inv_setQ (inv_zeroed s false) .none
  | rst => exact inv_afterRst (hlive nofun)
  | cfg block => exact inv_afterCfg hs (hlive nofun) block
  | sethook r w => exact inv_setQ (inv_setHooks hs (hlive nofun) r w) .none
  | save => exact inv_setQ hs _
  | restore snap => exact inv_afterRestore (hlive nofun) (Exceptions.index_le_of_exec_restore_next h)
  | _ => cases hi

theorem inv_of_exec_bus {i : Instr} {s t : State} (hs : s.Inv) (hi : i.opClass = .bus) (h : exec i s = .next t) :
    t.Inv := by
  have hread {n : Width} (hn : readWidth i = some n) : t.Inv := by
    obtain ⟨es, d, -, -, rfl⟩ := exec_read_next hn h
    exact inv_setQ (inv_drawnAll hs es) _
  have hwrite {a : Addr} {d : Datum} (hexec : exec i s = requireBuilt s (.next ((accessWrite a d s).setQ .none))) :
      t.Inv := by
    obtain ⟨⟨-, hl, -⟩, hnext⟩ := requireBuilt_next (hexec.symm.trans h)
    cases hnext
    exact inv_setQ (inv_accessWrite hs hl a d) .none
  cases i with
  | rdb | rdw | ftw => exact hread rfl
  | wrb a d => exact hwrite (d := .byte d) rfl
  | wrw a d => exact hwrite (d := .word d) rfl
  | _ => cases hi

/-- Settles O60: an idle step changes nothing, and a bundle decodes to a bus transaction or a host operation, which keep
the invariant, or to a reserved operation, which does not complete. -/
theorem stepKeepsInvariant : Obligations.StepKeepsInvariant := by
  intro s t hs h
  rcases step_next h with ⟨-, rfl⟩ | ⟨st, rest, -, hexec⟩
  · exact hs
  · have htaken : State.Inv { s with pending := rest } := inv_pending hs rest
    rcases decodeBundle_opClass st.bundle st.payload with hbus | hhost | hreserved
    · exact inv_of_exec_bus htaken hbus hexec
    · rw [Lifecycle.eq_hostResult_of_exec_next hhost hexec]
      exact inv_hostResult htaken hhost hexec
    · exact absurd hreserved (Exceptions.not_reserved_of_exec_next hexec)

/-! ### SAVE and RESTORE -/

theorem snapshotRegs_packSnapshot (regs : Vector Byte 32) (mwi : Nat) : snapshotRegs (packSnapshot regs mwi) = regs := by
  simp [snapshotRegs, packSnapshot]

/-- The write index fits its byte (10_state.md R27). -/
theorem packSnapshot_index_toNat {s : State} (h : s.mwi ≤ 32) : ((packSnapshot s.regs s.mwi)[32]).toNat = s.mwi := by
  rw [Lifecycle.packSnapshot_getElem_index, BitVec.toNat_ofNat, Nat.mod_eq_of_lt (by omega)]

/-- The state SAVE leaves. -/
def afterSave (s : State) : State := s.setQ (.snapshot (packSnapshot s.regs s.mwi))

/-- What RESTORE makes of what SAVE left. -/
def restored (s : State) : State := Lifecycle.afterRestore (packSnapshot s.regs s.mwi) (afterSave s)

theorem restored_regs (s : State) : (restored s).regs = s.regs := by
  rw [restored, Lifecycle.afterRestore_regs, snapshotRegs_packSnapshot]

theorem sameMap_loaded_afterSave (s : State) :
    SameMap (recompute (Lifecycle.loaded (snapshotRegs (packSnapshot s.regs s.mwi)) (afterSave s))) (recompute s) :=
  sameMap_recompute rfl (congrArg computeSlot (snapshotRegs_packSnapshot s.regs s.mwi))

theorem exec_restore_afterSave {s : State} (hs : s.Inv) (h : s.Ready) :
    exec (.restore (packSnapshot s.regs s.mwi)) (afterSave s) = .next (restored s) := by
  have hready : (afterSave s).Ready := h
  have hindex : ((packSnapshot s.regs s.mwi)[32]).toNat ≤ 32 := by
    rw [packSnapshot_index_toNat hs.mwi]
    exact hs.mwi
  exact Lifecycle.exec_restore_of_ready hready hindex

/-- Settles O10: RESTORE recomputes from the registers that stand, and by the invariant that is the mapping that stands. -/
theorem saveRestoreRoundTrip : Obligations.SaveRestoreRoundTrip := by
  intro s hs h
  obtain ⟨hsoft, hflat⟩ := hs.rebuilt h.2.2
  obtain ⟨hsoft', hflat', -, -⟩ := sameMap_loaded_afterSave s
  exact ⟨afterSave s, packSnapshot s.regs s.mwi, restored s, Lifecycle.exec_save_of_ready h.ready, rfl,
    exec_restore_afterSave hs h.ready, restored_regs s, hsoft'.trans hsoft.symm, hflat'.trans hflat.symm,
    packSnapshot_index_toNat hs.mwi, by rw [restored, Lifecycle.afterRestore_frame]⟩

/-! ### Register bases -/

theorem mapOk_of_inv {s : State} (h : s.Inv) : MapOk s := by
  cases hb : s.built with
  | true =>
    obtain ⟨hsoft, hflat⟩ := h.rebuilt hb
    exact mapOk_congr (mapOk_recompute s) hsoft hflat
  | false =>
    obtain ⟨hsoft, hflat, -⟩ := h.unbuilt hb
    exact mapOk_of_empty hflat hsoft

/-- An address above the highest end an alias can have is in no range (41_mirror_expander.md R143). -/
theorem not_inside_of_boundsOk {start stop a : Addr} (h : BoundsOk start stop) (ha : 0x13FFFFD < a.toNat) :
    inside a start stop ≠ true := by
  rw [Ne, inside_iff_toNat]
  obtain ⟨-, hstop⟩ := h
  omega

theorem flatLookup_above {s : State} (h : MapOk s) {a : Addr} (ha : 0x13FFFFD < a.toNat) (k : Kind) :
    flatLookup k a s.flat = none := by
  refine flatLookup_eq_none_iff.mpr fun e he => Bool.eq_false_iff.mpr fun hserves => ?_
  exact not_inside_of_boundsOk (h.flat e he) ha (Bool.and_eq_true_iff.mp hserves).2

theorem hitRegion_above {x : SoftRegion} (h : RegionOk x) {a : Addr} (ha : 0x13FFFFD < a.toNat) :
    hitRegion x a = none := by
  obtain ⟨hprimary, hmirror⟩ := h
  refine hitRegion_eq_none_iff.mpr ⟨?_, ?_⟩
  · refine Option.eq_none_iff_forall_ne_some.mpr fun st hst => ?_
    obtain ⟨-, hin, -⟩ := hitPrimary_eq_some.mp hst
    exact not_inside_of_boundsOk hprimary ha hin
  · refine Option.eq_none_iff_forall_ne_some.mpr fun st hst => ?_
    obtain ⟨-, b, hb, -, hin, -⟩ := hitMirror_some hst
    exact not_inside_of_boundsOk (hmirror b hb) ha hin

theorem writeHit_above {s : State} (h : MapOk s) {a : Addr} (ha : 0x13FFFFD < a.toNat) : writeHit s.soft a = none :=
  BusRouterWrite.writeHit_eq_none_iff.mpr fun r => hitRegion_above (h.soft r) ha

theorem isRegisterBase_iff {k : Kind} {rb : Addr} {s : State} :
    isRegisterBase k rb s = true ↔ rb &&& 0x3F#32 = 0 ∧ ∀ i < 64,
      flatLookup k (rb + BitVec.ofNat 32 i) s.flat = none ∧ writeHit s.soft (rb + BitVec.ofNat 32 i) = none := by
  simp only [isRegisterBase, Bool.and_eq_true, decide_eq_true_eq, List.all_eq_true, List.mem_range,
    Option.isNone_iff_eq_none]

/-- No mapping reaches the base the model uses (log 2). -/
theorem isRegisterBase_high {s : State} (h : s.Inv) (k : Kind) : isRegisterBase k highRegisterBase s = true := by
  refine isRegisterBase_iff.mpr ⟨by decide, fun i hi => ?_⟩
  have habove : 0x13FFFFD < (highRegisterBase + BitVec.ofNat 32 i).toNat := by
    have hbase : highRegisterBase.toNat = 0x80000000 := rfl
    rw [BitVec.toNat_add, BitVec.toNat_ofNat, hbase]
    omega
  exact ⟨flatLookup_above (mapOk_of_inv h) habove k, writeHit_above (mapOk_of_inv h) habove⟩

/-- A register's address is an odd offset from its base (30_encoding.md R101). -/
theorem registerAddress_eq (rb : Addr) (o : RegOff) :
    registerAddress rb o = rb + BitVec.ofNat 32 (2 * o.toNat + 1) := by
  have ho := o.isLt
  have htwo : (2 : Addr).toNat = 2 := rfl
  have hone : (1 : Addr).toNat = 1 := rfl
  apply BitVec.eq_of_toNat_eq
  simp only [registerAddress, BitVec.toNat_add, BitVec.toNat_mul, BitVec.toNat_setWidth, BitVec.toNat_ofNat, htwo, hone]
  omega

/-- The reference selection reads the offset back off the address (00_scope.md R7). -/
theorem selectReg_registerAddress {rb : Addr} (h : rb &&& 0x3F#32 = 0) (o : RegOff) :
    selectReg (.bits 1) (registerAddress rb o) = o := by
  have ho := o.isLt
  have hrb := rb.isLt
  have hlow : rb.toNat % 64 = 0 := by
    have hand := congrArg BitVec.toNat h
    rw [BitVec.toNat_and] at hand
    exact (Nat.and_two_pow_sub_one_eq_mod rb.toNat 6).symm.trans hand
  apply BitVec.eq_of_toNat_eq
  rw [selectReg, registerAddress_eq, BitVec.toNat_setWidth, BitVec.toNat_ushiftRight, BitVec.toNat_add,
    BitVec.toNat_ofNat, Nat.shiftRight_eq_div_pow]
  omega

/-- What an address through a register base finds: nothing mapped, and the register it names. -/
theorem through_registerBase {k : Kind} {rb : Addr} {s : State} (h : isRegisterBase k rb s = true)
    (hsel : s.cfg.regSel = .bits 1) (o : RegOff) :
    flatLookup k (registerAddress rb o) s.flat = none ∧ writeHit s.soft (registerAddress rb o) = none ∧
      selectReg s.cfg.regSel (registerAddress rb o) = o := by
  have ho := o.isLt
  obtain ⟨hbase, hfree⟩ := isRegisterBase_iff.mp h
  obtain ⟨hflat, hmiss⟩ := hfree (2 * o.toNat + 1) (by omega)
  rw [← registerAddress_eq] at hflat hmiss
  exact ⟨hflat, hmiss, by rw [hsel, selectReg_registerAddress hbase]⟩

/-- REGW through a base is the register command, and is refused where that is. -/
theorem exec_regw {rb : Addr} {s : State} (h : isRegisterBase .W rb s = true) (hsel : s.cfg.regSel = .bits 1) (o : RegOff)
    (v : Byte) : exec (regw rb o v) s = exec (decodeKey s.cfg (packKey o v)) s := by
  obtain ⟨hflat, hmiss, hselect⟩ := through_registerBase h hsel o
  have hwrite : accessWrite (registerAddress rb o) (.byte v) s = regWrite o v s := by
    rw [BusRouterWrite.accessWrite_of_miss hflat hmiss, hselect]
    rfl
  have hexec : exec (regw rb o v) s =
      requireBuilt s (.next ((accessWrite (registerAddress rb o) (.byte v) s).setQ .none)) := rfl
  rw [hexec, hwrite, exec_decodeKey]

/-- REGR through a base is the register read. -/
theorem exec_regr {rb : Addr} {s : State} (hs : s.Routed) (h : isRegisterBase .R rb s = true)
    (hsel : s.cfg.regSel = .bits 1) (o : RegOff) :
    exec (regr rb o) s = .next { s with q := .data (.byte ((regRead s o).getD 0xFF)) } := by
  obtain ⟨hflat, hmiss, hselect⟩ := through_registerBase h hsel o
  have hio : hitRegion s.soft.io (registerAddress rb o) = none := BusRouterWrite.writeHit_eq_none_iff.mp hmiss .io
  rw [regr, exec_rdb_of_routed hs, accessRead_byte_of_miss hflat hio, hselect]
  rfl

/-- Settles O58: through a base the access falls to the register file, and the high base is one by the invariant. -/
theorem registerBaseReachesRegisterFile : Obligations.RegisterBaseReachesRegisterFile := by
  refine ⟨fun s rb o h hsel => ⟨fun hbase v => ⟨exec_regw hbase hsel o v, _, BusRouterWrite.exec_wrb_of_routed h _ v⟩,
    fun hbase => exec_regr h hbase hsel o⟩, fun s hs hsel => ⟨isRegisterBase_high hs, ?key, ?offset⟩⟩
  case key =>
    intro nbits w k hk
    rw [step_withFetchWord hk, decode_carrier_key, exec_regw (isRegisterBase_high hs .W) hsel, packKey_fields]
  case offset =>
    intro nbits w o ho h
    rw [step_withFetchWord ho, decode_carrier_offset]
    exact exec_regr h (isRegisterBase_high hs .R) hsel o

end Sys2Proof.Proofs.Invariant
end
